-- ==== Sys2Proof/Word.lean ====
section
/-! DEFINITION. The bit-vector types of the block (00_scope.md R8: a byte is a u8; registers are 32 bits). -/

namespace Sys2Proof

/-- A byte, the unit of SRC, DST and the wire (00_scope.md R8). -/
abbrev Byte := BitVec 8

/-- A 16-bit value: a UUID16 entry, the appearance, the advertising interval (10_state.md R47, R55). -/
abbrev Half := BitVec 16

/-- A 32-bit register or command word (10_state.md R32, 30_encoding.md R110). -/
abbrev Word := BitVec 32

end Sys2Proof
end

