-- ==== Sys2Proof/Syntax.lean ====
section
/-! DEFINITION. The instructions: one constructor for each row of spec/opcode_table.json. -/

namespace Sys2Proof

/-- The commands of 30_encoding.md R111 and the TLV records of R125 and R126. A command carries the
operand bytes it uses (R112, R113); a record carries its length byte `len` (R120), and an
unrecognised one its type code too. -/
inductive Instr where
  /-- NOP (42_control.md R260) -/
  | nop
  /-- HDR: type code, payload length (40_encode.md R160) -/
  | hdr (t n : Byte)
  /-- FLAT: type code, payload length, SRC offset (R161) -/
  | flat (t n off : Byte)
  /-- ARR16: type code, element count (R162) -/
  | arr16 (t cnt : Byte)
  /-- ARR32: type code, element count (R163) -/
  | arr32 (t cnt : Byte)
  /-- ENCODE (R170) -/
  | encode
  /-- PU16: SRC offset, payload length, completeness bit (41_decode.md R202) -/
  | pu16 (off n : Byte) (c : Bool)
  /-- PU32 (R203) -/
  | pu32 (off n : Byte) (c : Bool)
  /-- DEC1: SRC position, remaining length (R232) -/
  | dec1 (p r : Byte)
  /-- DECODE (R240) -/
  | decode
  /-- FSCLR (42_control.md R261) -/
  | fsclr
  /-- A reserved opcode (R262) -/
  | reserved (op : Byte)
  /-- Type 0x01 (41_decode.md R213) -/
  | adFlags (len : Byte)
  /-- Type 0x02 (R214) -/
  | adUuid16Incomplete (len : Byte)
  /-- Type 0x03 (R214) -/
  | adUuid16Complete (len : Byte)
  /-- Type 0x04 (R215) -/
  | adUuid32Incomplete (len : Byte)
  /-- Type 0x05 (R215) -/
  | adUuid32Complete (len : Byte)
  /-- Type 0x06 (R216) -/
  | adUuid128Incomplete (len : Byte)
  /-- Type 0x07 (R216) -/
  | adUuid128Complete (len : Byte)
  /-- Type 0x08 (R217) -/
  | adNameIncomplete (len : Byte)
  /-- Type 0x09 (R217) -/
  | adNameComplete (len : Byte)
  /-- Type 0x0A (R218) -/
  | adTxPower (len : Byte)
  /-- Type 0x0D (R219) -/
  | adClassOfDevice (len : Byte)
  /-- Type 0x12 (R220) -/
  | adPeriphConnItvlRange (len : Byte)
  /-- Type 0x16 (R221) -/
  | adSvcDataUuid16 (len : Byte)
  /-- Type 0x17 (R222) -/
  | adPublicTargetAddr (len : Byte)
  /-- Type 0x19 (R223) -/
  | adAppearance (len : Byte)
  /-- Type 0x1A (R224) -/
  | adAdvInterval (len : Byte)
  /-- Type 0x1B (R225) -/
  | adLeDeviceAddr (len : Byte)
  /-- Type 0x1C (R226) -/
  | adLeRole (len : Byte)
  /-- Type 0x20 (R227) -/
  | adSvcDataUuid32 (len : Byte)
  /-- Type 0x21 (R228) -/
  | adSvcDataUuid128 (len : Byte)
  /-- Type 0x24 (R229) -/
  | adUri (len : Byte)
  /-- Type 0xFF (R230) -/
  | adMfgData (len : Byte)
  /-- Any other type code `t` (R231) -/
  | adUnrecognised (len t : Byte)
  deriving DecidableEq, Repr

/-- How an instruction is written down: a 32-bit command word (30_encoding.md R110) or the bytes of a
record, length byte first (R120). The two never meet in one place: a command word comes from a
CMD write (20_memory.md R88), a record from SRC. -/
inductive Code where
  | command (w : Word)
  | record (bytes : List Byte)
  deriving DecidableEq, Repr

end Sys2Proof
end

