-- ==== Sys2Proof/WellFormed.lean ====
section
/-! DEFINITION. Which instructions the encodings of 30_encoding.md admit. -/

namespace Sys2Proof

/-- The opcodes of 30_encoding.md R111. -/
def definedOpcodes : List Byte :=
  [0x00, 0x01, 0x02, 0x03, 0x04, 0x08, 0x10, 0x11, 0x12, 0x18, 0x20]

/-- The type codes of 30_encoding.md R125. -/
def definedTypeCodes : List Byte :=
  [0x01, 0x02, 0x03, 0x04, 0x05, 0x06, 0x07, 0x08, 0x09, 0x0A, 0x0D, 0x12, 0x16, 0x17, 0x19, 0x1A,
    0x1B, 0x1C, 0x20, 0x21, 0x24, 0xFF]

/-- A record has room for its type byte: its length byte is not 0 (30_encoding.md R124). -/
def hasTypeByte (len : Byte) : Bool := len != 0

/-- An instruction that some encoding of 30_encoding.md stands for: a reserved command has a reserved
opcode (R114), a record's length byte is not 0 (R124), an unrecognised record's code is outside the
table (R126). -/
def Instr.wf : Instr → Bool
  | .nop => true
  | .hdr _ _ => true
  | .flat _ _ _ => true
  | .arr16 _ _ => true
  | .arr32 _ _ => true
  | .encode => true
  | .pu16 _ _ _ => true
  | .pu32 _ _ _ => true
  | .dec1 _ _ => true
  | .decode => true
  | .fsclr => true
  | .reserved op => !definedOpcodes.contains op
  | .adFlags len => hasTypeByte len
  | .adUuid16Incomplete len => hasTypeByte len
  | .adUuid16Complete len => hasTypeByte len
  | .adUuid32Incomplete len => hasTypeByte len
  | .adUuid32Complete len => hasTypeByte len
  | .adUuid128Incomplete len => hasTypeByte len
  | .adUuid128Complete len => hasTypeByte len
  | .adNameIncomplete len => hasTypeByte len
  | .adNameComplete len => hasTypeByte len
  | .adTxPower len => hasTypeByte len
  | .adClassOfDevice len => hasTypeByte len
  | .adPeriphConnItvlRange len => hasTypeByte len
  | .adSvcDataUuid16 len => hasTypeByte len
  | .adPublicTargetAddr len => hasTypeByte len
  | .adAppearance len => hasTypeByte len
  | .adAdvInterval len => hasTypeByte len
  | .adLeDeviceAddr len => hasTypeByte len
  | .adLeRole len => hasTypeByte len
  | .adSvcDataUuid32 len => hasTypeByte len
  | .adSvcDataUuid128 len => hasTypeByte len
  | .adUri len => hasTypeByte len
  | .adMfgData len => hasTypeByte len
  | .adUnrecognised len t => hasTypeByte len && !definedTypeCodes.contains t

end Sys2Proof
end

