-- ==== Sys2Proof/Decode.lean ====
section
/-! DEFINITION. The decoder and the encoder of the two encodings of 30_encoding.md: command words
(R110 to R116) and record headers (R120 to R128). -/

namespace Sys2Proof

/-- Bits [7:0], `OP` (30_encoding.md R110). -/
def cmdOp (w : Word) : Byte := w.extractLsb' 0 8

/-- Bits [15:8], `A`. -/
def cmdA (w : Word) : Byte := w.extractLsb' 8 8

/-- Bits [23:16], `B`. -/
def cmdB (w : Word) : Byte := w.extractLsb' 16 8

/-- Bits [31:24], `C`. -/
def cmdC (w : Word) : Byte := w.extractLsb' 24 8

/-- `OP | A << 8 | B << 16 | C << 24` (30_encoding.md R116), as the bit concatenation of the fields. -/
def cmdWord (op a b c : Byte) : Word := c ++ b ++ a ++ op

/-- The command a word stands for (30_encoding.md R111): total, since every opcode outside the table is
reserved and executes as such (R114). Operands a command does not use, and `C[7:1]` of PU16 and
PU32, are ignored (R113). -/
def decodeCommand (w : Word) : Instr :=
  match cmdOp w with
  | 0x00 => .nop
  | 0x01 => .hdr (cmdA w) (cmdB w)
  | 0x02 => .flat (cmdA w) (cmdB w) (cmdC w)
  | 0x03 => .arr16 (cmdA w) (cmdB w)
  | 0x04 => .arr32 (cmdA w) (cmdB w)
  | 0x08 => .encode
  | 0x10 => .pu16 (cmdA w) (cmdB w) ((cmdC w).getLsbD 0)
  | 0x11 => .pu32 (cmdA w) (cmdB w) ((cmdC w).getLsbD 0)
  | 0x12 => .dec1 (cmdA w) (cmdB w)
  | 0x18 => .decode
  | 0x20 => .fsclr
  | op => .reserved op

/-- The record that a length byte and a type byte begin (30_encoding.md R125, R126): total, since a code
outside the table is unrecognised and is skipped. -/
def decodeHeader (len t : Byte) : Instr :=
  match t with
  | 0x01 => .adFlags len
  | 0x02 => .adUuid16Incomplete len
  | 0x03 => .adUuid16Complete len
  | 0x04 => .adUuid32Incomplete len
  | 0x05 => .adUuid32Complete len
  | 0x06 => .adUuid128Incomplete len
  | 0x07 => .adUuid128Complete len
  | 0x08 => .adNameIncomplete len
  | 0x09 => .adNameComplete len
  | 0x0A => .adTxPower len
  | 0x0D => .adClassOfDevice len
  | 0x12 => .adPeriphConnItvlRange len
  | 0x16 => .adSvcDataUuid16 len
  | 0x17 => .adPublicTargetAddr len
  | 0x19 => .adAppearance len
  | 0x1A => .adAdvInterval len
  | 0x1B => .adLeDeviceAddr len
  | 0x1C => .adLeRole len
  | 0x20 => .adSvcDataUuid32 len
  | 0x21 => .adSvcDataUuid128 len
  | 0x24 => .adUri len
  | 0xFF => .adMfgData len
  | t => .adUnrecognised len t

/-- Why a byte sequence begins no record. -/
inductive DecodeError where
  /-- There is no byte at all: no length byte. Safe: nothing is decoded. -/
  | noLengthByte
  /-- There is a length byte and nothing after it: no type byte. Safe: nothing is decoded. -/
  | noTypeByte
  deriving DecidableEq, Repr

/-- The record a byte sequence begins, from its first two bytes (30_encoding.md R120). What the length
byte 0 does, and a record longer than its window, is the record decoder's matter (41_decode.md R210). -/
def decodeRecord : List Byte → Except DecodeError Instr
  | [] => .error .noLengthByte
  | [_] => .error .noTypeByte
  | len :: t :: _ => .ok (decodeHeader len t)

/-- The decoder, total on both encodings. -/
def decode : Code → Except DecodeError Instr
  | .command w => .ok (decodeCommand w)
  | .record bytes => decodeRecord bytes

/-- The encoding of an instruction: a command word with its unused operands 0 (30_encoding.md R116), or
a record's header bytes (R120). -/
def encode : Instr → Code
  | .nop => .command (cmdWord 0x00 0 0 0)
  | .hdr t n => .command (cmdWord 0x01 t n 0)
  | .flat t n off => .command (cmdWord 0x02 t n off)
  | .arr16 t cnt => .command (cmdWord 0x03 t cnt 0)
  | .arr32 t cnt => .command (cmdWord 0x04 t cnt 0)
  | .encode => .command (cmdWord 0x08 0 0 0)
  | .pu16 off n c => .command (cmdWord 0x10 off n (if c then 1 else 0))
  | .pu32 off n c => .command (cmdWord 0x11 off n (if c then 1 else 0))
  | .dec1 p r => .command (cmdWord 0x12 p r 0)
  | .decode => .command (cmdWord 0x18 0 0 0)
  | .fsclr => .command (cmdWord 0x20 0 0 0)
  | .reserved op => .command (cmdWord op 0 0 0)
  | .adFlags len => .record [len, 0x01]
  | .adUuid16Incomplete len => .record [len, 0x02]
  | .adUuid16Complete len => .record [len, 0x03]
  | .adUuid32Incomplete len => .record [len, 0x04]
  | .adUuid32Complete len => .record [len, 0x05]
  | .adUuid128Incomplete len => .record [len, 0x06]
  | .adUuid128Complete len => .record [len, 0x07]
  | .adNameIncomplete len => .record [len, 0x08]
  | .adNameComplete len => .record [len, 0x09]
  | .adTxPower len => .record [len, 0x0A]
  | .adClassOfDevice len => .record [len, 0x0D]
  | .adPeriphConnItvlRange len => .record [len, 0x12]
  | .adSvcDataUuid16 len => .record [len, 0x16]
  | .adPublicTargetAddr len => .record [len, 0x17]
  | .adAppearance len => .record [len, 0x19]
  | .adAdvInterval len => .record [len, 0x1A]
  | .adLeDeviceAddr len => .record [len, 0x1B]
  | .adLeRole len => .record [len, 0x1C]
  | .adSvcDataUuid32 len => .record [len, 0x20]
  | .adSvcDataUuid128 len => .record [len, 0x21]
  | .adUri len => .record [len, 0x24]
  | .adMfgData len => .record [len, 0xFF]
  | .adUnrecognised len t => .record [len, t]

/-- Whether the table gives a row of `nbits` bits as a record header: the record rows of
spec/opcode_table.json are the 16-bit value `L | T << 8`; every other row is a command word. DESIGN
CHOICE, log entry 7. -/
def isRecordRow (nbits : Nat) : Bool := nbits == 16

/-- The length and the type byte of a record row's bits (`L` in [7:0], `T` in [15:8]). -/
def tableHeader (w : Nat) : Byte × Byte := (BitVec.ofNat 8 w, BitVec.ofNat 8 (w / 256))

/-- The word of a command row's bits. -/
def tableCommand (w : Nat) : Word := BitVec.ofNat 32 w

/-- What the decoder reads from an instruction whose bits are `w`, numbered as spec/opcode_table.json
numbers them. -/
def decodeTableWord (nbits w : Nat) : Option Instr :=
  let code : Code :=
    if isRecordRow nbits then .record [(tableHeader w).1, (tableHeader w).2]
    else .command (tableCommand w)
  match decode code with
  | .ok i => some i
  | .error _ => none

end Sys2Proof
end

