-- ==== Sys2Proof/Config.lean ====
section
/-! DEFINITION. The parameters of 00_scope.md R5, which the model takes as data, and the free values
of R14. -/

namespace Sys2Proof

/-- What the field set holds after a failed DECODE (`PARTIAL_FS`, 00_scope.md R5, 41_decode.md R242). -/
inductive PartialFs where
  | havoc
  | prefixKept
  deriving DecidableEq, Repr

/-- The implementation parameters of 00_scope.md R5, and `BASE` of 10_state.md R32. They are fixed for
a given block (10_state.md R31); the state carries them and no step changes them (log entry 1). -/
structure Config where
  /-- `ENCODE_SUPPORTED` -/
  encodeSupported : Bool
  /-- `MAX_FIELD_SZ` -/
  maxFieldSz : Nat
  /-- `DEVCLS_LEN` -/
  devclsLen : Nat
  /-- `ITVL_RANGE_LEN` -/
  itvlRangeLen : Nat
  /-- `LE_ADDR_LEN` -/
  leAddrLen : Nat
  /-- `TX_PWR_AUTO`, an s8, as its two's-complement byte (00_scope.md R17). -/
  txPwrAuto : Byte
  /-- `PARTIAL_FS` -/
  partialFs : PartialFs
  /-- `BASE`: where the 8 KiB window sits in the host's address space. -/
  base : Nat
  deriving DecidableEq, Repr

/-- The defaults of 00_scope.md R5 (G1 to G5 of 93_implementation_defined.md). PRESUMED by the spec
itself, log entry 2; `base` has no default there: 0 is a DESIGN CHOICE, log entry 2. -/
def Config.default : Config where
  encodeSupported := true
  maxFieldSz := 29
  devclsLen := 3
  itvlRangeLen := 4
  leAddrLen := 7
  txPwrAuto := 0x80
  partialFs := .havoc
  base := 0

/-- The parameters have legal values (00_scope.md R5, column "legal values"). -/
abbrev Config.legal (c : Config) : Prop :=
  c.maxFieldSz ≤ 253 ∧ (1 ≤ c.devclsLen ∧ c.devclsLen ≤ 4) ∧
    (1 ≤ c.itvlRangeLen ∧ c.itvlRangeLen ≤ 4) ∧ (1 ≤ c.leAddrLen ∧ c.leAddrLen ≤ 8)

/-- FREE VALUE (log entry 5). The `n`-th `draw` of 00_scope.md R14: a field-set register after a failed
DECODE (41_decode.md R242) or a read while busy (20_memory.md R99). It has no body, so nothing can be
proved of its value. -/
opaque Config.draw : Nat → Word

/-- FREE VALUE (log entry 4). What a byte of SRC or DST that nothing has written since the `epoch`-th
reset reads as, by window offset: "each byte a `draw`" (10_state.md R58, R59). -/
opaque Config.memDraw : Nat → Nat → Byte

/-- `SRC_SIZE` and `DST_SIZE` (00_scope.md R5). -/
def Config.memSize : Nat := 256

/-- `U16_CAP` (00_scope.md R5, 10_state.md R57). -/
def Config.u16Cap : Nat := 127

/-- `U32_CAP` (00_scope.md R5, 10_state.md R57). -/
def Config.u32Cap : Nat := 63

end Sys2Proof
end

