-- ==== Sys2Proof/Machine/State.lean ====
section
/-! DEFINITION. The state of the block (10_state.md), why a step can stop, and the state after reset. -/

namespace Sys2Proof.Machine

/-- Why the machine can stop with a fault. No instruction raises one: the block reports every error as
a result code (60_exceptions.md R280). -/
inductive Fault where
  /-- Raised by a host access whose address lies outside the 8 KiB window at BASE (10_state.md R32): the
  block has no such address. Safe: the model stops where the platform would go on elsewhere. -/
  | outsideWindow (addr : Nat)
  deriving DecidableEq, Repr

/-- The width of a host access, in bits: 8, 16 or 32 (20_memory.md R86, R87). -/
inductive Width where
  | w8
  | w16
  | w32
  deriving DecidableEq, Repr

/-- Why the machine can refuse. -/
inductive Refusal where
  /-- Raised by an arm of exec whose instruction has no meaning yet. Safe. No arm raises it now. -/
  | notModelled (mnemonic : String)
  /-- Raised by a host access of a width or alignment the bus does not admit: "the model refuses the
  host program that makes it" (20_memory.md R86, R87; 93_implementation_defined.md U10). Safe. -/
  | inadmissibleAccess (off : Nat) (width : Width)
  deriving DecidableEq, Repr

/-- `ENG_STATE` (10_state.md R60). -/
inductive EngState where
  | idle
  | exec
  | waitTxp
  deriving DecidableEq, Repr

/-- A view register: `OFF`, an offset into SRC, and `N`, a length or a count (10_state.md R49). -/
structure View where
  off : Byte
  n : Byte
  deriving DecidableEq, Repr

/-- The field-set register file (10_state.md sections 3 and 4). Reserved bits have no storage: they read
0 and ignore writes (R32). -/
structure FieldSet where
  /-- `FS_PRESENT`, bit `k` is `P[k]` (R44). -/
  present : BitVec 18
  /-- `FS_COMPLETE`: bit 0 `U16`, 1 `U32`, 2 `U128`, 3 `NAME` (R45). -/
  complete : BitVec 4
  /-- `FS_SCALAR.FLAGS` (R46). -/
  flags : Byte
  /-- `FS_SCALAR.TXP`, an s8 (R46). -/
  txp : Byte
  /-- `FS_SCALAR.LEROLE` (R46). -/
  lerole : Byte
  /-- `FS_WORD.APPEAR` (R47). -/
  appear : Half
  /-- `FS_WORD.ADVITVL` (R47). -/
  advItvl : Half
  /-- `FS_COUNT.U16_COUNT` (R48). -/
  u16Count : Byte
  /-- `FS_COUNT.U32_COUNT` (R48). -/
  u32Count : Byte
  /-- `FS_U128` (R49). -/
  u128 : View
  /-- `FS_NAME` (R49). -/
  name : View
  /-- `FS_SD16` (R49). -/
  sd16 : View
  /-- `FS_PTA` (R49). -/
  pta : View
  /-- `FS_SD32` (R49). -/
  sd32 : View
  /-- `FS_SD128` (R49). -/
  sd128 : View
  /-- `FS_URI` (R49). -/
  uri : View
  /-- `FS_MFG` (R49). -/
  mfg : View
  /-- `FS_DEVCLS` (R51). -/
  devcls : Word
  /-- `FS_ITVL` (R52). -/
  itvl : Word
  /-- `FS_LEADDR0` (R53). -/
  leaddr0 : Word
  /-- `FS_LEADDR1` (R53). -/
  leaddr1 : Word
  /-- `U16[0..126]` (R55). -/
  u16 : Vector Half 127
  /-- `U32[0..62]` (R56). -/
  u32 : Vector Word 63
  deriving DecidableEq, Repr

/-- The view of a zeroed view register. -/
def View.zero : View := ⟨0, 0⟩

/-- Every field-set register 0: "zero-initialize a fresh Field Set" (42_control.md R261). -/
def FieldSet.zero : FieldSet where
  present := 0
  complete := 0
  flags := 0
  txp := 0
  lerole := 0
  appear := 0
  advItvl := 0
  u16Count := 0
  u32Count := 0
  u128 := .zero
  name := .zero
  sd16 := .zero
  pta := .zero
  sd32 := .zero
  sd128 := .zero
  uri := .zero
  mfg := .zero
  devcls := 0
  itvl := 0
  leaddr0 := 0
  leaddr1 := 0
  u16 := Vector.replicate 127 0
  u32 := Vector.replicate 63 0

/-- The collaborator's input signals (60_exceptions.md R300): `txp_rsp_valid`, `txp_rsp_ok`,
`txp_rsp_val` (an s8, as its byte) and `txp_rsp_err`. -/
structure TxpPort where
  valid : Bool
  ok : Bool
  val : Byte
  err : Word
  deriving DecidableEq, Repr

/-- One move of the environment, or the engine's turn (20_memory.md R97). The MODEL's own, log entry 3. -/
inductive Event where
  /-- The engine has its turn. -/
  | engine
  /-- The host writes `data` at an absolute address; an 8-bit write moves bits [7:0]. -/
  | hostWrite (addr : Nat) (width : Width) (data : Word)
  /-- The host reads at an absolute address. -/
  | hostRead (addr : Nat) (width : Width)
  /-- The host's `POLL` (30_encoding.md R117): it reads STATUS until `BUSY` reads 0. -/
  | hostPoll
  /-- The collaborator drives its signals. -/
  | txpDrive (port : TxpPort)
  /-- The platform's reset input (70_reset_and_hazards.md R320). -/
  | reset
  deriving DecidableEq, Repr

/-- What a host read returned. The MODEL's own, log entry 3. -/
structure BusRead where
  addr : Nat
  data : Word
  deriving DecidableEq, Repr

/-- SRC and DST as (window offset, byte) pairs: SRC at 0x1000, DST at 0x1100 (10_state.md R32). An
unlisted offset has no recorded value. -/
abbrev Memory := List Host.Cell

/-- The canonical form: offsets strictly rising. An unlisted offset has no recorded value, so no entry
can repeat one (log entry 4). -/
abbrev Memory.wf (m : Memory) : Prop := m.Pairwise (fun x y => x.1 < y.1)

/-- The state of the block and of its environment. -/
structure State where
  /-- The parameters of 00_scope.md R5: constant (log entry 1). -/
  cfg : Config
  /-- `RESULT` (10_state.md R35). -/
  result : Word
  /-- `STATUS.ERR_SRC` (R34). -/
  errSrc : Bool
  /-- `MAX_LEN` (R38). -/
  maxLen : Byte
  /-- `OUT_LEN` (R39). -/
  outLen : Byte
  /-- `IN_LEN` (R40). -/
  inLen : Byte
  /-- `CONSUMED` (R41). -/
  consumed : Byte
  /-- `DEC_POS` (R42). -/
  decPos : Byte
  /-- The field set (sections 3 and 4). -/
  fs : FieldSet
  /-- SRC and DST (R58, R59). -/
  mem : Memory
  /-- `ENG_STATE` (R60). -/
  engState : EngState
  /-- `LATCH` (R61). -/
  latch : Word
  /-- `ENC_K`, 0 to 18 (R62). -/
  encK : Nat
  /-- The collaborator's signals (60_exceptions.md R300). -/
  txp : TxpPort
  /-- The MODEL's: the coming moves of the environment, first one first (log entry 3). -/
  agenda : List Event
  /-- The MODEL's: what the host's reads returned, newest first (log entry 3). -/
  busReads : List BusRead
  /-- The MODEL's: how many draws have been taken (log entry 5). -/
  draws : Nat
  /-- The MODEL's: how many resets have happened since power-on (log entry 4). -/
  epoch : Nat
  deriving DecidableEq, Repr

/-- The state after reset of a block with parameters `cfg` (10_state.md R66, 70_reset_and_hazards.md
R322), nothing of the environment pending. The signals of `txp` are a DESIGN CHOICE (log entry 6). -/
def State.resetOf (cfg : Config) : State where
  cfg := cfg
  result := 0
  errSrc := false
  maxLen := 0
  outLen := 0
  inLen := 0
  consumed := 0
  decPos := 0
  fs := .zero
  mem := []
  engState := .idle
  latch := 0
  encK := 0
  txp := ⟨false, false, 0, 0⟩
  agenda := []
  busReads := []
  draws := 0
  epoch := 0

/-- The machine right after reset, with the default parameters of 00_scope.md R5 (log entry 2). -/
def State.reset : State := State.resetOf Config.default

end Sys2Proof.Machine
end

