-- ==== Sys2Proof/Machine/Operands.lean ====
section
/-! DEFINITION. Byte assembly, the operands in the latched command word, and the operand forms of the
field set: list entries, fixed blobs and views (00_scope.md R10, 10_state.md R49 to R57). -/

namespace Sys2Proof.Machine

/-- `le16` (00_scope.md R10): the first byte is the low one. -/
def le16 (b0 b1 : Byte) : Half := b1 ++ b0

/-- `le32` (00_scope.md R10). -/
def le32 (b0 b1 b2 b3 : Byte) : Word := b3 ++ b2 ++ b1 ++ b0

/-- `v[7:0], v[15:8]` (00_scope.md R10). -/
def halfBytes (v : Half) : List Byte := [v.extractLsb' 0 8, v.extractLsb' 8 8]

/-- Byte `j` of a register: bits [8j+7:8j] (10_state.md R51). -/
def wordByte (v : Word) (j : Nat) : Byte := v.extractLsb' (8 * j) 8

/-- `v[7:0], v[15:8], v[23:16], v[31:24]` (00_scope.md R10). -/
def wordBytes (v : Word) : List Byte := [wordByte v 0, wordByte v 1, wordByte v 2, wordByte v 3]

/-- Operand `A` of the latched command word (42_control.md R263). -/
def State.latchA (s : State) : Nat := (cmdA s.latch).toNat

/-- Operand `B` of the latched command word. -/
def State.latchB (s : State) : Nat := (cmdB s.latch).toNat

/-- `U16[i]`; no rule reads beyond entry 126 (10_state.md R57). -/
def FieldSet.u16At (fs : FieldSet) (i : Nat) : Half := (fs.u16[i]?).getD 0

/-- `U32[i]`; no rule reads beyond entry 62 (10_state.md R57). -/
def FieldSet.u32At (fs : FieldSet) (i : Nat) : Word := (fs.u32[i]?).getD 0

/-- The first `cnt` entries of `U16`, serialised (40_encode.md R156). -/
def FieldSet.u16Bytes (fs : FieldSet) (cnt : Nat) : List Byte :=
  (List.range cnt).flatMap fun i => halfBytes (fs.u16At i)

/-- The first `cnt` entries of `U32`, serialised (40_encode.md R157). -/
def FieldSet.u32Bytes (fs : FieldSet) (cnt : Nat) : List Byte :=
  (List.range cnt).flatMap fun i => wordBytes (fs.u32At i)

/-- `devcls_bytes` (10_state.md R54). -/
def FieldSet.devclsBytes (fs : FieldSet) (len : Nat) : List Byte :=
  (List.range len).map (wordByte fs.devcls)

/-- `itvl_bytes` (10_state.md R54). -/
def FieldSet.itvlBytes (fs : FieldSet) (len : Nat) : List Byte :=
  (List.range len).map (wordByte fs.itvl)

/-- Byte `j` of the LE device address (10_state.md R53). -/
def FieldSet.leaddrByte (fs : FieldSet) (j : Nat) : Byte :=
  if j < 4 then wordByte fs.leaddr0 j else wordByte fs.leaddr1 (j - 4)

/-- `leaddr_bytes` (10_state.md R54). -/
def FieldSet.leaddrBytes (fs : FieldSet) (len : Nat) : List Byte :=
  (List.range len).map fs.leaddrByte

/-- A register whose bytes below `len` are replaced by those of `f` (41_decode.md R219, R220, R225):
the others are not written. -/
def blobWord (v : Word) (len : Nat) (f : Nat → Byte) : Word :=
  let pick (j : Nat) : Byte := if j < len then f j else wordByte v j
  le32 (pick 0) (pick 1) (pick 2) (pick 3)

/-- `vlen` of a view of `n` entries of `elem` bytes each (10_state.md R50). -/
def View.vlen (v : View) (elem : Nat) : Nat := elem * v.n.toNat

/-- The view the record decoder stores (41_decode.md R212): offset and count, below 256 (10_state.md R65). -/
def View.of (off n : Nat) : View := ⟨BitVec.ofNat 8 off, BitVec.ofNat 8 n⟩

/-- `U16[i] <- v`, for `i` below the capacity. -/
def setEntry16 (a : Vector Half 127) (i : Nat) (v : Half) : Vector Half 127 := a.setIfInBounds i v

/-- `U32[i] <- v`, for `i` below the capacity. -/
def setEntry32 (a : Vector Word 63) (i : Nat) (v : Word) : Vector Word 63 := a.setIfInBounds i v

/-- `for i in 0 .. cnt-1: U16[i] <- f i` (41_decode.md R200). -/
def fillEntries16 (a : Vector Half 127) (f : Nat → Half) : Nat → Vector Half 127
  | 0 => a
  | cnt + 1 => setEntry16 (fillEntries16 a f cnt) cnt (f cnt)

/-- `for i in 0 .. cnt-1: U32[i] <- f i` (41_decode.md R201). -/
def fillEntries32 (a : Vector Word 63) (f : Nat → Word) : Nat → Vector Word 63
  | 0 => a
  | cnt + 1 => setEntry32 (fillEntries32 a f cnt) cnt (f cnt)

end Sys2Proof.Machine
end

