-- ==== Sys2Proof/Machine/Flags.lean ====
section
/-! DEFINITION. The bits that play the part of flags (10_state.md R64): the presence bits, the
completeness bits and the fields of STATUS; and the field kinds of R43 that number them. -/

namespace Sys2Proof.Machine

/-- The 18 field kinds (10_state.md R43). -/
inductive Kind where
  | flags | uuid16 | uuid32 | uuid128 | name | txp | devcls | itvlRange | sd16 | pta
  | appear | advItvl | leaddr | lerole | sd32 | sd128 | uri | mfg
  deriving DecidableEq, Repr

/-- `k`, the kind's number and the place of its presence bit (10_state.md R43, R44). -/
def Kind.num : Kind → Nat
  | .flags => 0
  | .uuid16 => 1
  | .uuid32 => 2
  | .uuid128 => 3
  | .name => 4
  | .txp => 5
  | .devcls => 6
  | .itvlRange => 7
  | .sd16 => 8
  | .pta => 9
  | .appear => 10
  | .advItvl => 11
  | .leaddr => 12
  | .lerole => 13
  | .sd32 => 14
  | .sd128 => 15
  | .uri => 16
  | .mfg => 17

/-- The kinds 0 to 4, before the tx power. -/
def kindsBeforeTxp : List Kind := [.flags, .uuid16, .uuid32, .uuid128, .name]

/-- The kinds 6 to 17, after the tx power (40_encode.md R177). -/
def kindsAfterTxp : List Kind :=
  [.devcls, .itvlRange, .sd16, .pta, .appear, .advItvl, .leaddr, .lerole, .sd32, .sd128, .uri, .mfg]

/-- All kinds in ascending type-code order (40_encode.md R170). -/
def allKinds : List Kind := kindsBeforeTxp ++ .txp :: kindsAfterTxp

/-- `v` with bit `k` set to `b`. -/
def setBit {w : Nat} (v : BitVec w) (k : Nat) (b : Bool) : BitVec w :=
  if b then v ||| BitVec.twoPow w k else v &&& ~~~(BitVec.twoPow w k)

/-- `P[k]` (10_state.md R44). -/
def FieldSet.has (fs : FieldSet) (k : Kind) : Bool := fs.present.getLsbD k.num

/-- `P[k] <- 1`. -/
def FieldSet.mark (fs : FieldSet) (k : Kind) : FieldSet :=
  { fs with present := setBit fs.present k.num true }

/-- `FS_COMPLETE.U16` (10_state.md R45). -/
def FieldSet.u16Complete (fs : FieldSet) : Bool := fs.complete.getLsbD 0

/-- `FS_COMPLETE.U32`. -/
def FieldSet.u32Complete (fs : FieldSet) : Bool := fs.complete.getLsbD 1

/-- `FS_COMPLETE.U128`. -/
def FieldSet.u128Complete (fs : FieldSet) : Bool := fs.complete.getLsbD 2

/-- `FS_COMPLETE.NAME`. -/
def FieldSet.nameComplete (fs : FieldSet) : Bool := fs.complete.getLsbD 3

/-- `STATUS.BUSY` (10_state.md R34). -/
def State.busy (s : State) : Bool := s.engState != .idle

/-- `STATUS.WAIT_TXP` (10_state.md R34). -/
def State.waitTxp (s : State) : Bool := s.engState == .waitTxp

/-- `txp_req` (60_exceptions.md R300). -/
def State.txpReq (s : State) : Bool := s.engState == .waitTxp

/-- `STATUS`: bit 0 `BUSY`, bit 1 `WAIT_TXP`, bit 2 `ERR_SRC`, the others 0 (10_state.md R34). -/
def State.status (s : State) : Word :=
  0#29 ++ BitVec.ofBool s.errSrc ++ BitVec.ofBool s.waitTxp ++ BitVec.ofBool s.busy

/-- `hdr_fits(n)` (40_encode.md R150), on natural numbers (00_scope.md R9). -/
def State.hdrFits (s : State) (n : Nat) : Bool := s.outLen.toNat + 2 + n ≤ s.maxLen.toNat

end Sys2Proof.Machine
end

