-- ==== Sys2Proof/Machine/Ops.lean ====
section
/-! DEFINITION. The shared operations: memory, ending a command (the block's "trap entry", 60_exceptions.md
section 2), clearing and drawing the field set, and reset. -/

namespace Sys2Proof.Machine

/-- The recorded byte at a window offset, if any. -/
def Memory.get? : Memory → Nat → Option Byte
  | [], _ => none
  | (k, b) :: m, a => if a = k then some b else Memory.get? m a

/-- A memory with byte `b` at offset `a`, in canonical form. -/
def Memory.set : Memory → Nat → Byte → Memory
  | [], a, b => [(a, b)]
  | (k, c) :: m, a, b =>
    if a < k then (a, b) :: (k, c) :: m
    else if a = k then (a, b) :: m
    else (k, c) :: Memory.set m a b

/-- A memory with successive bytes from offset `a` on. -/
def Memory.setBytes : Memory → Nat → List Byte → Memory
  | m, _, [] => m
  | m, a, b :: bs => Memory.setBytes (Memory.set m a b) (a + 1) bs

/-- The window offset of `SRC[0]` (10_state.md R58). -/
def srcBase : Nat := 0x1000

/-- The window offset of `DST[0]` (10_state.md R59). -/
def dstBase : Nat := 0x1100

/-- The byte at a window offset: what was last written, or a draw of this reset (10_state.md R58, R59,
log entry 4). -/
def State.readByte (s : State) (a : Nat) : Byte :=
  match s.mem.get? a with
  | some b => b
  | none => Config.memDraw s.epoch a

/-- `SRC[a]` (00_scope.md R12). -/
def State.src (s : State) (a : Nat) : Byte := s.readByte (srcBase + a)

/-- `DST[a]`. -/
def State.dst (s : State) (a : Nat) : Byte := s.readByte (dstBase + a)

/-- `MemRead(SRC, a, n)` (00_scope.md R12). -/
def State.srcBytes (s : State) (a n : Nat) : List Byte := (List.range n).map fun i => s.src (a + i)

/-- `MemWrite(DST, a, n, bs)` (00_scope.md R12). -/
def State.writeDst (s : State) (a : Nat) (bs : List Byte) : State :=
  { s with mem := s.mem.setBytes (dstBase + a) bs }

/-- `ENC_K <- k` (10_state.md R62). -/
def State.setEncK (s : State) (k : Nat) : State := { s with encK := k }

/-- `ENG_STATE <- e` (10_state.md R60). -/
def State.setEngState (s : State) (e : EngState) : State := { s with engState := e }

/-- `OUT_LEN <- n`, for `n` below 256 (10_state.md R39, R65). -/
def State.setOutLen (s : State) (n : Nat) : State := { s with outLen := BitVec.ofNat 8 n }

/-- `CONSUMED <- n`, for `n` below 256 (10_state.md R41, R65). -/
def State.setConsumed (s : State) (n : Nat) : State := { s with consumed := BitVec.ofNat 8 n }

/-- `DEC_POS <- p`, for `p` below 256 (10_state.md R42, R65). -/
def State.setDecPos (s : State) (p : Nat) : State := { s with decPos := BitVec.ofNat 8 p }

/-- The state with the field set `fs`. -/
def State.setFs (s : State) (fs : FieldSet) : State := { s with fs := fs }

/-- What a command can raise (60_exceptions.md R281). -/
inductive Err where
  | msgSize
  | notSup
  | badData
  | range
  | illegal
  /-- `COLLAB(e)`: the collaborator's failure value, verbatim (R291). -/
  | collab (e : Word)
  deriving DecidableEq, Repr

/-- The value of a result code (60_exceptions.md R281). -/
def Err.value : Err → Word
  | .msgSize => 0x00000004
  | .notSup => 0x00000008
  | .badData => 0x0000000A
  | .range => 0x00000080
  | .illegal => 0x00000081
  | .collab e => e

/-- Whether `STATUS.ERR_SRC` tells the collaborator's value (60_exceptions.md R290, R291). -/
def Err.fromCollab : Err → Bool
  | .collab _ => true
  | _ => false

/-- The completion rule of a command that ended normally (60_exceptions.md R290). Nothing was saved on
the way in, so nothing is restored (R294). -/
def State.complete (s : State) : State :=
  { s with result := 0, errSrc := false, engState := .idle }

/-- `raise E`: the command ends with result code `E` (00_scope.md R13, 60_exceptions.md R290 and R291).
This is all an error does: it transfers no control and saves nothing (R293, R294). -/
def State.raise (s : State) (e : Err) : State :=
  { s with result := e.value, errSrc := e.fromCollab, engState := .idle }

/-- How the body of a command ends: normally, by a raise (the writes made before it stand, 00_scope.md
R13), or suspended at the tx-power query (40_encode.md R177). -/
inductive Ending where
  | ok (s : State)
  | raised (e : Err) (s : State)
  | suspended (s : State)
  deriving DecidableEq, Repr

/-- The end of an engine step (42_control.md R263): the completion rule, or none when suspended. -/
def Ending.finish : Ending → State
  | .ok s => s.complete
  | .raised e s => s.raise e
  | .suspended s => s

/-- A part of a command that makes all its checks before its first write: on a raise the state is the
one it started from (00_scope.md R13). -/
def endAtomic (s : State) : Except Err State → Ending
  | .ok s' => .ok s'
  | .error e => .raised e s

/-- `fs_clear()` (42_control.md R261). -/
def State.fsClear (s : State) : State := s.setFs .zero

/-- How many draws a drawn field set takes: 17 registers, 127 and 63 entries. -/
def fieldSetDraws : Nat := 207

/-- The view register whose 32 bits are `w`; its reserved bits are dropped (10_state.md R49). -/
def View.ofWord (w : Word) : View := ⟨wordByte w 0, wordByte w 1⟩

/-- The field set every register of which holds a draw, the first one the `d`-th; reserved bits still
read 0 (41_decode.md R242). -/
def FieldSet.drawn (d : Nat) : FieldSet where
  present := (Config.draw d).setWidth 18
  complete := (Config.draw (d + 1)).setWidth 4
  flags := wordByte (Config.draw (d + 2)) 0
  txp := wordByte (Config.draw (d + 2)) 1
  lerole := wordByte (Config.draw (d + 2)) 2
  appear := (Config.draw (d + 3)).extractLsb' 0 16
  advItvl := (Config.draw (d + 3)).extractLsb' 16 16
  u16Count := wordByte (Config.draw (d + 4)) 0
  u32Count := wordByte (Config.draw (d + 4)) 1
  u128 := .ofWord (Config.draw (d + 5))
  name := .ofWord (Config.draw (d + 6))
  sd16 := .ofWord (Config.draw (d + 7))
  pta := .ofWord (Config.draw (d + 8))
  sd32 := .ofWord (Config.draw (d + 9))
  sd128 := .ofWord (Config.draw (d + 10))
  uri := .ofWord (Config.draw (d + 11))
  mfg := .ofWord (Config.draw (d + 12))
  devcls := Config.draw (d + 13)
  itvl := Config.draw (d + 14)
  leaddr0 := Config.draw (d + 15)
  leaddr1 := Config.draw (d + 16)
  u16 := Vector.ofFn fun i : Fin 127 => (Config.draw (d + 17 + i.val)).setWidth 16
  u32 := Vector.ofFn fun i : Fin 63 => Config.draw (d + 144 + i.val)

/-- The field set after a failed DECODE under `PARTIAL_FS` (41_decode.md R242): draws under `havoc`; under
`prefix` what the records before the failing one left. -/
def State.partialFieldSet (s : State) : State :=
  match s.cfg.partialFs with
  | .havoc => { s with fs := .drawn s.draws, draws := s.draws + fieldSetDraws }
  | .prefixKept => s

/-- The reset input (70_reset_and_hazards.md R320, R321): every piece of the block's state at its reset
value; a running command and a pending query are abandoned. What belongs to the outside stays: the
parameters, the collaborator's signals, the coming events and the host's record. SRC and DST are
unspecified anew (R322), so unlisted bytes are the draws of the next epoch. -/
def State.hardReset (s : State) : State :=
  { State.resetOf s.cfg with
    txp := s.txp, agenda := s.agenda, busReads := s.busReads, draws := s.draws,
    epoch := s.epoch + 1 }

end Sys2Proof.Machine
end

