-- ==== Sys2Proof/Machine/Control.lean ====
section
/-! DEFINITION. The control commands: NOP, FSCLR and the reserved opcodes (42_control.md). -/

namespace Sys2Proof.Machine

/-- NOP (42_control.md R260). -/
def execNop (s : State) : Host.Outcome State Fault Refusal := .next s.complete

/-- FSCLR (42_control.md R261). -/
def execFsclr (s : State) : Host.Outcome State Fault Refusal := .next s.fsClear.complete

/-- A reserved opcode: "executes as `raise E_ILLEGAL()`, with no other effect" (42_control.md R262). -/
def execReserved (_op : Byte) (s : State) : Host.Outcome State Fault Refusal :=
  .next (s.raise .illegal)

end Sys2Proof.Machine
end

