-- ==== Sys2Proof/Machine/Records.lean ====
section
/-! DEFINITION. The TLV record decoder (41_decode.md section 2): its checks, the rule of each type code,
and each record of the opcode table as an instruction. -/

namespace Sys2Proof.Machine

/-- `pu16(off, n, c)` (41_decode.md R200). -/
def decodeUuid16 (off n : Nat) (c : Bool) (s : State) : Except Err State :=
  if n % 2 = 0 then
    .ok (s.setFs ({ s.fs with
      u16 := fillEntries16 s.fs.u16
        (fun i => le16 (s.src (off + 2 * i)) (s.src (off + 2 * i + 1))) (n / 2)
      u16Count := BitVec.ofNat 8 (n / 2)
      complete := setBit s.fs.complete 0 c }.mark .uuid16))
  else .error .badData

/-- `pu32(off, n, c)` (41_decode.md R201). -/
def decodeUuid32 (off n : Nat) (c : Bool) (s : State) : Except Err State :=
  if n % 4 = 0 then
    .ok (s.setFs ({ s.fs with
      u32 := fillEntries32 s.fs.u32
        (fun i => le32 (s.src (off + 4 * i)) (s.src (off + 4 * i + 1)) (s.src (off + 4 * i + 2))
          (s.src (off + 4 * i + 3))) (n / 4)
      u32Count := BitVec.ofNat 8 (n / 4)
      complete := setBit s.fs.complete 1 c }.mark .uuid32))
  else .error .badData

/-- A length check, then a write of the kind's own registers and its presence bit: the discipline of
every per-type rule (41_decode.md R212). -/
def fieldIf (good : Bool) (k : Kind) (fs : FieldSet) (s : State) : Except Err State :=
  if good then .ok (s.setFs (fs.mark k)) else .error .badData

/-- Type 0x01 (41_decode.md R213). -/
def ruleFlags (off n : Nat) (s : State) : Except Err State :=
  fieldIf (n == 1) .flags { s.fs with flags := s.src off } s

/-- Types 0x02 and 0x03 (R214). -/
def ruleUuid16 (c : Bool) (off n : Nat) (s : State) : Except Err State := decodeUuid16 off n c s

/-- Types 0x04 and 0x05 (R215). -/
def ruleUuid32 (c : Bool) (off n : Nat) (s : State) : Except Err State := decodeUuid32 off n c s

/-- Types 0x06 and 0x07 (R216). -/
def ruleUuid128 (c : Bool) (off n : Nat) (s : State) : Except Err State :=
  fieldIf (n % 16 == 0) .uuid128
    { s.fs with u128 := .of off (n / 16), complete := setBit s.fs.complete 2 c } s

/-- Types 0x08 and 0x09 (R217). -/
def ruleName (c : Bool) (off n : Nat) (s : State) : Except Err State :=
  fieldIf true .name { s.fs with name := .of off n, complete := setBit s.fs.complete 3 c } s

/-- Type 0x0A (R218). -/
def ruleTxPower (off n : Nat) (s : State) : Except Err State :=
  fieldIf (n == 1) .txp { s.fs with txp := s.src off } s

/-- Type 0x0D (R219). -/
def ruleClassOfDevice (off n : Nat) (s : State) : Except Err State :=
  fieldIf (n == s.cfg.devclsLen) .devcls
    { s.fs with devcls := blobWord s.fs.devcls s.cfg.devclsLen fun j => s.src (off + j) } s

/-- Type 0x12 (R220). -/
def ruleItvlRange (off n : Nat) (s : State) : Except Err State :=
  fieldIf (n == s.cfg.itvlRangeLen) .itvlRange
    { s.fs with itvl := blobWord s.fs.itvl s.cfg.itvlRangeLen fun j => s.src (off + j) } s

/-- Type 0x16 (R221). -/
def ruleSvcData16 (off n : Nat) (s : State) : Except Err State :=
  fieldIf (2 ≤ n) .sd16 { s.fs with sd16 := .of off n } s

/-- Type 0x17 (R222). -/
def rulePublicTarget (off n : Nat) (s : State) : Except Err State :=
  fieldIf (n % 6 == 0) .pta { s.fs with pta := .of off (n / 6) } s

/-- Type 0x19 (R223). -/
def ruleAppearance (off n : Nat) (s : State) : Except Err State :=
  fieldIf (n == 2) .appear { s.fs with appear := le16 (s.src off) (s.src (off + 1)) } s

/-- Type 0x1A (R224). -/
def ruleAdvInterval (off n : Nat) (s : State) : Except Err State :=
  fieldIf (n == 2) .advItvl { s.fs with advItvl := le16 (s.src off) (s.src (off + 1)) } s

/-- Type 0x1B (R225). -/
def ruleLeDeviceAddr (off n : Nat) (s : State) : Except Err State :=
  fieldIf (n == s.cfg.leAddrLen) .leaddr
    { s.fs with
      leaddr0 := blobWord s.fs.leaddr0 s.cfg.leAddrLen fun j => s.src (off + j)
      leaddr1 := blobWord s.fs.leaddr1 (s.cfg.leAddrLen - 4) fun j => s.src (off + (4 + j)) } s

/-- Type 0x1C (R226). -/
def ruleLeRole (off n : Nat) (s : State) : Except Err State :=
  fieldIf (n == 1) .lerole { s.fs with lerole := s.src off } s

/-- Type 0x20 (R227). -/
def ruleSvcData32 (off n : Nat) (s : State) : Except Err State :=
  fieldIf (4 ≤ n) .sd32 { s.fs with sd32 := .of off n } s

/-- Type 0x21 (R228). -/
def ruleSvcData128 (off n : Nat) (s : State) : Except Err State :=
  fieldIf (16 ≤ n) .sd128 { s.fs with sd128 := .of off n } s

/-- Type 0x24 (R229). -/
def ruleUri (off n : Nat) (s : State) : Except Err State :=
  fieldIf true .uri { s.fs with uri := .of off n } s

/-- Type 0xFF (R230). -/
def ruleMfgData (off n : Nat) (s : State) : Except Err State :=
  fieldIf true .mfg { s.fs with mfg := .of off n } s

/-- Every other type code (R231): "the record is silently skipped". -/
def ruleSkip (_off _n : Nat) (s : State) : Except Err State := .ok s

/-- `dispatch(t, off, n)` (41_decode.md R210 step 5, 30_encoding.md R125 and R126). -/
def dispatch (t : Byte) : Nat → Nat → State → Except Err State :=
  match t with
  | 0x01 => ruleFlags
  | 0x02 => ruleUuid16 false
  | 0x03 => ruleUuid16 true
  | 0x04 => ruleUuid32 false
  | 0x05 => ruleUuid32 true
  | 0x06 => ruleUuid128 false
  | 0x07 => ruleUuid128 true
  | 0x08 => ruleName false
  | 0x09 => ruleName true
  | 0x0A => ruleTxPower
  | 0x0D => ruleClassOfDevice
  | 0x12 => ruleItvlRange
  | 0x16 => ruleSvcData16
  | 0x17 => rulePublicTarget
  | 0x19 => ruleAppearance
  | 0x1A => ruleAdvInterval
  | 0x1B => ruleLeDeviceAddr
  | 0x1C => ruleLeRole
  | 0x20 => ruleSvcData32
  | 0x21 => ruleSvcData128
  | 0x24 => ruleUri
  | 0xFF => ruleMfgData
  | _ => ruleSkip

/-- The record decoder from step 2 on, for a record at `p` whose length byte is `len` within `r` bytes, with
the rule of its type code (41_decode.md R210): truncation, `L = 0`, the field-size cap, the rule. -/
def decodeLengthed (len : Byte) (rule : Nat → Nat → State → Except Err State) (p r : Nat)
    (s : State) : Except Err State :=
  if r < len.toNat + 1 then .error .msgSize
  else if len.toNat = 0 then .error .badData
  else if s.cfg.maxFieldSz < len.toNat - 1 then .error .badData
  else rule ((p + 2) % 256) (len.toNat - 1) s

/-- `dec_one(p, r)` (41_decode.md R210). The type byte is looked at only after the truncation and `L = 0`
checks have passed (R211). The record's size is `recordSize`. -/
def decodeOne (p r : Nat) (s : State) : Except Err State :=
  if r < 1 then .error .msgSize
  else decodeLengthed (s.src p) (fun off n s' => dispatch (s.src (p + 1)) off n s') p r s

/-- `size` of the record at `p`: `L + 1` (41_decode.md R210 step 1). -/
def State.recordSize (s : State) (p : Nat) : Nat := (s.src p).toNat + 1

/-- DEC1 around a record decoder `dec` that reports `size` (41_decode.md R232). -/
def decodeWindow (p r size : Nat) (dec : State → Except Err State) (s : State) : State :=
  let s := s.setConsumed 0
  if p + r ≤ Config.memSize then
    match dec s with
    | .ok s' => (s'.setConsumed size).complete
    | .error e => s.raise e
  else s.raise .range

/-- One record of the table as an instruction: the DEC1 whose window the latched command word names, for
a record with length byte `len` and the rule of its type (log entry 7). -/
def runRecord (len : Byte) (rule : Nat → Nat → State → Except Err State) (s : State) : State :=
  decodeWindow s.latchA s.latchB (len.toNat + 1) (decodeLengthed len rule s.latchA s.latchB) s

/-- AD_FLAGS (41_decode.md R213). -/
def execAdFlags (len : Byte) (s : State) : Host.Outcome State Fault Refusal :=
  .next (runRecord len ruleFlags s)

/-- AD_UUID16_INCOMPLETE (R214). -/
def execAdUuid16Incomplete (len : Byte) (s : State) : Host.Outcome State Fault Refusal :=
  .next (runRecord len (ruleUuid16 false) s)

/-- AD_UUID16_COMPLETE (R214). -/
def execAdUuid16Complete (len : Byte) (s : State) : Host.Outcome State Fault Refusal :=
  .next (runRecord len (ruleUuid16 true) s)

/-- AD_UUID32_INCOMPLETE (R215). -/
def execAdUuid32Incomplete (len : Byte) (s : State) : Host.Outcome State Fault Refusal :=
  .next (runRecord len (ruleUuid32 false) s)

/-- AD_UUID32_COMPLETE (R215). -/
def execAdUuid32Complete (len : Byte) (s : State) : Host.Outcome State Fault Refusal :=
  .next (runRecord len (ruleUuid32 true) s)

/-- AD_UUID128_INCOMPLETE (R216). -/
def execAdUuid128Incomplete (len : Byte) (s : State) : Host.Outcome State Fault Refusal :=
  .next (runRecord len (ruleUuid128 false) s)

/-- AD_UUID128_COMPLETE (R216). -/
def execAdUuid128Complete (len : Byte) (s : State) : Host.Outcome State Fault Refusal :=
  .next (runRecord len (ruleUuid128 true) s)

/-- AD_NAME_INCOMPLETE (R217). -/
def execAdNameIncomplete (len : Byte) (s : State) : Host.Outcome State Fault Refusal :=
  .next (runRecord len (ruleName false) s)

/-- AD_NAME_COMPLETE (R217). -/
def execAdNameComplete (len : Byte) (s : State) : Host.Outcome State Fault Refusal :=
  .next (runRecord len (ruleName true) s)

/-- AD_TX_POWER (R218). -/
def execAdTxPower (len : Byte) (s : State) : Host.Outcome State Fault Refusal :=
  .next (runRecord len ruleTxPower s)

/-- AD_CLASS_OF_DEVICE (R219). -/
def execAdClassOfDevice (len : Byte) (s : State) : Host.Outcome State Fault Refusal :=
  .next (runRecord len ruleClassOfDevice s)

/-- AD_PERIPH_CONN_ITVL_RANGE (R220). -/
def execAdPeriphConnItvlRange (len : Byte) (s : State) : Host.Outcome State Fault Refusal :=
  .next (runRecord len ruleItvlRange s)

/-- AD_SVC_DATA_UUID16 (R221). -/
def execAdSvcDataUuid16 (len : Byte) (s : State) : Host.Outcome State Fault Refusal :=
  .next (runRecord len ruleSvcData16 s)

/-- AD_PUBLIC_TARGET_ADDR (R222). -/
def execAdPublicTargetAddr (len : Byte) (s : State) : Host.Outcome State Fault Refusal :=
  .next (runRecord len rulePublicTarget s)

/-- AD_APPEARANCE (R223). -/
def execAdAppearance (len : Byte) (s : State) : Host.Outcome State Fault Refusal :=
  .next (runRecord len ruleAppearance s)

/-- AD_ADV_INTERVAL (R224). -/
def execAdAdvInterval (len : Byte) (s : State) : Host.Outcome State Fault Refusal :=
  .next (runRecord len ruleAdvInterval s)

/-- AD_LE_DEVICE_ADDR (R225). -/
def execAdLeDeviceAddr (len : Byte) (s : State) : Host.Outcome State Fault Refusal :=
  .next (runRecord len ruleLeDeviceAddr s)

/-- AD_LE_ROLE (R226). -/
def execAdLeRole (len : Byte) (s : State) : Host.Outcome State Fault Refusal :=
  .next (runRecord len ruleLeRole s)

/-- AD_SVC_DATA_UUID32 (R227). -/
def execAdSvcDataUuid32 (len : Byte) (s : State) : Host.Outcome State Fault Refusal :=
  .next (runRecord len ruleSvcData32 s)

/-- AD_SVC_DATA_UUID128 (R228). -/
def execAdSvcDataUuid128 (len : Byte) (s : State) : Host.Outcome State Fault Refusal :=
  .next (runRecord len ruleSvcData128 s)

/-- AD_URI (R229). -/
def execAdUri (len : Byte) (s : State) : Host.Outcome State Fault Refusal :=
  .next (runRecord len ruleUri s)

/-- AD_MFG_DATA (R230). -/
def execAdMfgData (len : Byte) (s : State) : Host.Outcome State Fault Refusal :=
  .next (runRecord len ruleMfgData s)

/-- AD_UNRECOGNISED (R231): the type code plays no part, the record is skipped. -/
def execAdUnrecognised (len _t : Byte) (s : State) : Host.Outcome State Fault Refusal :=
  .next (runRecord len ruleSkip s)

end Sys2Proof.Machine
end

