-- ==== Sys2Proof/Machine/DecodeCommands.lean ====
section
/-! DEFINITION. The decode commands: PU16, PU32, DEC1 and DECODE (41_decode.md). -/

namespace Sys2Proof.Machine

/-- The operand range check of PU16 and PU32 before the list decoder (41_decode.md R202, R203). -/
def inSrcRange (off n : Nat) (body : State → Except Err State) (s : State) : Except Err State :=
  if off + n ≤ Config.memSize then body s else .error .range

/-- PU16 (41_decode.md R202). -/
def execPu16 (off n : Byte) (c : Bool) (s : State) : Host.Outcome State Fault Refusal :=
  .next (endAtomic s
    (inSrcRange off.toNat n.toNat (decodeUuid16 off.toNat n.toNat c) s)).finish

/-- PU32 (41_decode.md R203). -/
def execPu32 (off n : Byte) (c : Bool) (s : State) : Host.Outcome State Fault Refusal :=
  .next (endAtomic s
    (inSrcRange off.toNat n.toNat (decodeUuid32 off.toNat n.toNat c) s)).finish

/-- DEC1 (41_decode.md R232). -/
def execDec1 (p r : Byte) (s : State) : Host.Outcome State Fault Refusal :=
  .next (decodeWindow p.toNat r.toNat (s.recordSize p.toNat) (decodeOne p.toNat r.toNat) s)

/-- The walk of DECODE from position `p` with `r` bytes left (41_decode.md R240). Each record takes at
least two bytes (R241), so fuel `r` is enough. -/
def decodeWalk : Nat → Nat → Nat → State → Ending
  | 0, p, _, s => .ok (s.setDecPos p)
  | fuel + 1, p, r, s =>
    let s := s.setDecPos p
    if r = 0 then .ok s
    else
      match decodeOne p r s with
      | .ok s' => decodeWalk fuel (p + s.recordSize p) (r - s.recordSize p) s'
      | .error e => .raised e s

/-- What a failed DECODE leaves of the field set (41_decode.md R242). -/
def afterDecode : Ending → Ending
  | .ok s => .ok s
  | .raised e s => .raised e s.partialFieldSet
  | .suspended s => .suspended s

/-- DECODE (41_decode.md R240). -/
def execDecode (s : State) : Host.Outcome State Fault Refusal :=
  .next (afterDecode (decodeWalk s.inLen.toNat 0 s.inLen.toNat s.fsClear)).finish

end Sys2Proof.Machine
end

