-- ==== Sys2Proof/Machine/Encode.lean ====
section
/-! DEFINITION. The encode family: HDR, FLAT, ARR16, ARR32 and ENCODE (40_encode.md). -/

namespace Sys2Proof.Machine

/-- `put_hdr(t, n)` (40_encode.md R151). -/
def putHdr (t : Byte) (n : Nat) (s : State) : State :=
  (s.writeDst s.outLen.toNat [BitVec.ofNat 8 (n + 1), t]).setOutLen (s.outLen.toNat + 2)

/-- The payload copy of 40_encode.md R154 to R157: the bytes at `OUT_LEN`, which moves past them. -/
def putPayload (bs : List Byte) (s : State) : State :=
  (s.writeDst s.outLen.toNat bs).setOutLen (s.outLen.toNat + bs.length)

/-- `write_hdr(t, n)` (40_encode.md R152). -/
def writeHdr (t : Byte) (n : Nat) (s : State) : Except Err State :=
  if s.hdrFits n then .ok (putHdr t n s) else .error .msgSize

/-- `emit_bytes(t, bs)` (40_encode.md R154). -/
def emitBytes (t : Byte) (bs : List Byte) (s : State) : Except Err State :=
  if s.hdrFits bs.length then .ok (putPayload bs (putHdr t bs.length s)) else .error .msgSize

/-- `emit_view(t, off, n)` (40_encode.md R155): capacity first, then the view's range. -/
def emitView (t : Byte) (off n : Nat) (s : State) : Except Err State :=
  if s.hdrFits n then
    if off + n ≤ Config.memSize then .ok (putPayload (s.srcBytes off n) (putHdr t n s))
    else .error .range
  else .error .msgSize

/-- `emit_arr16(t, cnt)` (40_encode.md R156). -/
def emitArr16 (t : Byte) (cnt : Nat) (s : State) : Except Err State :=
  if s.hdrFits (2 * cnt) then .ok (putPayload (s.fs.u16Bytes cnt) (putHdr t (2 * cnt) s))
  else .error .msgSize

/-- `emit_arr32(t, cnt)` (40_encode.md R157). -/
def emitArr32 (t : Byte) (cnt : Nat) (s : State) : Except Err State :=
  if s.hdrFits (4 * cnt) then .ok (putPayload (s.fs.u32Bytes cnt) (putHdr t (4 * cnt) s))
  else .error .msgSize

/-- The encode-path gate (40_encode.md R158): it passes, or the command raises `E_NOTSUP` before anything
else. -/
def gated (s : State) (body : State → Ending) : Ending :=
  if s.cfg.encodeSupported then body s else .raised .notSup s

/-- HDR (40_encode.md R160). -/
def execHdr (t n : Byte) (s : State) : Host.Outcome State Fault Refusal :=
  .next (gated s fun s => endAtomic s (writeHdr t n.toNat s)).finish

/-- FLAT (40_encode.md R161). -/
def execFlat (t n off : Byte) (s : State) : Host.Outcome State Fault Refusal :=
  .next (gated s fun s => endAtomic s (emitView t off.toNat n.toNat s)).finish

/-- ARR16 (40_encode.md R162). -/
def execArr16 (t cnt : Byte) (s : State) : Host.Outcome State Fault Refusal :=
  .next (gated s fun s => endAtomic s (emitArr16 t cnt.toNat s)).finish

/-- ARR32 (40_encode.md R163). -/
def execArr32 (t cnt : Byte) (s : State) : Host.Outcome State Fault Refusal :=
  .next (gated s fun s => endAtomic s (emitArr32 t cnt.toNat s)).finish

/-- The type code of a UUID list or name by its completeness bit (30_encoding.md R128). -/
def pairCode (complete : Bool) (yes no : Byte) : Byte := if complete then yes else no

/-- `enc_field(k)` (40_encode.md R171 to R189). For the tx power this is the part after the query, with the
stored level; the sentinel is `encFrom`'s and `resumeEncode`'s matter (R176, R177). -/
def encField (k : Kind) (s : State) : Except Err State :=
  match k with
  | .flags => emitBytes 0x01 [s.fs.flags] s
  | .uuid16 => emitArr16 (pairCode s.fs.u16Complete 0x03 0x02) s.fs.u16Count.toNat s
  | .uuid32 => emitArr32 (pairCode s.fs.u32Complete 0x05 0x04) s.fs.u32Count.toNat s
  | .uuid128 =>
    emitView (pairCode s.fs.u128Complete 0x07 0x06) s.fs.u128.off.toNat (s.fs.u128.vlen 16) s
  | .name => emitView (pairCode s.fs.nameComplete 0x09 0x08) s.fs.name.off.toNat (s.fs.name.vlen 1) s
  | .txp => emitBytes 0x0A [s.fs.txp] s
  | .devcls => emitBytes 0x0D (s.fs.devclsBytes s.cfg.devclsLen) s
  | .itvlRange => emitBytes 0x12 (s.fs.itvlBytes s.cfg.itvlRangeLen) s
  | .sd16 => emitView 0x16 s.fs.sd16.off.toNat (s.fs.sd16.vlen 1) s
  | .pta => emitView 0x17 s.fs.pta.off.toNat (s.fs.pta.vlen 6) s
  | .appear => emitBytes 0x19 (halfBytes s.fs.appear) s
  | .advItvl => emitBytes 0x1A (halfBytes s.fs.advItvl) s
  | .leaddr => emitBytes 0x1B (s.fs.leaddrBytes s.cfg.leAddrLen) s
  | .lerole => emitBytes 0x1C [s.fs.lerole] s
  | .sd32 => emitView 0x20 s.fs.sd32.off.toNat (s.fs.sd32.vlen 1) s
  | .sd128 => emitView 0x21 s.fs.sd128.off.toNat (s.fs.sd128.vlen 1) s
  | .uri => emitView 0x24 s.fs.uri.off.toNat (s.fs.uri.vlen 1) s
  | .mfg => emitView 0xFF s.fs.mfg.off.toNat (s.fs.mfg.vlen 1) s

/-- Kind `k` is the tx power with the "auto" sentinel: its field begins with the query (40_encode.md R176). -/
def State.queries (s : State) (k : Kind) : Bool := k == .txp && s.fs.txp == s.cfg.txPwrAuto

/-- The loop of ENCODE over the kinds still to visit (40_encode.md R170): an absent kind is skipped, the
query suspends (R177), a raise ends the loop and keeps what was written (R190). -/
def encFrom : List Kind → State → Ending
  | [], s => .ok (s.setEncK 18)
  | k :: ks, s =>
    let s := s.setEncK k.num
    if s.fs.has k then
      if s.queries k then .suspended (s.setEngState .waitTxp)
      else
        match encField k s with
        | .ok s' => encFrom ks s'
        | .error e => .raised e s
    else encFrom ks s

/-- ENCODE (40_encode.md R170). -/
def execEncode (s : State) : Host.Outcome State Fault Refusal :=
  .next (gated s fun s => encFrom allKinds (s.setOutLen 0)).finish

/-- The resumption step's work once an answer is offered (60_exceptions.md R302): the rest of the tx-power
field with the answer (40_encode.md R176), then kinds 6 to 17. -/
def encodeAfterAnswer (s : State) : Ending :=
  let s := s.setEngState .exec
  if s.txp.ok then
    match emitBytes 0x0A [s.txp.val] s with
    | .ok s' => encFrom kindsAfterTxp s'
    | .error e => .raised e s
  else .raised (.collab s.txp.err) s

/-- The engine's turn in WAIT_TXP (60_exceptions.md R302): with no answer offered it takes no step. -/
def resumeEncode (s : State) : State :=
  if s.txp.valid then (encodeAfterAnswer s).finish else s

end Sys2Proof.Machine
end

