-- ==== Sys2Proof/Machine/Dispatch.lean ====
section
/-! DEFINITION. One arm for each constructor of Instr. -/

namespace Sys2Proof.Machine

/-- What an instruction does (42_control.md R263). -/
def exec (i : Instr) (s : State) : Host.Outcome State Fault Refusal :=
  match i with
  | .nop => Sys2Proof.Machine.execNop s
  | .hdr t n => Sys2Proof.Machine.execHdr t n s
  | .flat t n off => Sys2Proof.Machine.execFlat t n off s
  | .arr16 t cnt => Sys2Proof.Machine.execArr16 t cnt s
  | .arr32 t cnt => Sys2Proof.Machine.execArr32 t cnt s
  | .encode => Sys2Proof.Machine.execEncode s
  | .pu16 off n c => Sys2Proof.Machine.execPu16 off n c s
  | .pu32 off n c => Sys2Proof.Machine.execPu32 off n c s
  | .dec1 p r => Sys2Proof.Machine.execDec1 p r s
  | .decode => Sys2Proof.Machine.execDecode s
  | .fsclr => Sys2Proof.Machine.execFsclr s
  | .reserved op => Sys2Proof.Machine.execReserved op s
  | .adFlags len => Sys2Proof.Machine.execAdFlags len s
  | .adUuid16Incomplete len => Sys2Proof.Machine.execAdUuid16Incomplete len s
  | .adUuid16Complete len => Sys2Proof.Machine.execAdUuid16Complete len s
  | .adUuid32Incomplete len => Sys2Proof.Machine.execAdUuid32Incomplete len s
  | .adUuid32Complete len => Sys2Proof.Machine.execAdUuid32Complete len s
  | .adUuid128Incomplete len => Sys2Proof.Machine.execAdUuid128Incomplete len s
  | .adUuid128Complete len => Sys2Proof.Machine.execAdUuid128Complete len s
  | .adNameIncomplete len => Sys2Proof.Machine.execAdNameIncomplete len s
  | .adNameComplete len => Sys2Proof.Machine.execAdNameComplete len s
  | .adTxPower len => Sys2Proof.Machine.execAdTxPower len s
  | .adClassOfDevice len => Sys2Proof.Machine.execAdClassOfDevice len s
  | .adPeriphConnItvlRange len => Sys2Proof.Machine.execAdPeriphConnItvlRange len s
  | .adSvcDataUuid16 len => Sys2Proof.Machine.execAdSvcDataUuid16 len s
  | .adPublicTargetAddr len => Sys2Proof.Machine.execAdPublicTargetAddr len s
  | .adAppearance len => Sys2Proof.Machine.execAdAppearance len s
  | .adAdvInterval len => Sys2Proof.Machine.execAdAdvInterval len s
  | .adLeDeviceAddr len => Sys2Proof.Machine.execAdLeDeviceAddr len s
  | .adLeRole len => Sys2Proof.Machine.execAdLeRole len s
  | .adSvcDataUuid32 len => Sys2Proof.Machine.execAdSvcDataUuid32 len s
  | .adSvcDataUuid128 len => Sys2Proof.Machine.execAdSvcDataUuid128 len s
  | .adUri len => Sys2Proof.Machine.execAdUri len s
  | .adMfgData len => Sys2Proof.Machine.execAdMfgData len s
  | .adUnrecognised len t => Sys2Proof.Machine.execAdUnrecognised len t s

end Sys2Proof.Machine
end

