-- ==== Sys2Proof/Machine/Bus.lean ====
section
/-! DEFINITION. The host bus: the address map, the registers as the host sees them, and what a host access
does (10_state.md R32 to R56, 20_memory.md R84 to R99). -/

namespace Sys2Proof.Machine

/-- The named registers of the address map (10_state.md R32). -/
inductive Reg where
  | cmd | status | result | cap | cap2 | maxLen | outLen | inLen | consumed | decPos
  | fsPresent | fsComplete | fsScalar | fsWord | fsCount
  | fsU128 | fsName | fsSd16 | fsPta | fsSd32 | fsSd128 | fsUri | fsMfg
  | fsDevcls | fsItvl | fsLeaddr0 | fsLeaddr1
  | u16 (i : Nat)
  | u32 (i : Nat)
  deriving DecidableEq, Repr

/-- The registers outside the two arrays, by offset. -/
def namedRegAt : Nat → Option Reg
  | 0x000 => some .cmd
  | 0x004 => some .status
  | 0x008 => some .result
  | 0x00C => some .cap
  | 0x010 => some .cap2
  | 0x014 => some .maxLen
  | 0x018 => some .outLen
  | 0x01C => some .inLen
  | 0x020 => some .consumed
  | 0x024 => some .decPos
  | 0x100 => some .fsPresent
  | 0x104 => some .fsComplete
  | 0x108 => some .fsScalar
  | 0x10C => some .fsWord
  | 0x110 => some .fsCount
  | 0x114 => some .fsU128
  | 0x118 => some .fsName
  | 0x11C => some .fsSd16
  | 0x120 => some .fsPta
  | 0x124 => some .fsSd32
  | 0x128 => some .fsSd128
  | 0x12C => some .fsUri
  | 0x130 => some .fsMfg
  | 0x134 => some .fsDevcls
  | 0x138 => some .fsItvl
  | 0x13C => some .fsLeaddr0
  | 0x140 => some .fsLeaddr1
  | _ => none

/-- The register at a 4-byte-aligned offset of the register space; none where the map names none (10_state.md
R32, R55, R56). -/
def regAt (off : Nat) : Option Reg :=
  if 0x200 ≤ off ∧ off < 0x200 + 4 * Config.u16Cap then some (.u16 ((off - 0x200) / 4))
  else if 0x400 ≤ off ∧ off < 0x400 + 4 * Config.u32Cap then some (.u32 ((off - 0x400) / 4))
  else namedRegAt off

/-- `CAP` (10_state.md R36). -/
def Config.cap (c : Config) : Word :=
  1#4 ++ BitVec.ofNat 4 c.leAddrLen ++ BitVec.ofNat 4 c.itvlRangeLen ++ BitVec.ofNat 4 c.devclsLen ++
    BitVec.ofNat 8 c.maxFieldSz ++ 0#7 ++ BitVec.ofBool c.encodeSupported

/-- `CAP2` (10_state.md R37). -/
def Config.cap2 (c : Config) : Word :=
  le32 c.txPwrAuto (BitVec.ofNat 8 Config.u16Cap) (BitVec.ofNat 8 Config.u32Cap) 0

/-- A view register as the host reads it: `OFF` in [7:0], `N` in [15:8] (10_state.md R49). -/
def View.word (v : View) : Word := le32 v.off v.n 0 0

/-- A register's value as the host reads it while the block is idle; reserved bits read 0 (10_state.md R32
to R56). -/
def State.readReg (s : State) : Reg → Word
  | .cmd => 0
  | .status => s.status
  | .result => s.result
  | .cap => Config.cap s.cfg
  | .cap2 => Config.cap2 s.cfg
  | .maxLen => s.maxLen.setWidth 32
  | .outLen => s.outLen.setWidth 32
  | .inLen => s.inLen.setWidth 32
  | .consumed => s.consumed.setWidth 32
  | .decPos => s.decPos.setWidth 32
  | .fsPresent => s.fs.present.setWidth 32
  | .fsComplete => s.fs.complete.setWidth 32
  | .fsScalar => le32 s.fs.flags s.fs.txp s.fs.lerole 0
  | .fsWord => s.fs.advItvl ++ s.fs.appear
  | .fsCount => le32 s.fs.u16Count s.fs.u32Count 0 0
  | .fsU128 => s.fs.u128.word
  | .fsName => s.fs.name.word
  | .fsSd16 => s.fs.sd16.word
  | .fsPta => s.fs.pta.word
  | .fsSd32 => s.fs.sd32.word
  | .fsSd128 => s.fs.sd128.word
  | .fsUri => s.fs.uri.word
  | .fsMfg => s.fs.mfg.word
  | .fsDevcls => s.fs.devcls
  | .fsItvl => s.fs.itvl
  | .fsLeaddr0 => s.fs.leaddr0
  | .fsLeaddr1 => s.fs.leaddr1
  | .u16 i => (s.fs.u16At i).setWidth 32
  | .u32 i => s.fs.u32At i

/-- The field set after a host write to a field-set register; a write elsewhere leaves it (10_state.md R44
to R56). -/
def FieldSet.writeReg (fs : FieldSet) (v : Word) : Reg → FieldSet
  | .fsPresent => { fs with present := v.setWidth 18 }
  | .fsComplete => { fs with complete := v.setWidth 4 }
  | .fsScalar => { fs with flags := wordByte v 0, txp := wordByte v 1, lerole := wordByte v 2 }
  | .fsWord => { fs with appear := v.extractLsb' 0 16, advItvl := v.extractLsb' 16 16 }
  | .fsCount => { fs with u16Count := wordByte v 0, u32Count := wordByte v 1 }
  | .fsU128 => { fs with u128 := .ofWord v }
  | .fsName => { fs with name := .ofWord v }
  | .fsSd16 => { fs with sd16 := .ofWord v }
  | .fsPta => { fs with pta := .ofWord v }
  | .fsSd32 => { fs with sd32 := .ofWord v }
  | .fsSd128 => { fs with sd128 := .ofWord v }
  | .fsUri => { fs with uri := .ofWord v }
  | .fsMfg => { fs with mfg := .ofWord v }
  | .fsDevcls => { fs with devcls := v }
  | .fsItvl => { fs with itvl := v }
  | .fsLeaddr0 => { fs with leaddr0 := v }
  | .fsLeaddr1 => { fs with leaddr1 := v }
  | .u16 i => { fs with u16 := setEntry16 fs.u16 i (v.setWidth 16) }
  | .u32 i => { fs with u32 := setEntry32 fs.u32 i v }
  | .cmd | .status | .result | .cap | .cap2 | .maxLen | .outLen | .inLen | .consumed | .decPos => fs

/-- A host write to a register while the block is idle (10_state.md R32 to R56): CMD latches a command and
starts the engine (R33), a read-only register ignores it, any other stores its named bits. -/
def State.writeReg (s : State) (v : Word) (r : Reg) : State :=
  match r with
  | .cmd => { s with latch := v, engState := .exec }
  | .maxLen => { s with maxLen := wordByte v 0 }
  | .outLen => { s with outLen := wordByte v 0 }
  | .inLen => { s with inLen := wordByte v 0 }
  | .status | .result | .cap | .cap2 | .consumed | .decPos => s
  | .fsPresent | .fsComplete | .fsScalar | .fsWord | .fsCount | .fsU128 | .fsName | .fsSd16 | .fsPta
  | .fsSd32 | .fsSd128 | .fsUri | .fsMfg | .fsDevcls | .fsItvl | .fsLeaddr0 | .fsLeaddr1 | .u16 _
  | .u32 _ => { s with fs := s.fs.writeReg v r }

/-- The window offsets of SRC and DST (10_state.md R32). -/
def isMemory (off : Nat) : Bool := 0x1000 ≤ off && off < 0x1200

/-- Whether the bus admits an access: 32-bit aligned in the register space (20_memory.md R86), 8-bit or
32-bit aligned in SRC and DST (R87); above them R32 alone applies (log entry 8). -/
def admitted (off : Nat) (width : Width) : Bool :=
  if off < 0x1000 then width == .w32 && off % 4 == 0
  else if off < 0x1200 then width == .w8 || (width == .w32 && off % 4 == 0)
  else true

/-- `STATUS`, `CAP` and `CAP2` read exactly at all times (10_state.md R34, 20_memory.md R99). -/
def exactWhileBusy (off : Nat) : Bool := off == 0x004 || off == 0x00C || off == 0x010

/-- What a host read returns while its value is not a draw (10_state.md R32, 20_memory.md R84). -/
def State.busValue (s : State) (off : Nat) (width : Width) : Word :=
  if off < 0x1000 then
    match regAt off with
    | some r => s.readReg r
    | none => 0
  else if isMemory off then
    match width with
    | .w32 => le32 (s.readByte off) (s.readByte (off + 1)) (s.readByte (off + 2)) (s.readByte (off + 3))
    | .w8 | .w16 => (s.readByte off).setWidth 32
  else 0

/-- A draw of the width of the access (20_memory.md R99). -/
def drawOf (d : Nat) (width : Width) : Word :=
  match width with
  | .w32 => Config.draw d
  | .w16 => ((Config.draw d).setWidth 16).setWidth 32
  | .w8 => ((Config.draw d).setWidth 8).setWidth 32

/-- An admitted host read: nothing of the block changes (20_memory.md R92); while busy it returns a draw,
but for `STATUS`, `CAP` and `CAP2` (R99). -/
def State.busRead (s : State) (addr off : Nat) (width : Width) : State :=
  if s.busy && !exactWhileBusy off then
    { s with busReads := ⟨addr, drawOf s.draws width⟩ :: s.busReads, draws := s.draws + 1 }
  else { s with busReads := ⟨addr, s.busValue off width⟩ :: s.busReads }

/-- An admitted host write: ignored while busy (10_state.md R33, 20_memory.md R98), else it stores the value
(R92); reserved offsets ignore it (10_state.md R32). -/
def State.busWrite (s : State) (off : Nat) (width : Width) (data : Word) : State :=
  if s.busy then s
  else if off < 0x1000 then
    match regAt off with
    | some r => s.writeReg data r
    | none => s
  else if isMemory off then
    match width with
    | .w32 => { s with mem := s.mem.setBytes off (wordBytes data) }
    | .w8 | .w16 => { s with mem := s.mem.set off (wordByte data 0) }
  else s

/-- A host access at an absolute address: outside the window it is a fault of the model's, of a width or
alignment the bus does not admit it is refused (20_memory.md R86, R87). -/
def onBus (base addr : Nat) (width : Width) (access : Nat → State) :
    Host.Outcome State Fault Refusal :=
  if base ≤ addr ∧ addr < base + 0x2000 then
    if admitted (addr - base) width then .next (access (addr - base))
    else .refused (.inadmissibleAccess (addr - base) width)
  else .fault (.outsideWindow addr)

/-- Whether an event is one of the host's own accesses. -/
def Event.byHost : Event → Bool
  | .hostWrite _ _ _ | .hostRead _ _ | .hostPoll => true
  | .engine | .txpDrive _ | .reset => false

/-- The coming moves after a POLL that read `BUSY` 1, `es` those that stood behind it: one move of another
agent, then the POLL again. That move is the next one listed, or the engine's turn where the next one listed
is the host's, whose accesses keep their order (20_memory.md R97, log entry 3). -/
def pollAgain (es : List Event) : List Event :=
  match es with
  | [] => [.engine, .hostPoll]
  | e :: es' => if e.byHost then .engine :: .hostPoll :: e :: es' else e :: .hostPoll :: es'

/-- One round of `POLL` (30_encoding.md R117): `RD 0x004`, and the POLL stays in front of the host's later
accesses while bit 0 of what it read is 1. STATUS reads exactly at all times (10_state.md R34). -/
def State.pollStatus (s : State) : State :=
  let s' := s.busRead (s.cfg.base + 0x004) 0x004 .w32
  if (s.busValue 0x004 .w32).getLsbD 0 then { s' with agenda := pollAgain s.agenda } else s'

/-- What an event of the environment does; the engine's turn is `step`'s. -/
def environment (e : Event) (s : State) : Host.Outcome State Fault Refusal :=
  match e with
  | .engine => .next s
  | .hostWrite addr width data => onBus s.cfg.base addr width fun off => s.busWrite off width data
  | .hostRead addr width => onBus s.cfg.base addr width fun off => s.busRead addr off width
  | .hostPoll => .next s.pollStatus
  | .txpDrive port => .next { s with txp := port }
  | .reset => .next s.hardReset

/-- `WR off, v` (30_encoding.md R117) for a window at `base`. -/
def wr (base off : Nat) (v : Word) : List Event := [.hostWrite (base + off) .w32 v]

/-- `WRB off, b` (30_encoding.md R117). -/
def wrb (base off : Nat) (b : Byte) : List Event := [.hostWrite (base + off) .w8 (b.setWidth 32)]

/-- `WRS off, [b0, b1, ...]` (30_encoding.md R117). -/
def wrs (base : Nat) : Nat → List Byte → List Event
  | _, [] => []
  | off, b :: bs => wrb base off b ++ wrs base (off + 1) bs

/-- `RD off` (30_encoding.md R117). -/
def rd (base off : Nat) : List Event := [.hostRead (base + off) .w32]

/-- `RDB off` (30_encoding.md R117). -/
def rdb (base off : Nat) : List Event := [.hostRead (base + off) .w8]

/-- `POLL` (30_encoding.md R117). -/
def poll : List Event := [.hostPoll]

/-- `X cmd` (30_encoding.md R117), `w` the assembled command: `WR 0x000, w; POLL`. -/
def xcmd (base : Nat) (w : Word) : List Event := wr base 0x000 w ++ poll

end Sys2Proof.Machine
end

