-- ==== Sys2Proof/Machine/Fetch.lean ====
section
/-! DEFINITION. Where the next instruction comes from: whose move it is, the latched command word, and the
record at DEC1's window (42_control.md R263, 20_memory.md R102). -/

namespace Sys2Proof.Machine

/-- The command the engine runs: the latched word decoded (42_control.md R263). -/
def State.fetchCommand (s : State) : Instr := decodeCommand s.latch

/-- The record at SRC position `p` as an instruction, from its length and type bytes (41_decode.md R210
steps 1 and 3). -/
def State.fetchRecord (s : State) (p : Nat) : Instr := decodeHeader (s.src p) (s.src (p + 1))

/-- The move that comes next: the head of the agenda, or the engine's turn when the environment has none
(log entry 3). -/
def State.nextMove (s : State) : Event :=
  match s.agenda with
  | [] => .engine
  | e :: _ => e

/-- The state with that move taken off the agenda. -/
def State.popMove (s : State) : State := { s with agenda := s.agenda.tail }

/-- An agenda whose next move is the engine's turn. -/
def engineFirst : List Event → List Event
  | [] => []
  | es => .engine :: es

/-- The state in which a command word has just been latched and the engine moves next. -/
def State.placeCommand (s : State) (w : Word) : State :=
  { s with latch := w, engState := .exec, agenda := engineFirst s.agenda }

/-- The command word `DEC1 0, 255`: it decodes the record at `SRC[0]`. -/
def dec1AtZero : Word := cmdWord 0x12 0 255 0

/-- The state in which SRC holds at offset 0 the whole record `len`, `t` and a payload of zeros, and a DEC1
of it has just been latched. -/
def State.placeRecord (s : State) (len t : Byte) : State :=
  { s with mem := s.mem.setBytes srcBase (len :: t :: List.replicate (len.toNat - 1) 0) }.placeCommand
    dec1AtZero

/-- Where the next instruction goes (log entry 7): a command word to LATCH, a record to SRC with a DEC1 of
it in LATCH. -/
def State.placeTableWord (s : State) (nbits w : Nat) : State :=
  if isRecordRow nbits then s.placeRecord (tableHeader w).1 (tableHeader w).2
  else s.placeCommand (tableCommand w)

end Sys2Proof.Machine
end

