-- ==== Sys2Proof/Machine/Step.lean ====
section
/-! DEFINITION. One step of the machine: the next move of the environment or of the engine. -/

namespace Sys2Proof.Machine

/-- The engine's turn: nothing while idle (70_reset_and_hazards.md R320), the latched command while in EXEC
(42_control.md R263), the resumption while an answer is awaited (60_exceptions.md R302). -/
def engineTurn (s : State) : Host.Outcome State Fault Refusal :=
  match s.engState with
  | .idle => .next s
  | .exec => exec s.fetchCommand s
  | .waitTxp => .next (resumeEncode s)

/-- One step (20_memory.md R91, R97). -/
def step (s : State) : Host.Outcome State Fault Refusal :=
  match s.nextMove with
  | .engine => engineTurn s.popMove
  | e => environment e s.popMove

/-- `s` with an instruction of the opcode table placed where the very next step takes it from. -/
def State.withFetchWord (s : State) (nbits w : Nat) : State := s.placeTableWord nbits w

end Sys2Proof.Machine
end

