-- ==== Sys2Proof/Safety.lean ====
section
/-! DEFINITION. The terms the statements use: what holds of every state a step can leave, what a command
leaves alone, and the two readings of the wire format (30_encoding.md R122, R125) that the encode and
decode families are held against. -/

namespace Sys2Proof.Machine

/-! ## What every step keeps -/

/-- While an ENCODE waits for the collaborator: the latched command is an ENCODE, the encode path exists, it
stands at kind 5, the field is present with the sentinel, and the cursor has not passed the capacity
(10_state.md R62, 40_encode.md R176, R177, 20_memory.md R96, R98). -/
def Waiting (s : State) : Prop :=
  cmdOp s.latch = 0x08 ∧ s.cfg.encodeSupported = true ∧ s.encK = 5 ∧ s.fs.has .txp = true ∧
    s.fs.txp = s.cfg.txPwrAuto ∧ s.outLen.toNat ≤ s.maxLen.toNat

/-- The memory lists bytes of SRC and DST only (10_state.md R32). -/
def MemInWindow (m : Memory) : Prop := ∀ c ∈ m, 0x1000 ≤ c.1 ∧ c.1 < 0x1200

/-- The invariant: memory in canonical form and within SRC and DST, `ENC_K` in 0 to 18 (10_state.md R62), and
what waiting means. -/
def Inv (s : State) : Prop :=
  s.mem.wf ∧ MemInWindow s.mem ∧ s.encK ≤ 18 ∧ (s.engState = .waitTxp → Waiting s)

/-! ## What a command leaves -/

/-- The command ended with this code: `RESULT`, `ERR_SRC`, and the engine idle (60_exceptions.md R290). -/
def Ended (t : State) (code : Word) (fromCollab : Bool) : Prop :=
  t.result = code ∧ t.errSrc = fromCollab ∧ t.engState = .idle

/-- What no command writes: the parameters, `MAX_LEN`, `IN_LEN`, `LATCH`, the collaborator's signals, and the
environment's side (10_state.md R38, R40, R61; 60_exceptions.md R300). -/
def HostSideSame (s t : State) : Prop :=
  t.cfg = s.cfg ∧ t.maxLen = s.maxLen ∧ t.inLen = s.inLen ∧ t.latch = s.latch ∧ t.txp = s.txp ∧
    t.agenda = s.agenda ∧ t.busReads = s.busReads ∧ t.epoch = s.epoch

/-- Every byte of memory outside the `len` bytes from offset `lo` on reads as before. -/
def BytesSameOutside (s t : State) (lo len : Nat) : Prop :=
  ∀ a, ¬(lo ≤ a ∧ a < lo + len) → t.readByte a = s.readByte a

/-- What an encode-path command other than ENCODE leaves alone besides memory and `OUT_LEN` (40_encode.md R160
to R163: "Flags written: none"). -/
def DecodeSideSame (s t : State) : Prop :=
  t.fs = s.fs ∧ t.consumed = s.consumed ∧ t.decPos = s.decPos ∧ t.draws = s.draws

/-- An encode-path step wrote only `DST[o .. MAX_LEN-1]`, and left `OUT_LEN` at most `MAX_LEN` unless it wrote no
byte and left `OUT_LEN` as it was (20_memory.md R96). -/
def WritesBelowCapacity (s t : State) (o : Nat) : Prop :=
  (∀ a, ¬(0x1100 + o ≤ a ∧ a < 0x1100 + s.maxLen.toNat) → t.readByte a = s.readByte a) ∧
    (t.outLen.toNat ≤ t.maxLen.toNat ∨ (t.outLen = s.outLen ∧ ∀ a, t.readByte a = s.readByte a))

/-! ## The wire format as the encoder writes it -/

/-- The type code of a kind (10_state.md R43), by its completeness bit where it has a pair. -/
def Kind.code (fs : FieldSet) : Kind → Byte
  | .flags => 0x01
  | .uuid16 => if fs.complete.getLsbD 0 then 0x03 else 0x02
  | .uuid32 => if fs.complete.getLsbD 1 then 0x05 else 0x04
  | .uuid128 => if fs.complete.getLsbD 2 then 0x07 else 0x06
  | .name => if fs.complete.getLsbD 3 then 0x09 else 0x08
  | .txp => 0x0A
  | .devcls => 0x0D
  | .itvlRange => 0x12
  | .sd16 => 0x16
  | .pta => 0x17
  | .appear => 0x19
  | .advItvl => 0x1A
  | .leaddr => 0x1B
  | .lerole => 0x1C
  | .sd32 => 0x20
  | .sd128 => 0x21
  | .uri => 0x24
  | .mfg => 0xFF

/-- The view of a kind that has one, and its element size (10_state.md R49, R50). -/
def Kind.view (fs : FieldSet) : Kind → Option (View × Nat)
  | .uuid128 => some (fs.u128, 16)
  | .name => some (fs.name, 1)
  | .sd16 => some (fs.sd16, 1)
  | .pta => some (fs.pta, 6)
  | .sd32 => some (fs.sd32, 1)
  | .sd128 => some (fs.sd128, 1)
  | .uri => some (fs.uri, 1)
  | .mfg => some (fs.mfg, 1)
  | .flags | .uuid16 | .uuid32 | .txp | .devcls | .itvlRange | .appear | .advItvl | .leaddr | .lerole =>
    none

/-- A view kind's view is in range (10_state.md R50); every other kind is. -/
def viewInRange (s : State) (k : Kind) : Bool :=
  match k.view s.fs with
  | some (v, elem) => v.off.toNat + elem * v.n.toNat ≤ 256
  | none => true

/-- The payload bytes of a kind (30_encoding.md R122). -/
def payloadOf (s : State) (k : Kind) : List Byte :=
  match k with
  | .flags => [s.fs.flags]
  | .uuid16 => s.fs.u16Bytes s.fs.u16Count.toNat
  | .uuid32 => s.fs.u32Bytes s.fs.u32Count.toNat
  | .uuid128 => s.srcBytes s.fs.u128.off.toNat (16 * s.fs.u128.n.toNat)
  | .name => s.srcBytes s.fs.name.off.toNat s.fs.name.n.toNat
  | .txp => [s.fs.txp]
  | .devcls => s.fs.devclsBytes s.cfg.devclsLen
  | .itvlRange => s.fs.itvlBytes s.cfg.itvlRangeLen
  | .sd16 => s.srcBytes s.fs.sd16.off.toNat s.fs.sd16.n.toNat
  | .pta => s.srcBytes s.fs.pta.off.toNat (6 * s.fs.pta.n.toNat)
  | .appear => [s.fs.appear.extractLsb' 0 8, s.fs.appear.extractLsb' 8 8]
  | .advItvl => [s.fs.advItvl.extractLsb' 0 8, s.fs.advItvl.extractLsb' 8 8]
  | .leaddr => s.fs.leaddrBytes s.cfg.leAddrLen
  | .lerole => [s.fs.lerole]
  | .sd32 => s.srcBytes s.fs.sd32.off.toNat s.fs.sd32.n.toNat
  | .sd128 => s.srcBytes s.fs.sd128.off.toNat s.fs.sd128.n.toNat
  | .uri => s.srcBytes s.fs.uri.off.toNat s.fs.uri.n.toNat
  | .mfg => s.srcBytes s.fs.mfg.off.toNat s.fs.mfg.n.toNat

/-- A record on the wire: `L`, `T`, payload (30_encoding.md R120, R123). -/
def wireRecord (t : Byte) (payload : List Byte) : List Byte :=
  BitVec.ofNat 8 (payload.length + 1) :: t :: payload

/-- The records of the present kinds among `ks`, in that order (40_encode.md R170). -/
def recordsOf (s : State) (ks : List Kind) : List Byte :=
  (ks.filter s.fs.has).flatMap fun k => wireRecord (k.code s.fs) (payloadOf s k)

/-- DST holds `bs` from offset `o` on. -/
def DstHolds (t : State) (o : Nat) (bs : List Byte) : Prop :=
  ∀ i (h : i < bs.length), t.dst (o + i) = bs[i]

/-! ## The wire format as the decoder reads it -/

/-- A sequence of records, as (type code, payload) pairs, on the wire (30_encoding.md R121). -/
def wireOf (rs : List (Byte × List Byte)) : List Byte := rs.flatMap fun r => wireRecord r.1 r.2

/-- The payload length rule of a type code (30_encoding.md R125). -/
def lengthOk (c : Config) (t : Byte) (n : Nat) : Bool :=
  if t = 0x01 ∨ t = 0x0A ∨ t = 0x1C then n == 1
  else if t = 0x02 ∨ t = 0x03 then n % 2 == 0
  else if t = 0x04 ∨ t = 0x05 then n % 4 == 0
  else if t = 0x06 ∨ t = 0x07 then n % 16 == 0
  else if t = 0x0D then n == c.devclsLen
  else if t = 0x12 then n == c.itvlRangeLen
  else if t = 0x16 then 2 ≤ n
  else if t = 0x17 then n % 6 == 0
  else if t = 0x19 ∨ t = 0x1A then n == 2
  else if t = 0x1B then n == c.leAddrLen
  else if t = 0x20 then 4 ≤ n
  else if t = 0x21 then 16 ≤ n
  else true

/-- A payload the decoder accepts: its type's rule, and the generic cap (30_encoding.md R125). -/
def acceptable (c : Config) (t : Byte) (n : Nat) : Bool := n ≤ c.maxFieldSz && lengthOk c t n

/-- Byte `i` of a payload. -/
def payloadByte (bs : List Byte) (i : Nat) : Byte := bs.getD i 0

/-- `P[k]` set. -/
def FieldSet.withPresent (fs : FieldSet) (k : Nat) : FieldSet :=
  { fs with present := fs.present ||| (1#18 <<< k) }

/-- Completeness bit `j` set to `b`. -/
def FieldSet.withComplete (fs : FieldSet) (j : Nat) (b : Bool) : FieldSet :=
  { fs with complete := if b then fs.complete ||| (1#4 <<< j) else fs.complete &&& ~~~(1#4 <<< j) }

/-- The first `len` bytes of a register replaced by those of a payload. -/
def blobOver (v : Word) (len : Nat) (bs : List Byte) : Word :=
  let pick (j : Nat) : Byte := if j < len then payloadByte bs j else v.extractLsb' (8 * j) 8
  pick 3 ++ pick 2 ++ pick 1 ++ pick 0

/-- The UUID16 array with its first entries replaced by those of a payload. -/
def entries16 (a : Vector Half 127) (bs : List Byte) : Vector Half 127 :=
  Vector.ofFn fun i : Fin 127 =>
    if 2 * i.val + 1 < bs.length then payloadByte bs (2 * i.val + 1) ++ payloadByte bs (2 * i.val) else a[i]

/-- The UUID32 array with its first entries replaced by those of a payload. -/
def entries32 (a : Vector Word 63) (bs : List Byte) : Vector Word 63 :=
  Vector.ofFn fun i : Fin 63 =>
    if 4 * i.val + 3 < bs.length then
      payloadByte bs (4 * i.val + 3) ++ payloadByte bs (4 * i.val + 2) ++ payloadByte bs (4 * i.val + 1) ++
        payloadByte bs (4 * i.val)
    else a[i]

/-- The view of `n` entries at SRC offset `off`. -/
def viewAt (off n : Nat) : View := ⟨BitVec.ofNat 8 off, BitVec.ofNat 8 n⟩

/-- The field set after an accepted record whose payload `bs` lies at SRC offset `off` (10_state.md R43,
30_encoding.md R122, R125). -/
def storeRecord (c : Config) (fs : FieldSet) (off : Nat) (t : Byte) (bs : List Byte) : FieldSet :=
  if t = 0x01 then { fs with flags := payloadByte bs 0 }.withPresent 0
  else if t = 0x02 ∨ t = 0x03 then
    ({ fs with u16 := entries16 fs.u16 bs, u16Count := BitVec.ofNat 8 (bs.length / 2) }.withPresent
      1).withComplete 0 (t = 0x03)
  else if t = 0x04 ∨ t = 0x05 then
    ({ fs with u32 := entries32 fs.u32 bs, u32Count := BitVec.ofNat 8 (bs.length / 4) }.withPresent
      2).withComplete 1 (t = 0x05)
  else if t = 0x06 ∨ t = 0x07 then
    ({ fs with u128 := viewAt off (bs.length / 16) }.withPresent 3).withComplete 2 (t = 0x07)
  else if t = 0x08 ∨ t = 0x09 then
    ({ fs with name := viewAt off bs.length }.withPresent 4).withComplete 3 (t = 0x09)
  else if t = 0x0A then { fs with txp := payloadByte bs 0 }.withPresent 5
  else if t = 0x0D then { fs with devcls := blobOver fs.devcls c.devclsLen bs }.withPresent 6
  else if t = 0x12 then { fs with itvl := blobOver fs.itvl c.itvlRangeLen bs }.withPresent 7
  else if t = 0x16 then { fs with sd16 := viewAt off bs.length }.withPresent 8
  else if t = 0x17 then { fs with pta := viewAt off (bs.length / 6) }.withPresent 9
  else if t = 0x19 then { fs with appear := payloadByte bs 1 ++ payloadByte bs 0 }.withPresent 10
  else if t = 0x1A then { fs with advItvl := payloadByte bs 1 ++ payloadByte bs 0 }.withPresent 11
  else if t = 0x1B then
    { fs with
      leaddr0 := blobOver fs.leaddr0 c.leAddrLen bs
      leaddr1 := blobOver fs.leaddr1 (c.leAddrLen - 4) (bs.drop 4) }.withPresent 12
  else if t = 0x1C then { fs with lerole := payloadByte bs 0 }.withPresent 13
  else if t = 0x20 then { fs with sd32 := viewAt off bs.length }.withPresent 14
  else if t = 0x21 then { fs with sd128 := viewAt off bs.length }.withPresent 15
  else if t = 0x24 then { fs with uri := viewAt off bs.length }.withPresent 16
  else if t = 0xFF then { fs with mfg := viewAt off bs.length }.withPresent 17
  else fs

/-- The field set after a sequence of accepted records, the first of which begins at SRC offset `p`
(30_encoding.md R121). -/
def storeRecords (c : Config) : FieldSet → Nat → List (Byte × List Byte) → FieldSet
  | fs, _, [] => fs
  | fs, p, (t, bs) :: rs =>
    storeRecords c (storeRecord c fs (p + 2) t bs) (p + 2 + bs.length) rs

/-- The code a record decoder reports for the bytes `rest` that remain, when they begin no acceptable record
(60_exceptions.md R282, R283, R289); none when they begin one. -/
def rejection (c : Config) (rest : List Byte) : Option Word :=
  match rest with
  | [] => some 0x04
  | len :: body =>
    if body.length < len.toNat then some 0x04
    else if len.toNat = 0 then some 0x0A
    else if acceptable c (payloadByte body 0) (len.toNat - 1) then none
    else some 0x0A

/-- SRC holds `bs` from offset `p` on. -/
def SrcHolds (s : State) (p : Nat) (bs : List Byte) : Prop :=
  ∀ i (h : i < bs.length), s.src (p + i) = bs[i]

/-! ## The window of a record run as an instruction -/

/-- The latched DEC1's window lies in SRC and holds the whole record of length byte `len` (41_decode.md R210,
R232), whose payload is within the cap. -/
def InWindow (s : State) (len : Byte) : Prop :=
  s.latchA + s.latchB ≤ 256 ∧ len.toNat + 1 ≤ s.latchB ∧ len.toNat ≠ 0 ∧ len.toNat - 1 ≤ s.cfg.maxFieldSz

/-- Where the record's payload lies in SRC (41_decode.md R210). -/
def payloadOff (s : State) : Nat := (s.latchA + 2) % 256

/-- The state after a record that was accepted and left the field set `fs` (41_decode.md R232): CONSUMED is its
size, the completion rule is applied, nothing else changes. -/
def recordDone (s : State) (len : Byte) (fs : FieldSet) : State :=
  { s with
    fs := fs, consumed := BitVec.ofNat 8 (len.toNat + 1), result := 0, errSrc := false
    engState := .idle }

/-- The state after a DEC1 or a record that raised: CONSUMED is 0, nothing else changes (41_decode.md R232). -/
def recordRaised (s : State) (code : Word) : State :=
  { s with consumed := 0, result := code, errSrc := false, engState := .idle }

/-! ## The registers as the host writes them -/

/-- The bits of a RW register that hold a value (10_state.md R38 to R56); none for a register the host cannot
write, and for an array entry that does not exist. -/
def Reg.storedBits : Reg → Option Word
  | .maxLen | .outLen | .inLen => some 0x000000FF
  | .fsPresent => some 0x0003FFFF
  | .fsComplete => some 0x0000000F
  | .fsScalar => some 0x00FFFFFF
  | .fsWord => some 0xFFFFFFFF
  | .fsCount => some 0x0000FFFF
  | .fsU128 | .fsName | .fsSd16 | .fsPta | .fsSd32 | .fsSd128 | .fsUri | .fsMfg => some 0x0000FFFF
  | .fsDevcls | .fsItvl | .fsLeaddr0 | .fsLeaddr1 => some 0xFFFFFFFF
  | .u16 i => if i < 127 then some 0x0000FFFF else none
  | .u32 i => if i < 63 then some 0xFFFFFFFF else none
  | .cmd | .status | .result | .cap | .cap2 | .consumed | .decPos => none

/-- An access to a reserved offset of the address map (10_state.md R32) that is admitted: 32-bit aligned in the
register space (20_memory.md R86), of any width and alignment above DST (log entry 8). -/
def ReservedAccess (off : Nat) (width : Width) : Prop :=
  (width = .w32 ∧ off % 4 = 0 ∧
    ((0x028 ≤ off ∧ off ≤ 0x0FC) ∨ (0x144 ≤ off ∧ off ≤ 0x1FC) ∨ off = 0x3FC ∨ (0x4FC ≤ off ∧ off ≤ 0x0FFC))) ∨
  (0x1200 ≤ off ∧ off < 0x2000)

/-- What a read shows at the offsets of the address map other than STATUS, CAP, CAP2 and the two arrays, while
the block is idle: (offset, value) with every named field at its place and every reserved bit 0 (10_state.md R32
to R53). -/
def namedReads (s : State) : List (Nat × Nat) :=
  [(0x000, 0), (0x008, s.result.toNat), (0x014, s.maxLen.toNat), (0x018, s.outLen.toNat),
    (0x01C, s.inLen.toNat), (0x020, s.consumed.toNat), (0x024, s.decPos.toNat),
    (0x100, s.fs.present.toNat), (0x104, s.fs.complete.toNat),
    (0x108, s.fs.flags.toNat + 2 ^ 8 * s.fs.txp.toNat + 2 ^ 16 * s.fs.lerole.toNat),
    (0x10C, s.fs.appear.toNat + 2 ^ 16 * s.fs.advItvl.toNat),
    (0x110, s.fs.u16Count.toNat + 2 ^ 8 * s.fs.u32Count.toNat),
    (0x114, s.fs.u128.off.toNat + 2 ^ 8 * s.fs.u128.n.toNat),
    (0x118, s.fs.name.off.toNat + 2 ^ 8 * s.fs.name.n.toNat),
    (0x11C, s.fs.sd16.off.toNat + 2 ^ 8 * s.fs.sd16.n.toNat),
    (0x120, s.fs.pta.off.toNat + 2 ^ 8 * s.fs.pta.n.toNat),
    (0x124, s.fs.sd32.off.toNat + 2 ^ 8 * s.fs.sd32.n.toNat),
    (0x128, s.fs.sd128.off.toNat + 2 ^ 8 * s.fs.sd128.n.toNat),
    (0x12C, s.fs.uri.off.toNat + 2 ^ 8 * s.fs.uri.n.toNat),
    (0x130, s.fs.mfg.off.toNat + 2 ^ 8 * s.fs.mfg.n.toNat),
    (0x134, s.fs.devcls.toNat), (0x138, s.fs.itvl.toNat), (0x13C, s.fs.leaddr0.toNat),
    (0x140, s.fs.leaddr1.toNat)]

/-- The offsets of the read-only registers: STATUS, RESULT, CAP, CAP2, CONSUMED, DEC_POS (10_state.md R34 to R37,
R41, R42). -/
def readOnlyOffsets : List Nat := [0x004, 0x008, 0x00C, 0x010, 0x020, 0x024]

/-- The offsets that read exactly at all times: STATUS, CAP and CAP2 (20_memory.md R99). -/
def ExactOffset (off : Nat) : Prop := off = 0x004 ∨ off = 0x00C ∨ off = 0x010

/-- `t` is `s` after a host read at offset `off` that returned `data` and took `d` draws. -/
def AfterRead (s t : State) (off : Nat) (data : Word) (d : Nat) : Prop :=
  t = { s with
    agenda := s.agenda.tail, busReads := ⟨s.cfg.base + off, data⟩ :: s.busReads, draws := s.draws + d }

/-- A host access the bus does not admit (20_memory.md R86, R87). -/
def NotAdmitted (off : Nat) (width : Width) : Prop :=
  (off < 0x1000 ∧ (width ≠ .w32 ∨ off % 4 ≠ 0)) ∨
    (0x1000 ≤ off ∧ off < 0x1200 ∧ (width = .w16 ∨ (width = .w32 ∧ off % 4 ≠ 0)))

/-- The reset values of 70_reset_and_hazards.md R322, `CAP` and `CAP2` apart: the engine idle with nothing
latched, every other register reads 0, no byte of SRC or DST is recorded. -/
def AtResetValues (s : State) : Prop :=
  s.engState = .idle ∧ s.latch = 0 ∧ s.encK = 0 ∧ s.txpReq = false ∧
    (∀ r : Reg, r ≠ .cap → r ≠ .cap2 → s.readReg r = 0) ∧ (∀ a, s.mem.get? a = none)

/-! ## The round trip -/

/-- Kind `k` of state `v` has the value it has in `s`: presence, completeness and value or view bytes
(41_decode.md R244). -/
def SameField (s v : State) (k : Kind) : Prop :=
  v.fs.has k = true ∧ k.code v.fs = k.code s.fs ∧ payloadOf v k = payloadOf s k

/-- The registers of kind `k` are 0 (10_state.md R43). -/
def ZeroField (fs : FieldSet) (k : Kind) : Prop :=
  fs.has k = false ∧
  match k with
  | .flags => fs.flags = 0
  | .uuid16 => fs.u16Count = 0 ∧ (∀ i, fs.u16At i = 0) ∧ fs.complete.getLsbD 0 = false
  | .uuid32 => fs.u32Count = 0 ∧ (∀ i, fs.u32At i = 0) ∧ fs.complete.getLsbD 1 = false
  | .uuid128 => fs.u128 = ⟨0, 0⟩ ∧ fs.complete.getLsbD 2 = false
  | .name => fs.name = ⟨0, 0⟩ ∧ fs.complete.getLsbD 3 = false
  | .txp => fs.txp = 0
  | .devcls => fs.devcls = 0
  | .itvlRange => fs.itvl = 0
  | .sd16 => fs.sd16 = ⟨0, 0⟩
  | .pta => fs.pta = ⟨0, 0⟩
  | .appear => fs.appear = 0
  | .advItvl => fs.advItvl = 0
  | .leaddr => fs.leaddr0 = 0 ∧ fs.leaddr1 = 0
  | .lerole => fs.lerole = 0
  | .sd32 => fs.sd32 = ⟨0, 0⟩
  | .sd128 => fs.sd128 = ⟨0, 0⟩
  | .uri => fs.uri = ⟨0, 0⟩
  | .mfg => fs.mfg = ⟨0, 0⟩

end Sys2Proof.Machine
end

