-- ==== Sys2Proof/Certificates/Slice0/Obligations.lean ====
section
/-! DEFINITION. The statements about the model, each from the numbered rules of spec/. -/

open Sys2Proof Sys2Proof.Machine

/-! ## Encoding, step, reset, invariants -/

/-- 70_reset_and_hazards.md R322, 10_state.md R66: what reset leaves, for every choice of the parameters. That no byte
of SRC or DST is recorded is how log entry 4 models "unspecified". -/
def Obligations.ResetLeavesTheResetValues : Prop :=
  (∀ c : Config, AtResetValues (State.resetOf c) ∧ (State.resetOf c).cfg = c) ∧
    AtResetValues State.reset

/-- 70_reset_and_hazards.md R320, R321: the reset input puts the block at its reset values, busy or not, and
withdraws a pending query. That no byte of SRC or DST is recorded and each reads as a draw of a new epoch is how log
entry 4 models "unspecified" (10_state.md R58, R59). That the parameters stay is 10_state.md R31 as log entry 1
models it; that the signals, the coming moves, the record of reads and the count of draws stay is the model's choice
(log entries 3, 5 and 6). -/
def Obligations.ResetInputAbandonsTheCommand : Prop :=
  ∀ s : State, s.nextMove = .reset →
    ∃ t, step s = .next t ∧ AtResetValues t ∧ t.cfg = s.cfg ∧ t.epoch = s.epoch + 1 ∧
      (∀ a, a < 256 → t.src a = Config.memDraw (s.epoch + 1) (0x1000 + a) ∧
        t.dst a = Config.memDraw (s.epoch + 1) (0x1100 + a)) ∧
      t.txp = s.txp ∧ t.agenda = s.agenda.tail ∧ t.busReads = s.busReads ∧ t.draws = s.draws

/-- The invariant holds after reset, for every choice of the parameters. That memory has a canonical form is the
model's own (log entry 4). -/
def Obligations.ResetSatisfiesTheInvariant : Prop := ∀ c : Config, Inv (State.resetOf c)

/-- Every step keeps the invariant: memory in canonical form (the model's own, log entry 4) and within SRC and DST,
`ENC_K` in 0 to 18
(10_state.md R62), and, while an ENCODE waits for the collaborator, what R176 and R177 of 40_encode.md say
of the state it waits in. -/
def Obligations.StepKeepsTheInvariant : Prop :=
  ∀ s t : State, Inv s → step s = .next t → Inv t

/-- 10_state.md R31: the parameters are fixed for a given block; the model keeps them in State (log entry 1). -/
def Obligations.StepKeepsTheParameters : Prop :=
  ∀ s t : State, step s = .next t → t.cfg = s.cfg

/-- Decoding the encoding of a well-formed instruction gives it back, for all 35 rows and every operand. -/
def Obligations.DecodeOfEncodeIsTheInstruction : Prop :=
  ∀ i : Instr, i.wf = true → decode (encode i) = .ok i

/-- 30_encoding.md R110, R111, R112, R113, R116, R125: the words written out there decode to what they stand for; and a
word of a defined opcode decodes to its command whatever stands in the operand bytes, and in the bits `C[7:1]` of PU16
and PU32, that the command ignores (NOP and FSCLR: NopResetsTheResultOnly, FsclrZeroesTheFieldSet). -/
def Obligations.WrittenOutWordsDecode : Prop :=
  (decode (.command 0x00030901) = .ok (.hdr 0x09 3) ∧
    decode (.command 0x10030902) = .ok (.flat 0x09 3 0x10) ∧
    decode (.command 0x01040010) = .ok (.pu16 0 4 true) ∧
    decode (.command 0xFE020010) = .ok (.pu16 0 2 false) ∧
    decode (.command 0x00060012) = .ok (.dec1 0 6) ∧
    decode (.command 0x00000008) = .ok .encode ∧
    decode (.command 0x12345609) = .ok (.reserved 0x09) ∧
    decode (.record [0x02, 0x01, 0x06]) = .ok (.adFlags 0x02) ∧
    decode (.record [0x03, 0x99, 0xAA, 0xBB]) = .ok (.adUnrecognised 0x03 0x99)) ∧
  ∀ w : Word,
    let a := w.extractLsb' 8 8
    let b := w.extractLsb' 16 8
    let c := w.extractLsb' 24 8
    (w.extractLsb' 0 8 = 0x01#8 → decode (.command w) = .ok (.hdr a b)) ∧
    (w.extractLsb' 0 8 = 0x02#8 → decode (.command w) = .ok (.flat a b c)) ∧
    (w.extractLsb' 0 8 = 0x03#8 → decode (.command w) = .ok (.arr16 a b)) ∧
    (w.extractLsb' 0 8 = 0x04#8 → decode (.command w) = .ok (.arr32 a b)) ∧
    (w.extractLsb' 0 8 = 0x08#8 → decode (.command w) = .ok .encode) ∧
    (w.extractLsb' 0 8 = 0x10#8 → decode (.command w) = .ok (.pu16 a b (w.getLsbD 24))) ∧
    (w.extractLsb' 0 8 = 0x11#8 → decode (.command w) = .ok (.pu32 a b (w.getLsbD 24))) ∧
    (w.extractLsb' 0 8 = 0x12#8 → decode (.command w) = .ok (.dec1 a b)) ∧
    (w.extractLsb' 0 8 = 0x18#8 → decode (.command w) = .ok .decode)

/-- 42_control.md R263: in the engine's turn (log entry 3) a step runs the command that the latched word decodes to. -/
def Obligations.EngineStepRunsTheLatchedCommand : Prop :=
  ∀ (s : State) (i : Instr), s.nextMove = .engine → s.engState = .exec →
    decode (.command s.latch) = .ok i →
    step s = exec i { s with agenda := s.agenda.tail }

/-- 41_decode.md R232, R210: when the latched command is a DEC1, the step is that of the record whose length
and type bytes stand at its position. -/
def Obligations.EngineStepOfDec1RunsTheRecord : Prop :=
  ∀ (s : State) (p r : Byte) (i : Instr), s.nextMove = .engine → s.engState = .exec →
    decode (.command s.latch) = .ok (.dec1 p r) →
    decode (.record [s.src p.toNat, s.src (p.toNat + 1)]) = .ok i →
    step s = exec i { s with agenda := s.agenda.tail }

/-- 70_reset_and_hazards.md R320: the block executes nothing until the host writes `CMD`. -/
def Obligations.IdleEngineDoesNothing : Prop :=
  ∀ s : State, s.nextMove = .engine → s.engState = .idle →
    step s = .next { s with agenda := s.agenda.tail }

/-- 42_control.md R263, R264 and 60_exceptions.md R290: every instruction answers a next state; the engine is
idle in it, but for an ENCODE that waits for the collaborator. -/
def Obligations.EveryCommandEndsOrWaits : Prop :=
  ∀ (i : Instr) (s : State), ∃ t, exec i s = .next t ∧
    (t.engState = .idle ∨ (i = .encode ∧ t.engState = .waitTxp ∧ t.result = s.result ∧ t.errSrc = s.errSrc))

/-- 20_memory.md R90, 10_state.md R38, R40: no command writes SRC, `MAX_LEN`, `IN_LEN` or anything of the
host's side. -/
def Obligations.CommandsLeaveSrcAndTheHostSide : Prop :=
  ∀ (i : Instr) (s t : State), exec i s = .next t →
    HostSideSame s t ∧ ∀ a, a < 256 → t.src a = s.src a

/-! ## Control commands -/

/-- 42_control.md R260: a word whose opcode is 0x00 is a NOP, whatever its operands; it resets `RESULT` and
`ERR_SRC` and touches nothing else. -/
def Obligations.NopResetsTheResultOnly : Prop :=
  (∀ w : Word, cmdOp w = 0x00 → decodeCommand w = .nop) ∧
  ∀ s : State, ∃ t, exec .nop s = .next t ∧ Ended t 0 false ∧ HostSideSame s t ∧ DecodeSideSame s t ∧
    t.outLen = s.outLen ∧ t.encK = s.encK ∧ ∀ a, t.readByte a = s.readByte a

/-- 42_control.md R261: a word whose opcode is 0x20 is an FSCLR, whatever its operands; it zeroes every presence and
completeness bit, every register and every list entry of the field set, and touches nothing else. -/
def Obligations.FsclrZeroesTheFieldSet : Prop :=
  (∀ w : Word, cmdOp w = 0x20 → decodeCommand w = .fsclr) ∧
  ∀ s : State, ∃ t, exec .fsclr s = .next t ∧ Ended t 0 false ∧
    t.fs.present = 0 ∧ t.fs.complete = 0 ∧ (∀ k : Kind, ZeroField t.fs k) ∧
    HostSideSame s t ∧ t.outLen = s.outLen ∧ t.consumed = s.consumed ∧ t.decPos = s.decPos ∧
    t.encK = s.encK ∧ t.draws = s.draws ∧ ∀ a, t.readByte a = s.readByte a

/-- 42_control.md R262: a word whose opcode is not in the table gives `E_ILLEGAL` and no other effect; the
operand bytes are not inspected. -/
def Obligations.ReservedOpcodeRaisesIllegal : Prop :=
  ∀ (s : State) (w : Word), definedOpcodes.contains (cmdOp w) = false →
    decodeCommand w = .reserved (cmdOp w) ∧
    ∃ t, exec (.reserved (cmdOp w)) s = .next t ∧ Ended t 0x81 false ∧ HostSideSame s t ∧
      DecodeSideSame s t ∧ t.outLen = s.outLen ∧ t.encK = s.encK ∧ ∀ a, t.readByte a = s.readByte a

/-! ## Encode family -/

/-- 40_encode.md R158, 60_exceptions.md R284: with the encode path disabled, the five encode-path commands
report `E_NOTSUP` and change nothing else. -/
def Obligations.DisabledEncodePathReportsNotSupported : Prop :=
  ∀ (s : State) (i : Instr), s.cfg.encodeSupported = false →
    ((∃ t n, i = .hdr t n) ∨ (∃ t n off, i = .flat t n off) ∨ (∃ t cnt, i = .arr16 t cnt) ∨
      (∃ t cnt, i = .arr32 t cnt) ∨ i = .encode) →
    exec i s = .next { s with result := 0x08, errSrc := false, engState := .idle }

/-- 40_encode.md R160 (R150 to R152): HDR writes the length and type bytes at `OUT_LEN`, moves it by 2, and
touches nothing else. -/
def Obligations.HdrWritesTheHeader : Prop :=
  ∀ (s : State) (t n : Byte), s.cfg.encodeSupported = true →
    s.outLen.toNat + 2 + n.toNat ≤ s.maxLen.toNat →
    ∃ u, exec (.hdr t n) s = .next u ∧ Ended u 0 false ∧
      DstHolds u s.outLen.toNat [n + 1, t] ∧ u.outLen.toNat = s.outLen.toNat + 2 ∧
      BytesSameOutside s u (0x1100 + s.outLen.toNat) 2 ∧
      HostSideSame s u ∧ DecodeSideSame s u ∧ u.encK = s.encK

/-- 40_encode.md R161 (R155): FLAT writes the header and the payload bytes of SRC. -/
def Obligations.FlatCopiesSrcBytes : Prop :=
  ∀ (s : State) (t n off : Byte), s.cfg.encodeSupported = true →
    s.outLen.toNat + 2 + n.toNat ≤ s.maxLen.toNat → off.toNat + n.toNat ≤ 256 →
    ∃ u, exec (.flat t n off) s = .next u ∧ Ended u 0 false ∧
      DstHolds u s.outLen.toNat [n + 1, t] ∧
      (∀ i, i < n.toNat → u.dst (s.outLen.toNat + 2 + i) = s.src (off.toNat + i)) ∧
      u.outLen.toNat = s.outLen.toNat + 2 + n.toNat ∧
      BytesSameOutside s u (0x1100 + s.outLen.toNat) (2 + n.toNat) ∧
      HostSideSame s u ∧ DecodeSideSame s u ∧ u.encK = s.encK

/-- 40_encode.md R162 (R156): ARR16 writes the header and the first entries of `U16`, little-endian. -/
def Obligations.Arr16WritesEntriesLittleEndian : Prop :=
  ∀ (s : State) (t cnt : Byte), s.cfg.encodeSupported = true →
    s.outLen.toNat + 2 + 2 * cnt.toNat ≤ s.maxLen.toNat →
    ∃ u, exec (.arr16 t cnt) s = .next u ∧ Ended u 0 false ∧
      DstHolds u s.outLen.toNat [BitVec.ofNat 8 (2 * cnt.toNat + 1), t] ∧
      (∀ i, i < cnt.toNat →
        u.dst (s.outLen.toNat + 2 + 2 * i) = (s.fs.u16At i).extractLsb' 0 8 ∧
        u.dst (s.outLen.toNat + 3 + 2 * i) = (s.fs.u16At i).extractLsb' 8 8) ∧
      u.outLen.toNat = s.outLen.toNat + 2 + 2 * cnt.toNat ∧
      BytesSameOutside s u (0x1100 + s.outLen.toNat) (2 + 2 * cnt.toNat) ∧
      HostSideSame s u ∧ DecodeSideSame s u ∧ u.encK = s.encK

/-- 40_encode.md R163 (R157): ARR32 writes the header and the first entries of `U32`, little-endian. -/
def Obligations.Arr32WritesEntriesLittleEndian : Prop :=
  ∀ (s : State) (t cnt : Byte), s.cfg.encodeSupported = true →
    s.outLen.toNat + 2 + 4 * cnt.toNat ≤ s.maxLen.toNat →
    ∃ u, exec (.arr32 t cnt) s = .next u ∧ Ended u 0 false ∧
      DstHolds u s.outLen.toNat [BitVec.ofNat 8 (4 * cnt.toNat + 1), t] ∧
      (∀ i j, i < cnt.toNat → j < 4 →
        u.dst (s.outLen.toNat + 2 + 4 * i + j) = (s.fs.u32At i).extractLsb' (8 * j) 8) ∧
      u.outLen.toNat = s.outLen.toNat + 2 + 4 * cnt.toNat ∧
      BytesSameOutside s u (0x1100 + s.outLen.toNat) (2 + 4 * cnt.toNat) ∧
      HostSideSame s u ∧ DecodeSideSame s u ∧ u.encK = s.encK

/-- 40_encode.md R155, R160 to R163, 60_exceptions.md R289: a raw encoder command that does not fit reports
`E_MSGSIZE`, whatever the view's range; a FLAT that fits and leaves SRC reports `E_RANGE`; nothing else
changes. -/
def Obligations.RawEncoderErrorsWriteNothing : Prop :=
  ∀ (s : State) (t n off : Byte), s.cfg.encodeSupported = true →
    (s.maxLen.toNat < s.outLen.toNat + 2 + n.toNat →
      exec (.hdr t n) s = .next { s with result := 0x04, errSrc := false, engState := .idle } ∧
      exec (.flat t n off) s = .next { s with result := 0x04, errSrc := false, engState := .idle }) ∧
    (s.maxLen.toNat < s.outLen.toNat + 2 + 2 * n.toNat →
      exec (.arr16 t n) s = .next { s with result := 0x04, errSrc := false, engState := .idle }) ∧
    (s.maxLen.toNat < s.outLen.toNat + 2 + 4 * n.toNat →
      exec (.arr32 t n) s = .next { s with result := 0x04, errSrc := false, engState := .idle }) ∧
    (s.outLen.toNat + 2 + n.toNat ≤ s.maxLen.toNat → 256 < off.toNat + n.toNat →
      exec (.flat t n off) s = .next { s with result := 0x80, errSrc := false, engState := .idle })

/-- 40_encode.md R170 to R189, R191, R194: an ENCODE whose present fields fit, whose views are in range and
whose tx power is not the sentinel writes the present kinds' records from `DST[0]` on, in kind order, and
nothing else of memory or of the field set. -/
def Obligations.EncodeWritesThePresentFields : Prop :=
  ∀ s : State, s.cfg.encodeSupported = true →
    ¬(s.fs.has .txp = true ∧ s.fs.txp = s.cfg.txPwrAuto) →
    (∀ k : Kind, s.fs.has k = true → viewInRange s k = true) →
    (recordsOf s allKinds).length ≤ s.maxLen.toNat →
    ∃ t, exec .encode s = .next t ∧ Ended t 0 false ∧
      t.outLen.toNat = (recordsOf s allKinds).length ∧ DstHolds t 0 (recordsOf s allKinds) ∧
      BytesSameOutside s t 0x1100 (recordsOf s allKinds).length ∧
      t.encK = 18 ∧ HostSideSame s t ∧ DecodeSideSame s t

/-- 40_encode.md R170, corner case: an empty field set encodes to nothing, whatever `OUT_LEN` and `MAX_LEN`
were. -/
def Obligations.EncodeOfEmptyFieldSetWritesNothing : Prop :=
  ∀ s : State, s.cfg.encodeSupported = true → s.fs.present = 0 →
    exec .encode s =
      .next { s with outLen := 0, encK := 18, result := 0, errSrc := false, engState := .idle }

/-- 40_encode.md R190, R192, R193, 60_exceptions.md R289: the first field that does not fit, or that fits with
a view out of range, ends ENCODE with its error; the records before it stay and it wrote nothing. -/
def Obligations.EncodeAbortsAtTheFirstFailingField : Prop :=
  ∀ (s : State) (before after : List Kind) (k : Kind), s.cfg.encodeSupported = true →
    allKinds = before ++ k :: after →
    ¬(s.fs.has .txp = true ∧ s.fs.txp = s.cfg.txPwrAuto ∧ (k = .txp ∨ .txp ∈ before)) →
    (∀ k' ∈ before, s.fs.has k' = true → viewInRange s k' = true) →
    (recordsOf s before).length ≤ s.maxLen.toNat → s.fs.has k = true →
    ∀ code : Word,
      ((s.maxLen.toNat < (recordsOf s before).length + 2 + (payloadOf s k).length ∧ code = 0x04) ∨
        ((recordsOf s before).length + 2 + (payloadOf s k).length ≤ s.maxLen.toNat ∧
          viewInRange s k = false ∧ code = 0x80)) →
    ∃ t, exec .encode s = .next t ∧ Ended t code false ∧
      t.outLen.toNat = (recordsOf s before).length ∧ DstHolds t 0 (recordsOf s before) ∧
      BytesSameOutside s t 0x1100 (recordsOf s before).length ∧
      t.encK = k.num ∧ HostSideSame s t ∧ DecodeSideSame s t

/-- 40_encode.md R176, R177, 60_exceptions.md R301: an ENCODE that reaches the sentinel suspends there, with
the request raised and the records of kinds 0 to 4 written; no completion rule is applied. -/
def Obligations.EncodeSuspendsAtTheQuery : Prop :=
  ∀ s : State, s.cfg.encodeSupported = true → s.fs.has .txp = true → s.fs.txp = s.cfg.txPwrAuto →
    (∀ k ∈ kindsBeforeTxp, s.fs.has k = true → viewInRange s k = true) →
    (recordsOf s kindsBeforeTxp).length ≤ s.maxLen.toNat →
    ∃ t, exec .encode s = .next t ∧ t.engState = .waitTxp ∧ t.txpReq = true ∧ t.encK = 5 ∧
      t.result = s.result ∧ t.errSrc = s.errSrc ∧
      t.outLen.toNat = (recordsOf s kindsBeforeTxp).length ∧
      DstHolds t 0 (recordsOf s kindsBeforeTxp) ∧
      BytesSameOutside s t 0x1100 (recordsOf s kindsBeforeTxp).length ∧
      HostSideSame s t ∧ DecodeSideSame s t

/-- 60_exceptions.md R302, 40_encode.md R176, R191: with a success offered, the resuming step writes the answer
as the tx power and the records of kinds 6 to 17, and completes; the answer is not stored. -/
def Obligations.AnswerResumesTheEncode : Prop :=
  ∀ s : State, s.nextMove = .engine → s.engState = .waitTxp → s.txp.valid = true → s.txp.ok = true →
    (∀ k ∈ kindsAfterTxp, s.fs.has k = true → viewInRange s k = true) →
    s.outLen.toNat + 3 + (recordsOf s kindsAfterTxp).length ≤ s.maxLen.toNat →
    ∃ t, step s = .next t ∧ Ended t 0 false ∧ t.txpReq = false ∧
      t.outLen.toNat = s.outLen.toNat + 3 + (recordsOf s kindsAfterTxp).length ∧
      DstHolds t s.outLen.toNat ([0x02, 0x0A, s.txp.val] ++ recordsOf s kindsAfterTxp) ∧
      BytesSameOutside s t (0x1100 + s.outLen.toNat) (3 + (recordsOf s kindsAfterTxp).length) ∧
      t.encK = 18 ∧ DecodeSideSame s t ∧ HostSideSame { s with agenda := s.agenda.tail } t

/-- 60_exceptions.md R291, R302: a failure offered ends ENCODE with the collaborator's value in `RESULT` and
`ERR_SRC` 1; 40_encode.md R176 with R290: an answer whose record does not fit ends it with `E_MSGSIZE`. That the
engine's turn with no answer offered changes nothing is the model's deduction from R302 (log entry 3: "the engine
takes no step"). 60_exceptions.md R300: driving the port's signals changes nothing of the block, whatever it is doing;
that the signals are levels in State, driven by a move of their own, is the model's choice (log entry 6). -/
def Obligations.QueryFailureIsPropagatedVerbatim : Prop :=
  (∀ s : State, s.nextMove = .engine → s.engState = .waitTxp →
    (s.txp.valid = true → s.txp.ok = false →
      step s = .next { s with
        result := s.txp.err, errSrc := true, engState := .idle, agenda := s.agenda.tail }) ∧
    (s.txp.valid = true → s.txp.ok = true → s.maxLen.toNat < s.outLen.toNat + 3 →
      step s = .next { s with
        result := 0x04, errSrc := false, engState := .idle, agenda := s.agenda.tail }) ∧
    (s.txp.valid = false → step s = .next { s with agenda := s.agenda.tail })) ∧
  ∀ (s : State) (port : TxpPort), s.nextMove = .txpDrive port →
    step s = .next { s with txp := port, agenda := s.agenda.tail }

/-- 60_exceptions.md R302, 40_encode.md R190: in the resuming step, the first field of kinds 6 to 17 that does not
fit, or that fits with a view out of range, ends ENCODE with its error; the answer's record and the records before
that field stay, and it wrote nothing. -/
def Obligations.ResumedEncodeAbortsAtTheFirstFailingField : Prop :=
  ∀ (s : State) (before after : List Kind) (k : Kind), s.nextMove = .engine → s.engState = .waitTxp →
    s.txp.valid = true → s.txp.ok = true → kindsAfterTxp = before ++ k :: after →
    (∀ k' ∈ before, s.fs.has k' = true → viewInRange s k' = true) →
    s.outLen.toNat + 3 + (recordsOf s before).length ≤ s.maxLen.toNat → s.fs.has k = true →
    ∀ code : Word,
      ((s.maxLen.toNat < s.outLen.toNat + 3 + (recordsOf s before).length + 2 + (payloadOf s k).length ∧
          code = 0x04) ∨
        (s.outLen.toNat + 3 + (recordsOf s before).length + 2 + (payloadOf s k).length ≤ s.maxLen.toNat ∧
          viewInRange s k = false ∧ code = 0x80)) →
    ∃ t, step s = .next t ∧ Ended t code false ∧ t.txpReq = false ∧
      t.outLen.toNat = s.outLen.toNat + 3 + (recordsOf s before).length ∧
      DstHolds t s.outLen.toNat ([0x02, 0x0A, s.txp.val] ++ recordsOf s before) ∧
      BytesSameOutside s t (0x1100 + s.outLen.toNat) (3 + (recordsOf s before).length) ∧
      t.encK = k.num ∧ DecodeSideSame s t ∧ HostSideSame { s with agenda := s.agenda.tail } t

/-- 20_memory.md R96: an encode-path command writes only `DST[o .. MAX_LEN-1]`, where `o` is `OUT_LEN` (0 for
ENCODE), and leaves `OUT_LEN` at most `MAX_LEN` unless it wrote no byte and left `OUT_LEN` as it was. The step that
resumes an ENCODE (60_exceptions.md R302) does so from the cursor on at which it waited. -/
def Obligations.EncodePathStaysBelowCapacity : Prop :=
  (∀ (s t : State) (i : Instr) (o : Nat),
    (((∃ ty n, i = .hdr ty n) ∨ (∃ ty n off, i = .flat ty n off) ∨ (∃ ty cnt, i = .arr16 ty cnt) ∨
      (∃ ty cnt, i = .arr32 ty cnt)) ∧ o = s.outLen.toNat ∨ i = .encode ∧ o = 0) →
    exec i s = .next t → WritesBelowCapacity s t o) ∧
  ∀ s : State, s.nextMove = .engine → s.engState = .waitTxp →
    ∃ t, step s = .next t ∧ WritesBelowCapacity s t s.outLen.toNat

/-! ## Decode family: the commands -/

/-- 41_decode.md R200, R202: PU16 converts the little-endian elements into `U16`, sets the count, the presence
bit and the completeness bit, and touches nothing else; entries beyond the count are not written. -/
def Obligations.Pu16ConvertsTheList : Prop :=
  ∀ (s : State) (off n : Byte) (c : Bool), off.toNat + n.toNat ≤ 256 → n.toNat % 2 = 0 →
    ∃ t, exec (.pu16 off n c) s = .next t ∧ Ended t 0 false ∧
      (∀ i, i < n.toNat / 2 →
        t.fs.u16At i = s.src (off.toNat + 2 * i + 1) ++ s.src (off.toNat + 2 * i)) ∧
      (∀ i, n.toNat / 2 ≤ i → t.fs.u16At i = s.fs.u16At i) ∧
      t.fs.u16Count.toNat = n.toNat / 2 ∧ t.fs.has .uuid16 = true ∧ t.fs.complete.getLsbD 0 = c ∧
      (∀ k : Kind, k ≠ .uuid16 → t.fs.has k = s.fs.has k) ∧
      (∀ j, j ≠ 0 → t.fs.complete.getLsbD j = s.fs.complete.getLsbD j) ∧
      t.fs = { s.fs with
        u16 := t.fs.u16, u16Count := t.fs.u16Count, present := t.fs.present, complete := t.fs.complete } ∧
      HostSideSame s t ∧ t.outLen = s.outLen ∧ t.consumed = s.consumed ∧ t.decPos = s.decPos ∧
      t.encK = s.encK ∧ t.draws = s.draws ∧ ∀ a, t.readByte a = s.readByte a

/-- 41_decode.md R201, R203: PU32 likewise for 4-byte elements into `U32`. -/
def Obligations.Pu32ConvertsTheList : Prop :=
  ∀ (s : State) (off n : Byte) (c : Bool), off.toNat + n.toNat ≤ 256 → n.toNat % 4 = 0 →
    ∃ t, exec (.pu32 off n c) s = .next t ∧ Ended t 0 false ∧
      (∀ i, i < n.toNat / 4 →
        t.fs.u32At i = s.src (off.toNat + 4 * i + 3) ++ s.src (off.toNat + 4 * i + 2) ++
          s.src (off.toNat + 4 * i + 1) ++ s.src (off.toNat + 4 * i)) ∧
      (∀ i, n.toNat / 4 ≤ i → t.fs.u32At i = s.fs.u32At i) ∧
      t.fs.u32Count.toNat = n.toNat / 4 ∧ t.fs.has .uuid32 = true ∧ t.fs.complete.getLsbD 1 = c ∧
      (∀ k : Kind, k ≠ .uuid32 → t.fs.has k = s.fs.has k) ∧
      (∀ j, j ≠ 1 → t.fs.complete.getLsbD j = s.fs.complete.getLsbD j) ∧
      t.fs = { s.fs with
        u32 := t.fs.u32, u32Count := t.fs.u32Count, present := t.fs.present, complete := t.fs.complete } ∧
      HostSideSame s t ∧ t.outLen = s.outLen ∧ t.consumed = s.consumed ∧ t.decPos = s.decPos ∧
      t.encK = s.encK ∧ t.draws = s.draws ∧ ∀ a, t.readByte a = s.readByte a

/-- 41_decode.md R202, R203, 60_exceptions.md R289: a window that leaves SRC reports `E_RANGE` before a length
that is no multiple of the element size reports `E_BADDATA`; nothing else changes. -/
def Obligations.ListDecoderErrorsWriteNothing : Prop :=
  ∀ (s : State) (off n : Byte) (c : Bool),
    (256 < off.toNat + n.toNat →
      exec (.pu16 off n c) s = .next { s with result := 0x80, errSrc := false, engState := .idle } ∧
      exec (.pu32 off n c) s = .next { s with result := 0x80, errSrc := false, engState := .idle }) ∧
    (off.toNat + n.toNat ≤ 256 → n.toNat % 2 ≠ 0 →
      exec (.pu16 off n c) s = .next { s with result := 0x0A, errSrc := false, engState := .idle }) ∧
    (off.toNat + n.toNat ≤ 256 → n.toNat % 4 ≠ 0 →
      exec (.pu32 off n c) s = .next { s with result := 0x0A, errSrc := false, engState := .idle })

/-- 41_decode.md R210, R232: DEC1 of a record that its window holds whole and the decoder accepts stores the
record's field, reports its size in `CONSUMED`, and touches nothing else. -/
def Obligations.Dec1StoresTheRecord : Prop :=
  ∀ (s : State) (p r t : Byte) (payload : List Byte), p.toNat + r.toNat ≤ 256 →
    payload.length + 2 ≤ r.toNat → SrcHolds s p.toNat (wireRecord t payload) →
    acceptable s.cfg t payload.length = true →
    exec (.dec1 p r) s = .next { s with
      fs := storeRecord s.cfg s.fs (p.toNat + 2) t payload
      consumed := BitVec.ofNat 8 (payload.length + 2)
      result := 0, errSrc := false, engState := .idle }

/-- 41_decode.md R232, 60_exceptions.md R289: DEC1 reports `E_RANGE` for a window that leaves SRC, else the
record decoder's error in the order truncation, `L = 0`, cap, length rule; `CONSUMED` is 0 and nothing else
changes. -/
def Obligations.Dec1ErrorsLeaveTheFieldSet : Prop :=
  ∀ (s : State) (p r : Byte),
    (256 < p.toNat + r.toNat → exec (.dec1 p r) s = .next (recordRaised s 0x80)) ∧
    (p.toNat + r.toNat ≤ 256 → ∀ code,
      rejection s.cfg (s.srcBytes p.toNat r.toNat) = some code →
      exec (.dec1 p r) s = .next (recordRaised s code))

/-- 41_decode.md R240, R245, R243: DECODE of an input that is a sequence of acceptable records gives the fresh
field set with each record stored in order, `DEC_POS = IN_LEN`, and touches nothing else. -/
def Obligations.DecodeStoresEveryRecord : Prop :=
  ∀ (s : State) (rs : List (Byte × List Byte)),
    (∀ r ∈ rs, acceptable s.cfg r.1 r.2.length = true) →
    (wireOf rs).length = s.inLen.toNat → SrcHolds s 0 (wireOf rs) →
    exec .decode s = .next { s with
      fs := storeRecords s.cfg FieldSet.zero 0 rs, decPos := s.inLen
      result := 0, errSrc := false, engState := .idle }

/-- 41_decode.md R240, R242, 60_exceptions.md R282: DECODE stops at the first record it does not accept, with
its error and its offset in `DEC_POS`; under `prefix` the field set is that of the records before it, under
`havoc` nothing is said of it. -/
def Obligations.DecodeStopsAtTheFirstBadRecord : Prop :=
  ∀ (s : State) (rs : List (Byte × List Byte)) (rest : List Byte) (code : Word),
    (∀ r ∈ rs, acceptable s.cfg r.1 r.2.length = true) → rest ≠ [] →
    (wireOf rs ++ rest).length = s.inLen.toNat → SrcHolds s 0 (wireOf rs ++ rest) →
    rejection s.cfg rest = some code →
    ∃ t, exec .decode s = .next t ∧ Ended t code false ∧ t.decPos.toNat = (wireOf rs).length ∧
      (s.cfg.partialFs = .prefixKept → t.fs = storeRecords s.cfg FieldSet.zero 0 rs ∧ t.draws = s.draws) ∧
      HostSideSame s t ∧ t.outLen = s.outLen ∧ t.consumed = s.consumed ∧ t.encK = s.encK ∧
      ∀ a, t.readByte a = s.readByte a

/-- 20_memory.md R95: what DECODE, DEC1, PU16 and PU32 do depends on the bytes of their own window of SRC only:
with any other memory that agrees there, the step is the same but for that memory. -/
def Obligations.DecodeReadsOnlyItsWindow : Prop :=
  ∀ (s : State) (m : Memory) (off n : Byte) (c : Bool),
    ((∀ i, i < s.inLen.toNat → State.src { s with mem := m } i = s.src i) →
      ∃ t, exec .decode s = .next t ∧ exec .decode { s with mem := m } = .next { t with mem := m }) ∧
    ((∀ i, i < n.toNat → State.src { s with mem := m } (off.toNat + i) = s.src (off.toNat + i)) →
      (∃ t, exec (.dec1 off n) s = .next t ∧
        exec (.dec1 off n) { s with mem := m } = .next { t with mem := m }) ∧
      (∃ t, exec (.pu16 off n c) s = .next t ∧
        exec (.pu16 off n c) { s with mem := m } = .next { t with mem := m }) ∧
      (∃ t, exec (.pu32 off n c) s = .next t ∧
        exec (.pu32 off n c) { s with mem := m } = .next { t with mem := m }))

/-! ## Decode family: the records -/

/-- 41_decode.md R213, R218, R226: types 0x01, 0x0A and 0x1C store their one byte and set the presence bit; any
other length is `E_BADDATA`, and on it nothing is stored. That a record runs as an instruction of its own over
the latched window, with `CONSUMED`, is the model's choice (log entry 7); the checks and the window are those of
R210 and R232. -/
def Obligations.OneByteRecordsStoreTheirByte : Prop :=
  ∀ (s : State) (len : Byte), InWindow s len →
    (decodeHeader len 0x01 = .adFlags len ∧ decodeHeader len 0x0A = .adTxPower len ∧
      decodeHeader len 0x1C = .adLeRole len) ∧
    (len.toNat - 1 ≠ 1 →
      exec (.adFlags len) s = .next (recordRaised s 0x0A) ∧
      exec (.adTxPower len) s = .next (recordRaised s 0x0A) ∧
      exec (.adLeRole len) s = .next (recordRaised s 0x0A)) ∧
    (len.toNat - 1 = 1 →
      exec (.adFlags len) s =
        .next (recordDone s len ({ s.fs with flags := s.src (payloadOff s) }.withPresent 0)) ∧
      exec (.adTxPower len) s =
        .next (recordDone s len ({ s.fs with txp := s.src (payloadOff s) }.withPresent 5)) ∧
      exec (.adLeRole len) s =
        .next (recordDone s len ({ s.fs with lerole := s.src (payloadOff s) }.withPresent 13)))

/-- 41_decode.md R223, R224: types 0x19 and 0x1A store their two bytes little-endian; any other length is
`E_BADDATA`. That a record runs as an instruction of its own over the latched window, with `CONSUMED`, is the
model's choice (log entry 7); the checks and the window are those of R210 and R232. -/
def Obligations.TwoByteRecordsStoreLittleEndian : Prop :=
  ∀ (s : State) (len : Byte), InWindow s len →
    (decodeHeader len 0x19 = .adAppearance len ∧ decodeHeader len 0x1A = .adAdvInterval len) ∧
    (len.toNat - 1 ≠ 2 →
      exec (.adAppearance len) s = .next (recordRaised s 0x0A) ∧
      exec (.adAdvInterval len) s = .next (recordRaised s 0x0A)) ∧
    (len.toNat - 1 = 2 →
      exec (.adAppearance len) s =
        .next (recordDone s len ({ s.fs with
          appear := s.src (payloadOff s + 1) ++ s.src (payloadOff s) }.withPresent 10)) ∧
      exec (.adAdvInterval len) s =
        .next (recordDone s len ({ s.fs with
          advItvl := s.src (payloadOff s + 1) ++ s.src (payloadOff s) }.withPresent 11)))

/-- 41_decode.md R219, R220, R225: types 0x0D, 0x12 and 0x1B copy their bytes verbatim when the length is the
parameter's, and bytes of the registers above it stay; any other length is `E_BADDATA`. That a record runs as an
instruction of its own over the latched window, with `CONSUMED`, is the model's choice (log entry 7); the checks
and the window are those of R210 and R232. -/
def Obligations.BlobRecordsCopyTheirBytes : Prop :=
  ∀ (s : State) (len : Byte), InWindow s len →
    (decodeHeader len 0x0D = .adClassOfDevice len ∧ decodeHeader len 0x12 = .adPeriphConnItvlRange len ∧
      decodeHeader len 0x1B = .adLeDeviceAddr len) ∧
    exec (.adClassOfDevice len) s =
      (if len.toNat - 1 = s.cfg.devclsLen then
        .next (recordDone s len ({ s.fs with
          devcls := blobOver s.fs.devcls s.cfg.devclsLen
            (s.srcBytes (payloadOff s) s.cfg.devclsLen) }.withPresent 6))
      else .next (recordRaised s 0x0A)) ∧
    exec (.adPeriphConnItvlRange len) s =
      (if len.toNat - 1 = s.cfg.itvlRangeLen then
        .next (recordDone s len ({ s.fs with
          itvl := blobOver s.fs.itvl s.cfg.itvlRangeLen
            (s.srcBytes (payloadOff s) s.cfg.itvlRangeLen) }.withPresent 7))
      else .next (recordRaised s 0x0A)) ∧
    exec (.adLeDeviceAddr len) s =
      (if len.toNat - 1 = s.cfg.leAddrLen then
        .next (recordDone s len ({ s.fs with
          leaddr0 := blobOver s.fs.leaddr0 s.cfg.leAddrLen (s.srcBytes (payloadOff s) s.cfg.leAddrLen)
          leaddr1 := blobOver s.fs.leaddr1 (s.cfg.leAddrLen - 4)
            ((s.srcBytes (payloadOff s) s.cfg.leAddrLen).drop 4) }.withPresent 12))
      else .next (recordRaised s 0x0A))

/-- 41_decode.md R217, R229, R230: types 0x08, 0x09, 0x24 and 0xFF store a view of any length within the cap. That a
record runs as an instruction of its own over the latched window, with `CONSUMED`, is the model's choice (log
entry 7); the checks and the window are those of R210 and R232. -/
def Obligations.FreeLengthRecordsStoreAView : Prop :=
  ∀ (s : State) (len : Byte), InWindow s len →
    (decodeHeader len 0x08 = .adNameIncomplete len ∧ decodeHeader len 0x09 = .adNameComplete len ∧
      decodeHeader len 0x24 = .adUri len ∧ decodeHeader len 0xFF = .adMfgData len) ∧
    exec (.adNameIncomplete len) s = .next (recordDone s len (({ s.fs with
      name := viewAt (payloadOff s) (len.toNat - 1) }.withPresent 4).withComplete 3 false)) ∧
    exec (.adNameComplete len) s = .next (recordDone s len (({ s.fs with
      name := viewAt (payloadOff s) (len.toNat - 1) }.withPresent 4).withComplete 3 true)) ∧
    exec (.adUri len) s = .next (recordDone s len ({ s.fs with
      uri := viewAt (payloadOff s) (len.toNat - 1) }.withPresent 16)) ∧
    exec (.adMfgData len) s = .next (recordDone s len ({ s.fs with
      mfg := viewAt (payloadOff s) (len.toNat - 1) }.withPresent 17))

/-- 41_decode.md R221, R227, R228: types 0x16, 0x20 and 0x21 store a view of at least 2, 4 and 16 bytes; a shorter
one is `E_BADDATA`. That a record runs as an instruction of its own over the latched window, with `CONSUMED`, is
the model's choice (log entry 7); the checks and the window are those of R210 and R232. -/
def Obligations.ServiceDataRecordsStoreAView : Prop :=
  ∀ (s : State) (len : Byte), InWindow s len →
    (decodeHeader len 0x16 = .adSvcDataUuid16 len ∧ decodeHeader len 0x20 = .adSvcDataUuid32 len ∧
      decodeHeader len 0x21 = .adSvcDataUuid128 len) ∧
    exec (.adSvcDataUuid16 len) s =
      (if len.toNat - 1 < 2 then .next (recordRaised s 0x0A)
      else .next (recordDone s len ({ s.fs with
        sd16 := viewAt (payloadOff s) (len.toNat - 1) }.withPresent 8))) ∧
    exec (.adSvcDataUuid32 len) s =
      (if len.toNat - 1 < 4 then .next (recordRaised s 0x0A)
      else .next (recordDone s len ({ s.fs with
        sd32 := viewAt (payloadOff s) (len.toNat - 1) }.withPresent 14))) ∧
    exec (.adSvcDataUuid128 len) s =
      (if len.toNat - 1 < 16 then .next (recordRaised s 0x0A)
      else .next (recordDone s len ({ s.fs with
        sd128 := viewAt (payloadOff s) (len.toNat - 1) }.withPresent 15)))

/-- 41_decode.md R216, R222: types 0x06, 0x07 and 0x17 store a view counted in entries of 16 and 6 bytes; a length
that is no multiple is `E_BADDATA`. That a record runs as an instruction of its own over the latched window,
with `CONSUMED`, is the model's choice (log entry 7); the checks and the window are those of R210 and R232. -/
def Obligations.CountedRecordsStoreAView : Prop :=
  ∀ (s : State) (len : Byte), InWindow s len →
    (decodeHeader len 0x06 = .adUuid128Incomplete len ∧ decodeHeader len 0x07 = .adUuid128Complete len ∧
      decodeHeader len 0x17 = .adPublicTargetAddr len) ∧
    (∀ c : Bool, exec (if c then .adUuid128Complete len else .adUuid128Incomplete len) s =
      (if (len.toNat - 1) % 16 ≠ 0 then .next (recordRaised s 0x0A)
      else .next (recordDone s len (({ s.fs with
        u128 := viewAt (payloadOff s) ((len.toNat - 1) / 16) }.withPresent 3).withComplete 2 c)))) ∧
    exec (.adPublicTargetAddr len) s =
      (if (len.toNat - 1) % 6 ≠ 0 then .next (recordRaised s 0x0A)
      else .next (recordDone s len ({ s.fs with
        pta := viewAt (payloadOff s) ((len.toNat - 1) / 6) }.withPresent 9)))

/-- 41_decode.md R214, R215: types 0x02 to 0x05 are converted into the owned arrays; a length that is no multiple of
the element size is `E_BADDATA`. That a record runs as an instruction of its own over the latched window, with
`CONSUMED`, is the model's choice (log entry 7); the checks and the window are those of R210 and R232. -/
def Obligations.ListRecordsConvertTheirEntries : Prop :=
  ∀ (s : State) (len : Byte), InWindow s len →
    (decodeHeader len 0x02 = .adUuid16Incomplete len ∧ decodeHeader len 0x03 = .adUuid16Complete len ∧
      decodeHeader len 0x04 = .adUuid32Incomplete len ∧ decodeHeader len 0x05 = .adUuid32Complete len) ∧
    (∀ c : Bool, exec (if c then .adUuid16Complete len else .adUuid16Incomplete len) s =
      (if (len.toNat - 1) % 2 ≠ 0 then .next (recordRaised s 0x0A)
      else .next (recordDone s len (({ s.fs with
        u16 := entries16 s.fs.u16 (s.srcBytes (payloadOff s) (len.toNat - 1))
        u16Count := BitVec.ofNat 8 ((len.toNat - 1) / 2) }.withPresent 1).withComplete 0 c)))) ∧
    (∀ c : Bool, exec (if c then .adUuid32Complete len else .adUuid32Incomplete len) s =
      (if (len.toNat - 1) % 4 ≠ 0 then .next (recordRaised s 0x0A)
      else .next (recordDone s len (({ s.fs with
        u32 := entries32 s.fs.u32 (s.srcBytes (payloadOff s) (len.toNat - 1))
        u32Count := BitVec.ofNat 8 ((len.toNat - 1) / 4) }.withPresent 2).withComplete 1 c))))

/-- 41_decode.md R231: a record with an unrecognised type code is skipped, with its size reported, once its window
and cap checks have passed; a payload above the cap is `E_BADDATA` (truncation and `L = 0`:
RecordChecksComeInOrder). That a record runs as an instruction of its own over the latched window, with
`CONSUMED`, is the model's choice (log entry 7); the checks and the window are those of R210 and R232. -/
def Obligations.UnrecognisedRecordIsSkipped : Prop :=
  ∀ (s : State) (len t : Byte), definedTypeCodes.contains t = false →
    s.latchA + s.latchB ≤ 256 → len.toNat + 1 ≤ s.latchB → len.toNat ≠ 0 →
    decodeHeader len t = .adUnrecognised len t ∧
    exec (.adUnrecognised len t) s =
      if s.cfg.maxFieldSz < len.toNat - 1 then .next (recordRaised s 0x0A)
      else .next (recordDone s len s.fs)

/-- 41_decode.md R210, R212, R232, 60_exceptions.md R283, R289: the record decoder's checks in order, for every type
code: window, truncation, `L = 0`, cap, the type's length rule; on each the field set is unchanged. That a
record runs as an instruction of its own over the latched window, with `CONSUMED`, is the model's choice (log
entry 7); the checks and the window are those of R210 and R232. -/
def Obligations.RecordChecksComeInOrder : Prop :=
  ∀ (s : State) (len t : Byte),
    exec (decodeHeader len t) s =
      if 256 < s.latchA + s.latchB then .next (recordRaised s 0x80)
      else if s.latchB < len.toNat + 1 then .next (recordRaised s 0x04)
      else if len.toNat = 0 then .next (recordRaised s 0x0A)
      else if s.cfg.maxFieldSz < len.toNat - 1 then .next (recordRaised s 0x0A)
      else if lengthOk s.cfg t (len.toNat - 1) = false then .next (recordRaised s 0x0A)
      else .next (recordDone s len
        (storeRecord s.cfg s.fs (payloadOff s) t (s.srcBytes (payloadOff s) (len.toNat - 1))))

/-- 41_decode.md R244: what ENCODE wrote, copied to SRC, DECODE reads back: every present kind with its value,
every absent kind absent with zero registers. -/
def Obligations.DecodeOfEncodedFieldSetGivesItBack : Prop :=
  ∀ s t u : State, s.cfg.legal → exec .encode s = .next t → Ended t 0 false →
    s.cfg.encodeSupported = true →
    ¬(s.fs.has .txp = true ∧ s.fs.txp = s.cfg.txPwrAuto) →
    (∀ k : Kind, s.fs.has k = true → (payloadOf s k).length ≤ s.cfg.maxFieldSz) →
    (s.fs.has .sd16 = true → 2 ≤ s.fs.sd16.n.toNat) →
    (s.fs.has .sd32 = true → 4 ≤ s.fs.sd32.n.toNat) →
    (s.fs.has .sd128 = true → 16 ≤ s.fs.sd128.n.toNat) →
    u.cfg = s.cfg → u.inLen = t.outLen → (∀ i, i < t.outLen.toNat → u.src i = t.dst i) →
    ∃ v, exec .decode u = .next v ∧ Ended v 0 false ∧
      ∀ k : Kind, (s.fs.has k = true → SameField s v k) ∧ (s.fs.has k = false → ZeroField v.fs k)

/-! ## The host bus -/

/-- 10_state.md R33: a 32-bit write to `CMD` while idle latches the word and starts the engine, and changes
nothing else. -/
def Obligations.CmdWriteStartsTheEngine : Prop :=
  ∀ (s : State) (v : Word), s.engState = .idle → s.nextMove = .hostWrite s.cfg.base .w32 v →
    step s = .next { s with latch := v, engState := .exec, agenda := s.agenda.tail }

/-- 10_state.md R33, 20_memory.md R98, 42_control.md R264: while busy every host write is ignored, to `CMD` or
elsewhere. That writes of every width and alignment above 0x1200 are admitted is the model's deduction (log
entry 8). -/
def Obligations.WritesWhileBusyAreIgnored : Prop :=
  ∀ (s : State) (off : Nat) (width : Width) (v : Word), s.engState ≠ .idle → off < 0x2000 →
    ¬NotAdmitted off width → s.nextMove = .hostWrite (s.cfg.base + off) width v →
    step s = .next { s with agenda := s.agenda.tail }

/-- 20_memory.md R92, R99: a host read changes nothing of the block, busy or not; while busy it returns a draw
unless it reads `STATUS`, `CAP` or `CAP2`, else it returns what the address map says. How a read is recorded and a
draw counted and narrowed is the model's (log entries 3 and 5), and so is that every access above 0x1200 is
admitted (log entry 8). -/
def Obligations.HostReadsHaveNoSideEffect : Prop :=
  ∀ (s : State) (off : Nat) (width : Width), off < 0x2000 → ¬NotAdmitted off width →
    s.nextMove = .hostRead (s.cfg.base + off) width →
    ∃ t, step s = .next t ∧
      (s.engState ≠ .idle ∧ ¬ExactOffset off → AfterRead s t off (drawOf s.draws width) 1) ∧
      (s.engState = .idle ∨ ExactOffset off → AfterRead s t off (s.busValue off width) 0)

/-- 10_state.md R32, R33, R35, R38 to R56: what a 32-bit host read returns while the block is idle, at every offset
that names a register other than `STATUS`, `CAP` and `CAP2`: its fields at their places, its reserved bits 0, `CMD`
0 (how the read is recorded: log entry 3). -/
def Obligations.RegisterReadsShowTheirFields : Prop :=
  ∀ s : State, s.engState = .idle →
    (∀ p ∈ namedReads s, s.nextMove = .hostRead (s.cfg.base + p.1) .w32 →
      ∃ t, step s = .next t ∧ AfterRead s t p.1 (BitVec.ofNat 32 p.2) 0) ∧
    (∀ i, i < 127 → s.nextMove = .hostRead (s.cfg.base + (0x200 + 4 * i)) .w32 →
      ∃ t, step s = .next t ∧ AfterRead s t (0x200 + 4 * i) (BitVec.ofNat 32 (s.fs.u16At i).toNat) 0) ∧
    (∀ i, i < 63 → s.nextMove = .hostRead (s.cfg.base + (0x400 + 4 * i)) .w32 →
      ∃ t, step s = .next t ∧ AfterRead s t (0x400 + 4 * i) (s.fs.u32At i) 0)

/-- 10_state.md R34, 20_memory.md R99: `STATUS` reads exactly at all times: bit 0 while a command is in
progress, bit 1 while it waits for the collaborator, bit 2 the source of `RESULT`, the others 0. -/
def Obligations.StatusReadIsExactAtAllTimes : Prop :=
  ∀ s : State, s.nextMove = .hostRead (s.cfg.base + 0x004) .w32 →
    ∃ data, step s = .next { s with
        agenda := s.agenda.tail, busReads := ⟨s.cfg.base + 0x004, data⟩ :: s.busReads } ∧
      (data.getLsbD 0 = true ↔ s.engState ≠ .idle) ∧ (data.getLsbD 1 = true ↔ s.engState = .waitTxp) ∧
      data.getLsbD 2 = s.errSrc ∧ ∀ j, 3 ≤ j → data.getLsbD j = false

/-- 10_state.md R36, R37, 20_memory.md R99: a host read of `CAP` and `CAP2` shows the parameters, each in its field,
and the other bits 0, busy or not (how the read is recorded: log entry 3). -/
def Obligations.CapabilityRegistersShowTheParameters : Prop :=
  ∀ s : State, s.cfg.legal →
    (s.nextMove = .hostRead (s.cfg.base + 0x00C) .w32 →
      ∃ t, step s = .next t ∧ AfterRead s t 0x00C (BitVec.ofNat 32 (s.cfg.encodeSupported.toNat +
        2 ^ 8 * s.cfg.maxFieldSz + 2 ^ 16 * s.cfg.devclsLen + 2 ^ 20 * s.cfg.itvlRangeLen +
        2 ^ 24 * s.cfg.leAddrLen + 2 ^ 28 * 1)) 0) ∧
    (s.nextMove = .hostRead (s.cfg.base + 0x010) .w32 →
      ∃ t, step s = .next t ∧ AfterRead s t 0x010 (BitVec.ofNat 32 (s.cfg.txPwrAuto.toNat +
        2 ^ 8 * 127 + 2 ^ 16 * 63)) 0)

/-- 10_state.md R32, R38 to R56: a write to a RW register while idle stores its named bits, reads back with the
reserved bits 0, and changes no other register and no byte of memory. -/
def Obligations.RegisterWriteReadsBackItsBits : Prop :=
  ∀ (s : State) (off : Nat) (v bits : Word) (r : Reg), s.engState = .idle → off < 0x1000 → off % 4 = 0 →
    regAt off = some r → r.storedBits = some bits →
    s.nextMove = .hostWrite (s.cfg.base + off) .w32 v →
    ∃ t, step s = .next t ∧ t.readReg r = v &&& bits ∧
      (∀ r' : Reg, r' ≠ r → t.readReg r' = s.readReg r') ∧ (∀ a, t.readByte a = s.readByte a) ∧
      t.engState = .idle ∧ t.latch = s.latch ∧ t.encK = s.encK ∧ t.cfg = s.cfg

/-- 20_memory.md R92, 10_state.md R34 to R37, R41, R42: a host write while idle to `STATUS`, `RESULT`, `CAP`, `CAP2`,
`CONSUMED` or `DEC_POS` is ignored. -/
def Obligations.ReadOnlyRegistersIgnoreWrites : Prop :=
  ∀ (s : State) (off : Nat) (v : Word), s.engState = .idle → off ∈ readOnlyOffsets →
    s.nextMove = .hostWrite (s.cfg.base + off) .w32 v →
    step s = .next { s with agenda := s.agenda.tail }

/-- 10_state.md R32: reserved offsets read 0 and ignore writes while the block is idle. That every width and alignment
is admitted from 0x1200 on is the model's deduction (log entry 8), how the read is recorded its choice (log entry 3). -/
def Obligations.ReservedOffsetsReadZeroAndIgnoreWrites : Prop :=
  ∀ (s : State) (off : Nat) (width : Width) (v : Word), s.engState = .idle → ReservedAccess off width →
    (s.nextMove = .hostWrite (s.cfg.base + off) width v →
      step s = .next { s with agenda := s.agenda.tail }) ∧
    (s.nextMove = .hostRead (s.cfg.base + off) width →
      ∃ t, step s = .next t ∧ AfterRead s t off 0 0)

/-- 20_memory.md R84: a 32-bit host access to SRC or DST moves four bytes, the byte at the lowest address in bits
[7:0]; an 8-bit access moves one. A write changes no other byte and no register, a read changes nothing. That
the data of an 8-bit access stands in bits [7:0] of a word, zero-filled on a read, and how a read is recorded,
is the model's choice (log entry 3). -/
def Obligations.MemoryAccessesUseLittleEndianLanes : Prop :=
  ∀ (s : State) (off : Nat) (v : Word), s.engState = .idle → 0x1000 ≤ off → off < 0x1200 →
    (off % 4 = 0 → s.nextMove = .hostWrite (s.cfg.base + off) .w32 v →
      ∃ t, step s = .next t ∧ (∀ j, j < 4 → t.readByte (off + j) = v.extractLsb' (8 * j) 8) ∧
        BytesSameOutside s t off 4 ∧ t = { s with mem := t.mem, agenda := s.agenda.tail }) ∧
    (s.nextMove = .hostWrite (s.cfg.base + off) .w8 v →
      ∃ t, step s = .next t ∧ t.readByte off = v.extractLsb' 0 8 ∧
        BytesSameOutside s t off 1 ∧ t = { s with mem := t.mem, agenda := s.agenda.tail }) ∧
    (off % 4 = 0 → s.nextMove = .hostRead (s.cfg.base + off) .w32 →
      ∃ data, step s = .next { s with
          agenda := s.agenda.tail, busReads := ⟨s.cfg.base + off, data⟩ :: s.busReads } ∧
        ∀ j, j < 4 → data.extractLsb' (8 * j) 8 = s.readByte (off + j)) ∧
    (s.nextMove = .hostRead (s.cfg.base + off) .w8 →
      step s = .next { s with
        agenda := s.agenda.tail
        busReads := ⟨s.cfg.base + off, (s.readByte off).setWidth 32⟩ :: s.busReads })

/-- 20_memory.md R86, R87: the model refuses a host access of a width or alignment the bus does not admit, and
admits every other access to the registers, SRC and DST. -/
def Obligations.InadmissibleAccessIsRefused : Prop :=
  ∀ (s : State) (off : Nat) (width : Width) (v : Word), off < 0x1200 →
    (s.nextMove = .hostRead (s.cfg.base + off) width ∨ s.nextMove = .hostWrite (s.cfg.base + off) width v) →
    (NotAdmitted off width → step s = .refused (.inadmissibleAccess off width)) ∧
    (¬NotAdmitted off width → ∃ t, step s = .next t)

/-- 10_state.md R32 and log entry 3: an access outside the 8 KiB window is the only fault; the model's own. -/
def Obligations.OnlyAccessesOutsideTheWindowFault : Prop :=
  ∀ (s : State) (f : Fault), step s = .fault f →
    ∃ addr, f = .outsideWindow addr ∧ (addr < s.cfg.base ∨ s.cfg.base + 0x2000 ≤ addr)

/-- 30_encoding.md R117: a `POLL` reads `STATUS`, ends when bit 0 reads 0 and is repeated before the host's next
access while it reads 1; `X cmd` on an idle block runs the command and ends with `BUSY` 0, also when the command is
an ENCODE that queries and an answer is offered. Which agent moves between two reads is the model's choice (log
entry 3). -/
def Obligations.PollRepeatsUntilTheBlockIsIdle : Prop :=
  (∀ s : State, s.nextMove = .hostPoll →
    ∃ t, step s = .next t ∧
      (s.engState = .idle → AfterRead s t 0x004 s.status 0) ∧
      (s.engState ≠ .idle → ∃ e es,
        t = { s with
          agenda := e :: .hostPoll :: es, busReads := ⟨s.cfg.base + 0x004, s.status⟩ :: s.busReads } ∧
        e.byHost = false ∧ (s.agenda.tail = e :: es ∨ (e = .engine ∧ es = s.agenda.tail)))) ∧
  ∀ (s t : State) (w : Word) (rest : List Event), s.engState = .idle →
    s.agenda = xcmd s.cfg.base w ++ rest → (∀ e ∈ rest.head?, e.byHost = true) →
    exec (decodeCommand w) { s with
      latch := w, engState := .exec, agenda := .hostPoll :: rest
      busReads := ⟨s.cfg.base + 0x004, 1 + 4 * BitVec.ofNat 32 s.errSrc.toNat⟩ :: s.busReads } = .next t →
    (t.engState = .idle →
      core.run 4 s = .next { t with
        agenda := rest, busReads := ⟨s.cfg.base + 0x004, t.status⟩ :: t.busReads }) ∧
    (t.engState ≠ .idle → s.txp.valid = true →
      ∃ u : State, core.run 6 s = .next u ∧ u.engState = .idle ∧ u.agenda = rest ∧ u.cfg = s.cfg)
end

