-- ==== Sys2Proof/Laws/Memory.lean ====
section
/-! SUPPORT. The laws of memory: read after write, and that every operation keeps the canonical form. -/

namespace Sys2Proof.Machine

theorem Memory.get?_set (m : Memory) (a k : Nat) (b : Byte) :
    (Memory.set m a b).get? k = if k = a then some b else m.get? k := by
  induction m with
  | nil => simp [Memory.set, Memory.get?]
  | cons c m ih =>
    obtain ⟨x, y⟩ := c
    simp only [Memory.set]
    by_cases h1 : a < x
    · rw [if_pos h1]
      simp only [Memory.get?]
    · rw [if_neg h1]
      by_cases h2 : a = x
      · subst h2
        by_cases hk : k = a <;> simp [Memory.get?, hk]
      · rw [if_neg h2]
        simp only [Memory.get?, ih]
        by_cases hx : k = x
        · subst hx
          simp [Ne.symm h2]
        · simp [hx]

/-- Read after write of a run of bytes: inside the run the byte written, outside what was there. -/
theorem Memory.get?_setBytes (m : Memory) (a k : Nat) (bs : List Byte) :
    (m.setBytes a bs).get? k =
      if h : a ≤ k ∧ k < a + bs.length then some (bs[k - a]'(by omega)) else m.get? k := by
  induction bs generalizing m a with
  | nil => simp [Memory.setBytes]
  | cons b bs ih =>
    simp only [Memory.setBytes, ih, List.length_cons, Memory.get?_set]
    by_cases hka : k = a
    · subst hka
      simp
    · by_cases hin : a + 1 ≤ k ∧ k < a + 1 + bs.length
      · rw [dif_pos hin, dif_pos (by omega)]
        congr 1
        have : k - a = (k - (a + 1)) + 1 := by omega
        simp [this]
      · rw [dif_neg hin, if_neg hka, dif_neg (by omega)]

/-- A write touches no key below the written one but that one. -/
theorem Memory.mem_set {m : Memory} {a : Nat} {b : Byte} {c : Host.Cell} (h : c ∈ m.set a b) :
    c = (a, b) ∨ c ∈ m := by
  induction m with
  | nil => simpa [Memory.set] using h
  | cons d m ih =>
    obtain ⟨x, y⟩ := d
    simp only [Memory.set] at h
    split_ifs at h with h1 h2
    · simpa using h
    · rcases List.mem_cons.1 h with h | h
      · exact .inl h
      · exact .inr (List.mem_cons_of_mem _ h)
    · rcases List.mem_cons.1 h with h | h
      · exact .inr (by simp [h])
      · exact (ih h).imp id (List.mem_cons_of_mem _)

/-- A write keeps the canonical form. -/
theorem Memory.wf_set {m : Memory} (h : m.wf) (a : Nat) (b : Byte) : (m.set a b).wf := by
  induction m with
  | nil => simp [Memory.set, Memory.wf]
  | cons d m ih =>
    obtain ⟨x, y⟩ := d
    obtain ⟨hx, hm⟩ := List.pairwise_cons.1 h
    simp only [Memory.set]
    split_ifs with h1 h2
    · exact List.pairwise_cons.2 ⟨fun c hc => by
        rcases List.mem_cons.1 hc with rfl | hc
        · exact h1
        · exact Nat.lt_trans h1 (hx c hc), h⟩
    · subst h2
      exact List.pairwise_cons.2 ⟨hx, hm⟩
    · refine List.pairwise_cons.2 ⟨fun c hc => ?_, ih hm⟩
      rcases Memory.mem_set hc with rfl | hc
      · show x < a
        omega
      · exact hx c hc

/-- A run of writes keeps the canonical form. -/
theorem Memory.wf_setBytes {m : Memory} (h : m.wf) (a : Nat) (bs : List Byte) : (m.setBytes a bs).wf := by
  induction bs generalizing m a with
  | nil => exact h
  | cons b bs ih => exact ih (Memory.wf_set h a b) (a + 1)

/-- A run of writes adds only its own keys. -/
theorem Memory.mem_setBytes {m : Memory} {a : Nat} {bs : List Byte} {c : Host.Cell}
    (h : c ∈ m.setBytes a bs) : (a ≤ c.1 ∧ c.1 < a + bs.length) ∨ c ∈ m := by
  induction bs generalizing m a with
  | nil => exact .inr h
  | cons b bs ih =>
    rcases ih h with ⟨h1, h2⟩ | h
    · exact .inl ⟨by omega, by simp; omega⟩
    · rcases Memory.mem_set h with rfl | h
      · exact .inl ⟨le_refl _, by simp⟩
      · exact .inr h

/-- Two memories with the same canonical form and the same recorded bytes are the same data. -/
theorem Memory.eq_of_get? {m n : Memory} (hm : m.wf) (hn : n.wf) (h : ∀ a, m.get? a = n.get? a) : m = n := by
  have lower : ∀ {x : Nat} {y : Byte} {l : Memory}, Memory.wf ((x, y) :: l) → ∀ a, a < x → l.get? a = none := by
    intro x y l hl a ha
    obtain ⟨hx, -⟩ := List.pairwise_cons.1 hl
    clear hl
    induction l with
    | nil => rfl
    | cons d l ih =>
      have h1 := hx d (by simp)
      simp only at h1
      simp only [Memory.get?]
      rw [if_neg (by omega)]
      exact ih fun c hc => hx c (List.mem_cons_of_mem _ hc)
  have self : ∀ {x : Nat} {y : Byte} {l : Memory}, Memory.wf ((x, y) :: l) → l.get? x = none := by
    intro x y l hl
    obtain ⟨hx, -⟩ := List.pairwise_cons.1 hl
    clear hl
    induction l with
    | nil => rfl
    | cons d l ih =>
      have h1 := hx d (by simp)
      simp only at h1
      simp only [Memory.get?]
      rw [if_neg (by omega)]
      exact ih fun c hc => hx c (List.mem_cons_of_mem _ hc)
  induction m generalizing n with
  | nil =>
    cases n with
    | nil => rfl
    | cons d n => simpa [Memory.get?] using h d.1
  | cons c m ih =>
    obtain ⟨x, y⟩ := c
    cases n with
    | nil => simpa [Memory.get?] using h x
    | cons d n =>
      obtain ⟨x', y'⟩ := d
      have hxx : x = x' := by
        rcases Nat.lt_trichotomy x x' with hlt | heq | hgt
        · have := h x
          simp [Memory.get?, Nat.ne_of_lt hlt, lower hn x hlt] at this
        · exact heq
        · have := h x'
          simp [Memory.get?, Nat.ne_of_lt hgt, lower hm x' hgt] at this
      subst hxx
      have hyy : y = y' := by simpa [Memory.get?] using h x
      subst hyy
      rw [ih (List.pairwise_cons.1 hm).2 (List.pairwise_cons.1 hn).2 fun a => ?_]
      by_cases ha : a = x
      · subst ha
        rw [self hm, self hn]
      · simpa [Memory.get?, ha] using h a

/-- A byte of the machine's memory after a run of writes. -/
theorem State.readByte_setBytes (s : State) (a k : Nat) (bs : List Byte) :
    State.readByte { s with mem := s.mem.setBytes a bs } k =
      if h : a ≤ k ∧ k < a + bs.length then bs[k - a]'(by omega) else s.readByte k := by
  simp only [State.readByte, Memory.get?_setBytes]
  by_cases h : a ≤ k ∧ k < a + bs.length
  · simp only [dif_pos h]
  · simp only [dif_neg h]

/-- A byte after a write to DST. -/
theorem State.readByte_writeDst (s : State) (a k : Nat) (bs : List Byte) :
    (s.writeDst a bs).readByte k =
      if h : dstBase + a ≤ k ∧ k < dstBase + a + bs.length then bs[k - (dstBase + a)]'(by omega)
      else s.readByte k :=
  s.readByte_setBytes (dstBase + a) k bs

/-- A write to DST changes no byte of SRC. -/
theorem State.src_writeDst (s : State) (a k : Nat) (bs : List Byte) (h : k < 256) :
    (s.writeDst a bs).src k = s.src k := by
  simp only [State.src, State.readByte_writeDst]
  rw [dif_neg (by simp only [srcBase, dstBase]; omega)]

/-- `MemRead(SRC, off, n)` reads `n` bytes. -/
@[simp] theorem State.length_srcBytes (s : State) (off n : Nat) : (s.srcBytes off n).length = n := by
  simp [State.srcBytes]

@[simp] theorem State.getElem_srcBytes (s : State) (off n i : Nat) (h : i < (s.srcBytes off n).length) :
    (s.srcBytes off n)[i] = s.src (off + i) := by
  simp [State.srcBytes]

end Sys2Proof.Machine
end

