-- ==== Sys2Proof/Laws/State.lean ====
section
/-! SUPPORT. One lemma for each field under each update of the state, so that no proof unfolds an update. -/

namespace Sys2Proof.Machine

/-! ### writeDst -/

@[simp] theorem State.writeDst_cfg (s : State) (a : Nat) (bs : List Byte) :
    (s.writeDst a bs).cfg = s.cfg := rfl
@[simp] theorem State.writeDst_result (s : State) (a : Nat) (bs : List Byte) :
    (s.writeDst a bs).result = s.result := rfl
@[simp] theorem State.writeDst_errSrc (s : State) (a : Nat) (bs : List Byte) :
    (s.writeDst a bs).errSrc = s.errSrc := rfl
@[simp] theorem State.writeDst_maxLen (s : State) (a : Nat) (bs : List Byte) :
    (s.writeDst a bs).maxLen = s.maxLen := rfl
@[simp] theorem State.writeDst_outLen (s : State) (a : Nat) (bs : List Byte) :
    (s.writeDst a bs).outLen = s.outLen := rfl
@[simp] theorem State.writeDst_inLen (s : State) (a : Nat) (bs : List Byte) :
    (s.writeDst a bs).inLen = s.inLen := rfl
@[simp] theorem State.writeDst_consumed (s : State) (a : Nat) (bs : List Byte) :
    (s.writeDst a bs).consumed = s.consumed := rfl
@[simp] theorem State.writeDst_decPos (s : State) (a : Nat) (bs : List Byte) :
    (s.writeDst a bs).decPos = s.decPos := rfl
@[simp] theorem State.writeDst_fs (s : State) (a : Nat) (bs : List Byte) :
    (s.writeDst a bs).fs = s.fs := rfl
@[simp] theorem State.writeDst_mem (s : State) (a : Nat) (bs : List Byte) :
    (s.writeDst a bs).mem = s.mem.setBytes (dstBase + a) bs := rfl
@[simp] theorem State.writeDst_engState (s : State) (a : Nat) (bs : List Byte) :
    (s.writeDst a bs).engState = s.engState := rfl
@[simp] theorem State.writeDst_latch (s : State) (a : Nat) (bs : List Byte) :
    (s.writeDst a bs).latch = s.latch := rfl
@[simp] theorem State.writeDst_encK (s : State) (a : Nat) (bs : List Byte) :
    (s.writeDst a bs).encK = s.encK := rfl
@[simp] theorem State.writeDst_txp (s : State) (a : Nat) (bs : List Byte) :
    (s.writeDst a bs).txp = s.txp := rfl
@[simp] theorem State.writeDst_agenda (s : State) (a : Nat) (bs : List Byte) :
    (s.writeDst a bs).agenda = s.agenda := rfl
@[simp] theorem State.writeDst_busReads (s : State) (a : Nat) (bs : List Byte) :
    (s.writeDst a bs).busReads = s.busReads := rfl
@[simp] theorem State.writeDst_draws (s : State) (a : Nat) (bs : List Byte) :
    (s.writeDst a bs).draws = s.draws := rfl
@[simp] theorem State.writeDst_epoch (s : State) (a : Nat) (bs : List Byte) :
    (s.writeDst a bs).epoch = s.epoch := rfl

/-! ### setEncK -/

@[simp] theorem State.setEncK_cfg (s : State) (k : Nat) :
    (s.setEncK k).cfg = s.cfg := rfl
@[simp] theorem State.setEncK_result (s : State) (k : Nat) :
    (s.setEncK k).result = s.result := rfl
@[simp] theorem State.setEncK_errSrc (s : State) (k : Nat) :
    (s.setEncK k).errSrc = s.errSrc := rfl
@[simp] theorem State.setEncK_maxLen (s : State) (k : Nat) :
    (s.setEncK k).maxLen = s.maxLen := rfl
@[simp] theorem State.setEncK_outLen (s : State) (k : Nat) :
    (s.setEncK k).outLen = s.outLen := rfl
@[simp] theorem State.setEncK_inLen (s : State) (k : Nat) :
    (s.setEncK k).inLen = s.inLen := rfl
@[simp] theorem State.setEncK_consumed (s : State) (k : Nat) :
    (s.setEncK k).consumed = s.consumed := rfl
@[simp] theorem State.setEncK_decPos (s : State) (k : Nat) :
    (s.setEncK k).decPos = s.decPos := rfl
@[simp] theorem State.setEncK_fs (s : State) (k : Nat) :
    (s.setEncK k).fs = s.fs := rfl
@[simp] theorem State.setEncK_mem (s : State) (k : Nat) :
    (s.setEncK k).mem = s.mem := rfl
@[simp] theorem State.setEncK_engState (s : State) (k : Nat) :
    (s.setEncK k).engState = s.engState := rfl
@[simp] theorem State.setEncK_latch (s : State) (k : Nat) :
    (s.setEncK k).latch = s.latch := rfl
@[simp] theorem State.setEncK_encK (s : State) (k : Nat) :
    (s.setEncK k).encK = k := rfl
@[simp] theorem State.setEncK_txp (s : State) (k : Nat) :
    (s.setEncK k).txp = s.txp := rfl
@[simp] theorem State.setEncK_agenda (s : State) (k : Nat) :
    (s.setEncK k).agenda = s.agenda := rfl
@[simp] theorem State.setEncK_busReads (s : State) (k : Nat) :
    (s.setEncK k).busReads = s.busReads := rfl
@[simp] theorem State.setEncK_draws (s : State) (k : Nat) :
    (s.setEncK k).draws = s.draws := rfl
@[simp] theorem State.setEncK_epoch (s : State) (k : Nat) :
    (s.setEncK k).epoch = s.epoch := rfl

/-! ### setEngState -/

@[simp] theorem State.setEngState_cfg (s : State) (e : EngState) :
    (s.setEngState e).cfg = s.cfg := rfl
@[simp] theorem State.setEngState_result (s : State) (e : EngState) :
    (s.setEngState e).result = s.result := rfl
@[simp] theorem State.setEngState_errSrc (s : State) (e : EngState) :
    (s.setEngState e).errSrc = s.errSrc := rfl
@[simp] theorem State.setEngState_maxLen (s : State) (e : EngState) :
    (s.setEngState e).maxLen = s.maxLen := rfl
@[simp] theorem State.setEngState_outLen (s : State) (e : EngState) :
    (s.setEngState e).outLen = s.outLen := rfl
@[simp] theorem State.setEngState_inLen (s : State) (e : EngState) :
    (s.setEngState e).inLen = s.inLen := rfl
@[simp] theorem State.setEngState_consumed (s : State) (e : EngState) :
    (s.setEngState e).consumed = s.consumed := rfl
@[simp] theorem State.setEngState_decPos (s : State) (e : EngState) :
    (s.setEngState e).decPos = s.decPos := rfl
@[simp] theorem State.setEngState_fs (s : State) (e : EngState) :
    (s.setEngState e).fs = s.fs := rfl
@[simp] theorem State.setEngState_mem (s : State) (e : EngState) :
    (s.setEngState e).mem = s.mem := rfl
@[simp] theorem State.setEngState_engState (s : State) (e : EngState) :
    (s.setEngState e).engState = e := rfl
@[simp] theorem State.setEngState_latch (s : State) (e : EngState) :
    (s.setEngState e).latch = s.latch := rfl
@[simp] theorem State.setEngState_encK (s : State) (e : EngState) :
    (s.setEngState e).encK = s.encK := rfl
@[simp] theorem State.setEngState_txp (s : State) (e : EngState) :
    (s.setEngState e).txp = s.txp := rfl
@[simp] theorem State.setEngState_agenda (s : State) (e : EngState) :
    (s.setEngState e).agenda = s.agenda := rfl
@[simp] theorem State.setEngState_busReads (s : State) (e : EngState) :
    (s.setEngState e).busReads = s.busReads := rfl
@[simp] theorem State.setEngState_draws (s : State) (e : EngState) :
    (s.setEngState e).draws = s.draws := rfl
@[simp] theorem State.setEngState_epoch (s : State) (e : EngState) :
    (s.setEngState e).epoch = s.epoch := rfl

/-! ### setOutLen -/

@[simp] theorem State.setOutLen_cfg (s : State) (n : Nat) :
    (s.setOutLen n).cfg = s.cfg := rfl
@[simp] theorem State.setOutLen_result (s : State) (n : Nat) :
    (s.setOutLen n).result = s.result := rfl
@[simp] theorem State.setOutLen_errSrc (s : State) (n : Nat) :
    (s.setOutLen n).errSrc = s.errSrc := rfl
@[simp] theorem State.setOutLen_maxLen (s : State) (n : Nat) :
    (s.setOutLen n).maxLen = s.maxLen := rfl
@[simp] theorem State.setOutLen_outLen (s : State) (n : Nat) :
    (s.setOutLen n).outLen = BitVec.ofNat 8 n := rfl
@[simp] theorem State.setOutLen_inLen (s : State) (n : Nat) :
    (s.setOutLen n).inLen = s.inLen := rfl
@[simp] theorem State.setOutLen_consumed (s : State) (n : Nat) :
    (s.setOutLen n).consumed = s.consumed := rfl
@[simp] theorem State.setOutLen_decPos (s : State) (n : Nat) :
    (s.setOutLen n).decPos = s.decPos := rfl
@[simp] theorem State.setOutLen_fs (s : State) (n : Nat) :
    (s.setOutLen n).fs = s.fs := rfl
@[simp] theorem State.setOutLen_mem (s : State) (n : Nat) :
    (s.setOutLen n).mem = s.mem := rfl
@[simp] theorem State.setOutLen_engState (s : State) (n : Nat) :
    (s.setOutLen n).engState = s.engState := rfl
@[simp] theorem State.setOutLen_latch (s : State) (n : Nat) :
    (s.setOutLen n).latch = s.latch := rfl
@[simp] theorem State.setOutLen_encK (s : State) (n : Nat) :
    (s.setOutLen n).encK = s.encK := rfl
@[simp] theorem State.setOutLen_txp (s : State) (n : Nat) :
    (s.setOutLen n).txp = s.txp := rfl
@[simp] theorem State.setOutLen_agenda (s : State) (n : Nat) :
    (s.setOutLen n).agenda = s.agenda := rfl
@[simp] theorem State.setOutLen_busReads (s : State) (n : Nat) :
    (s.setOutLen n).busReads = s.busReads := rfl
@[simp] theorem State.setOutLen_draws (s : State) (n : Nat) :
    (s.setOutLen n).draws = s.draws := rfl
@[simp] theorem State.setOutLen_epoch (s : State) (n : Nat) :
    (s.setOutLen n).epoch = s.epoch := rfl

/-! ### setConsumed -/

@[simp] theorem State.setConsumed_cfg (s : State) (n : Nat) :
    (s.setConsumed n).cfg = s.cfg := rfl
@[simp] theorem State.setConsumed_result (s : State) (n : Nat) :
    (s.setConsumed n).result = s.result := rfl
@[simp] theorem State.setConsumed_errSrc (s : State) (n : Nat) :
    (s.setConsumed n).errSrc = s.errSrc := rfl
@[simp] theorem State.setConsumed_maxLen (s : State) (n : Nat) :
    (s.setConsumed n).maxLen = s.maxLen := rfl
@[simp] theorem State.setConsumed_outLen (s : State) (n : Nat) :
    (s.setConsumed n).outLen = s.outLen := rfl
@[simp] theorem State.setConsumed_inLen (s : State) (n : Nat) :
    (s.setConsumed n).inLen = s.inLen := rfl
@[simp] theorem State.setConsumed_consumed (s : State) (n : Nat) :
    (s.setConsumed n).consumed = BitVec.ofNat 8 n := rfl
@[simp] theorem State.setConsumed_decPos (s : State) (n : Nat) :
    (s.setConsumed n).decPos = s.decPos := rfl
@[simp] theorem State.setConsumed_fs (s : State) (n : Nat) :
    (s.setConsumed n).fs = s.fs := rfl
@[simp] theorem State.setConsumed_mem (s : State) (n : Nat) :
    (s.setConsumed n).mem = s.mem := rfl
@[simp] theorem State.setConsumed_engState (s : State) (n : Nat) :
    (s.setConsumed n).engState = s.engState := rfl
@[simp] theorem State.setConsumed_latch (s : State) (n : Nat) :
    (s.setConsumed n).latch = s.latch := rfl
@[simp] theorem State.setConsumed_encK (s : State) (n : Nat) :
    (s.setConsumed n).encK = s.encK := rfl
@[simp] theorem State.setConsumed_txp (s : State) (n : Nat) :
    (s.setConsumed n).txp = s.txp := rfl
@[simp] theorem State.setConsumed_agenda (s : State) (n : Nat) :
    (s.setConsumed n).agenda = s.agenda := rfl
@[simp] theorem State.setConsumed_busReads (s : State) (n : Nat) :
    (s.setConsumed n).busReads = s.busReads := rfl
@[simp] theorem State.setConsumed_draws (s : State) (n : Nat) :
    (s.setConsumed n).draws = s.draws := rfl
@[simp] theorem State.setConsumed_epoch (s : State) (n : Nat) :
    (s.setConsumed n).epoch = s.epoch := rfl

/-! ### setDecPos -/

@[simp] theorem State.setDecPos_cfg (s : State) (p : Nat) :
    (s.setDecPos p).cfg = s.cfg := rfl
@[simp] theorem State.setDecPos_result (s : State) (p : Nat) :
    (s.setDecPos p).result = s.result := rfl
@[simp] theorem State.setDecPos_errSrc (s : State) (p : Nat) :
    (s.setDecPos p).errSrc = s.errSrc := rfl
@[simp] theorem State.setDecPos_maxLen (s : State) (p : Nat) :
    (s.setDecPos p).maxLen = s.maxLen := rfl
@[simp] theorem State.setDecPos_outLen (s : State) (p : Nat) :
    (s.setDecPos p).outLen = s.outLen := rfl
@[simp] theorem State.setDecPos_inLen (s : State) (p : Nat) :
    (s.setDecPos p).inLen = s.inLen := rfl
@[simp] theorem State.setDecPos_consumed (s : State) (p : Nat) :
    (s.setDecPos p).consumed = s.consumed := rfl
@[simp] theorem State.setDecPos_decPos (s : State) (p : Nat) :
    (s.setDecPos p).decPos = BitVec.ofNat 8 p := rfl
@[simp] theorem State.setDecPos_fs (s : State) (p : Nat) :
    (s.setDecPos p).fs = s.fs := rfl
@[simp] theorem State.setDecPos_mem (s : State) (p : Nat) :
    (s.setDecPos p).mem = s.mem := rfl
@[simp] theorem State.setDecPos_engState (s : State) (p : Nat) :
    (s.setDecPos p).engState = s.engState := rfl
@[simp] theorem State.setDecPos_latch (s : State) (p : Nat) :
    (s.setDecPos p).latch = s.latch := rfl
@[simp] theorem State.setDecPos_encK (s : State) (p : Nat) :
    (s.setDecPos p).encK = s.encK := rfl
@[simp] theorem State.setDecPos_txp (s : State) (p : Nat) :
    (s.setDecPos p).txp = s.txp := rfl
@[simp] theorem State.setDecPos_agenda (s : State) (p : Nat) :
    (s.setDecPos p).agenda = s.agenda := rfl
@[simp] theorem State.setDecPos_busReads (s : State) (p : Nat) :
    (s.setDecPos p).busReads = s.busReads := rfl
@[simp] theorem State.setDecPos_draws (s : State) (p : Nat) :
    (s.setDecPos p).draws = s.draws := rfl
@[simp] theorem State.setDecPos_epoch (s : State) (p : Nat) :
    (s.setDecPos p).epoch = s.epoch := rfl

/-! ### setFs -/

@[simp] theorem State.setFs_cfg (s : State) (fs : FieldSet) :
    (s.setFs fs).cfg = s.cfg := rfl
@[simp] theorem State.setFs_result (s : State) (fs : FieldSet) :
    (s.setFs fs).result = s.result := rfl
@[simp] theorem State.setFs_errSrc (s : State) (fs : FieldSet) :
    (s.setFs fs).errSrc = s.errSrc := rfl
@[simp] theorem State.setFs_maxLen (s : State) (fs : FieldSet) :
    (s.setFs fs).maxLen = s.maxLen := rfl
@[simp] theorem State.setFs_outLen (s : State) (fs : FieldSet) :
    (s.setFs fs).outLen = s.outLen := rfl
@[simp] theorem State.setFs_inLen (s : State) (fs : FieldSet) :
    (s.setFs fs).inLen = s.inLen := rfl
@[simp] theorem State.setFs_consumed (s : State) (fs : FieldSet) :
    (s.setFs fs).consumed = s.consumed := rfl
@[simp] theorem State.setFs_decPos (s : State) (fs : FieldSet) :
    (s.setFs fs).decPos = s.decPos := rfl
@[simp] theorem State.setFs_fs (s : State) (fs : FieldSet) :
    (s.setFs fs).fs = fs := rfl
@[simp] theorem State.setFs_mem (s : State) (fs : FieldSet) :
    (s.setFs fs).mem = s.mem := rfl
@[simp] theorem State.setFs_engState (s : State) (fs : FieldSet) :
    (s.setFs fs).engState = s.engState := rfl
@[simp] theorem State.setFs_latch (s : State) (fs : FieldSet) :
    (s.setFs fs).latch = s.latch := rfl
@[simp] theorem State.setFs_encK (s : State) (fs : FieldSet) :
    (s.setFs fs).encK = s.encK := rfl
@[simp] theorem State.setFs_txp (s : State) (fs : FieldSet) :
    (s.setFs fs).txp = s.txp := rfl
@[simp] theorem State.setFs_agenda (s : State) (fs : FieldSet) :
    (s.setFs fs).agenda = s.agenda := rfl
@[simp] theorem State.setFs_busReads (s : State) (fs : FieldSet) :
    (s.setFs fs).busReads = s.busReads := rfl
@[simp] theorem State.setFs_draws (s : State) (fs : FieldSet) :
    (s.setFs fs).draws = s.draws := rfl
@[simp] theorem State.setFs_epoch (s : State) (fs : FieldSet) :
    (s.setFs fs).epoch = s.epoch := rfl

/-! ### complete -/

@[simp] theorem State.complete_cfg (s : State) :
    s.complete.cfg = s.cfg := rfl
@[simp] theorem State.complete_result (s : State) :
    s.complete.result = 0 := rfl
@[simp] theorem State.complete_errSrc (s : State) :
    s.complete.errSrc = false := rfl
@[simp] theorem State.complete_maxLen (s : State) :
    s.complete.maxLen = s.maxLen := rfl
@[simp] theorem State.complete_outLen (s : State) :
    s.complete.outLen = s.outLen := rfl
@[simp] theorem State.complete_inLen (s : State) :
    s.complete.inLen = s.inLen := rfl
@[simp] theorem State.complete_consumed (s : State) :
    s.complete.consumed = s.consumed := rfl
@[simp] theorem State.complete_decPos (s : State) :
    s.complete.decPos = s.decPos := rfl
@[simp] theorem State.complete_fs (s : State) :
    s.complete.fs = s.fs := rfl
@[simp] theorem State.complete_mem (s : State) :
    s.complete.mem = s.mem := rfl
@[simp] theorem State.complete_engState (s : State) :
    s.complete.engState = .idle := rfl
@[simp] theorem State.complete_latch (s : State) :
    s.complete.latch = s.latch := rfl
@[simp] theorem State.complete_encK (s : State) :
    s.complete.encK = s.encK := rfl
@[simp] theorem State.complete_txp (s : State) :
    s.complete.txp = s.txp := rfl
@[simp] theorem State.complete_agenda (s : State) :
    s.complete.agenda = s.agenda := rfl
@[simp] theorem State.complete_busReads (s : State) :
    s.complete.busReads = s.busReads := rfl
@[simp] theorem State.complete_draws (s : State) :
    s.complete.draws = s.draws := rfl
@[simp] theorem State.complete_epoch (s : State) :
    s.complete.epoch = s.epoch := rfl

/-! ### raise -/

@[simp] theorem State.raise_cfg (s : State) (e : Err) :
    (s.raise e).cfg = s.cfg := rfl
@[simp] theorem State.raise_result (s : State) (e : Err) :
    (s.raise e).result = e.value := rfl
@[simp] theorem State.raise_errSrc (s : State) (e : Err) :
    (s.raise e).errSrc = e.fromCollab := rfl
@[simp] theorem State.raise_maxLen (s : State) (e : Err) :
    (s.raise e).maxLen = s.maxLen := rfl
@[simp] theorem State.raise_outLen (s : State) (e : Err) :
    (s.raise e).outLen = s.outLen := rfl
@[simp] theorem State.raise_inLen (s : State) (e : Err) :
    (s.raise e).inLen = s.inLen := rfl
@[simp] theorem State.raise_consumed (s : State) (e : Err) :
    (s.raise e).consumed = s.consumed := rfl
@[simp] theorem State.raise_decPos (s : State) (e : Err) :
    (s.raise e).decPos = s.decPos := rfl
@[simp] theorem State.raise_fs (s : State) (e : Err) :
    (s.raise e).fs = s.fs := rfl
@[simp] theorem State.raise_mem (s : State) (e : Err) :
    (s.raise e).mem = s.mem := rfl
@[simp] theorem State.raise_engState (s : State) (e : Err) :
    (s.raise e).engState = .idle := rfl
@[simp] theorem State.raise_latch (s : State) (e : Err) :
    (s.raise e).latch = s.latch := rfl
@[simp] theorem State.raise_encK (s : State) (e : Err) :
    (s.raise e).encK = s.encK := rfl
@[simp] theorem State.raise_txp (s : State) (e : Err) :
    (s.raise e).txp = s.txp := rfl
@[simp] theorem State.raise_agenda (s : State) (e : Err) :
    (s.raise e).agenda = s.agenda := rfl
@[simp] theorem State.raise_busReads (s : State) (e : Err) :
    (s.raise e).busReads = s.busReads := rfl
@[simp] theorem State.raise_draws (s : State) (e : Err) :
    (s.raise e).draws = s.draws := rfl
@[simp] theorem State.raise_epoch (s : State) (e : Err) :
    (s.raise e).epoch = s.epoch := rfl

/-! ### fsClear -/

@[simp] theorem State.fsClear_cfg (s : State) :
    s.fsClear.cfg = s.cfg := rfl
@[simp] theorem State.fsClear_result (s : State) :
    s.fsClear.result = s.result := rfl
@[simp] theorem State.fsClear_errSrc (s : State) :
    s.fsClear.errSrc = s.errSrc := rfl
@[simp] theorem State.fsClear_maxLen (s : State) :
    s.fsClear.maxLen = s.maxLen := rfl
@[simp] theorem State.fsClear_outLen (s : State) :
    s.fsClear.outLen = s.outLen := rfl
@[simp] theorem State.fsClear_inLen (s : State) :
    s.fsClear.inLen = s.inLen := rfl
@[simp] theorem State.fsClear_consumed (s : State) :
    s.fsClear.consumed = s.consumed := rfl
@[simp] theorem State.fsClear_decPos (s : State) :
    s.fsClear.decPos = s.decPos := rfl
@[simp] theorem State.fsClear_fs (s : State) :
    s.fsClear.fs = .zero := rfl
@[simp] theorem State.fsClear_mem (s : State) :
    s.fsClear.mem = s.mem := rfl
@[simp] theorem State.fsClear_engState (s : State) :
    s.fsClear.engState = s.engState := rfl
@[simp] theorem State.fsClear_latch (s : State) :
    s.fsClear.latch = s.latch := rfl
@[simp] theorem State.fsClear_encK (s : State) :
    s.fsClear.encK = s.encK := rfl
@[simp] theorem State.fsClear_txp (s : State) :
    s.fsClear.txp = s.txp := rfl
@[simp] theorem State.fsClear_agenda (s : State) :
    s.fsClear.agenda = s.agenda := rfl
@[simp] theorem State.fsClear_busReads (s : State) :
    s.fsClear.busReads = s.busReads := rfl
@[simp] theorem State.fsClear_draws (s : State) :
    s.fsClear.draws = s.draws := rfl
@[simp] theorem State.fsClear_epoch (s : State) :
    s.fsClear.epoch = s.epoch := rfl

/-! ### putHdr -/

@[simp] theorem putHdr_cfg (t : Byte) (n : Nat) (s : State) :
    (putHdr t n s).cfg = s.cfg := rfl
@[simp] theorem putHdr_result (t : Byte) (n : Nat) (s : State) :
    (putHdr t n s).result = s.result := rfl
@[simp] theorem putHdr_errSrc (t : Byte) (n : Nat) (s : State) :
    (putHdr t n s).errSrc = s.errSrc := rfl
@[simp] theorem putHdr_maxLen (t : Byte) (n : Nat) (s : State) :
    (putHdr t n s).maxLen = s.maxLen := rfl
@[simp] theorem putHdr_outLen (t : Byte) (n : Nat) (s : State) :
    (putHdr t n s).outLen = BitVec.ofNat 8 (s.outLen.toNat + 2) := rfl
@[simp] theorem putHdr_inLen (t : Byte) (n : Nat) (s : State) :
    (putHdr t n s).inLen = s.inLen := rfl
@[simp] theorem putHdr_consumed (t : Byte) (n : Nat) (s : State) :
    (putHdr t n s).consumed = s.consumed := rfl
@[simp] theorem putHdr_decPos (t : Byte) (n : Nat) (s : State) :
    (putHdr t n s).decPos = s.decPos := rfl
@[simp] theorem putHdr_fs (t : Byte) (n : Nat) (s : State) :
    (putHdr t n s).fs = s.fs := rfl
@[simp] theorem putHdr_mem (t : Byte) (n : Nat) (s : State) :
    (putHdr t n s).mem = s.mem.setBytes (dstBase + s.outLen.toNat) [BitVec.ofNat 8 (n + 1), t] := rfl
@[simp] theorem putHdr_engState (t : Byte) (n : Nat) (s : State) :
    (putHdr t n s).engState = s.engState := rfl
@[simp] theorem putHdr_latch (t : Byte) (n : Nat) (s : State) :
    (putHdr t n s).latch = s.latch := rfl
@[simp] theorem putHdr_encK (t : Byte) (n : Nat) (s : State) :
    (putHdr t n s).encK = s.encK := rfl
@[simp] theorem putHdr_txp (t : Byte) (n : Nat) (s : State) :
    (putHdr t n s).txp = s.txp := rfl
@[simp] theorem putHdr_agenda (t : Byte) (n : Nat) (s : State) :
    (putHdr t n s).agenda = s.agenda := rfl
@[simp] theorem putHdr_busReads (t : Byte) (n : Nat) (s : State) :
    (putHdr t n s).busReads = s.busReads := rfl
@[simp] theorem putHdr_draws (t : Byte) (n : Nat) (s : State) :
    (putHdr t n s).draws = s.draws := rfl
@[simp] theorem putHdr_epoch (t : Byte) (n : Nat) (s : State) :
    (putHdr t n s).epoch = s.epoch := rfl

/-! ### putPayload -/

@[simp] theorem putPayload_cfg (bs : List Byte) (s : State) :
    (putPayload bs s).cfg = s.cfg := rfl
@[simp] theorem putPayload_result (bs : List Byte) (s : State) :
    (putPayload bs s).result = s.result := rfl
@[simp] theorem putPayload_errSrc (bs : List Byte) (s : State) :
    (putPayload bs s).errSrc = s.errSrc := rfl
@[simp] theorem putPayload_maxLen (bs : List Byte) (s : State) :
    (putPayload bs s).maxLen = s.maxLen := rfl
@[simp] theorem putPayload_outLen (bs : List Byte) (s : State) :
    (putPayload bs s).outLen = BitVec.ofNat 8 (s.outLen.toNat + bs.length) := rfl
@[simp] theorem putPayload_inLen (bs : List Byte) (s : State) :
    (putPayload bs s).inLen = s.inLen := rfl
@[simp] theorem putPayload_consumed (bs : List Byte) (s : State) :
    (putPayload bs s).consumed = s.consumed := rfl
@[simp] theorem putPayload_decPos (bs : List Byte) (s : State) :
    (putPayload bs s).decPos = s.decPos := rfl
@[simp] theorem putPayload_fs (bs : List Byte) (s : State) :
    (putPayload bs s).fs = s.fs := rfl
@[simp] theorem putPayload_mem (bs : List Byte) (s : State) :
    (putPayload bs s).mem = s.mem.setBytes (dstBase + s.outLen.toNat) bs := rfl
@[simp] theorem putPayload_engState (bs : List Byte) (s : State) :
    (putPayload bs s).engState = s.engState := rfl
@[simp] theorem putPayload_latch (bs : List Byte) (s : State) :
    (putPayload bs s).latch = s.latch := rfl
@[simp] theorem putPayload_encK (bs : List Byte) (s : State) :
    (putPayload bs s).encK = s.encK := rfl
@[simp] theorem putPayload_txp (bs : List Byte) (s : State) :
    (putPayload bs s).txp = s.txp := rfl
@[simp] theorem putPayload_agenda (bs : List Byte) (s : State) :
    (putPayload bs s).agenda = s.agenda := rfl
@[simp] theorem putPayload_busReads (bs : List Byte) (s : State) :
    (putPayload bs s).busReads = s.busReads := rfl
@[simp] theorem putPayload_draws (bs : List Byte) (s : State) :
    (putPayload bs s).draws = s.draws := rfl
@[simp] theorem putPayload_epoch (bs : List Byte) (s : State) :
    (putPayload bs s).epoch = s.epoch := rfl

/-! ### popMove -/

@[simp] theorem State.popMove_cfg (s : State) :
    s.popMove.cfg = s.cfg := rfl
@[simp] theorem State.popMove_result (s : State) :
    s.popMove.result = s.result := rfl
@[simp] theorem State.popMove_errSrc (s : State) :
    s.popMove.errSrc = s.errSrc := rfl
@[simp] theorem State.popMove_maxLen (s : State) :
    s.popMove.maxLen = s.maxLen := rfl
@[simp] theorem State.popMove_outLen (s : State) :
    s.popMove.outLen = s.outLen := rfl
@[simp] theorem State.popMove_inLen (s : State) :
    s.popMove.inLen = s.inLen := rfl
@[simp] theorem State.popMove_consumed (s : State) :
    s.popMove.consumed = s.consumed := rfl
@[simp] theorem State.popMove_decPos (s : State) :
    s.popMove.decPos = s.decPos := rfl
@[simp] theorem State.popMove_fs (s : State) :
    s.popMove.fs = s.fs := rfl
@[simp] theorem State.popMove_mem (s : State) :
    s.popMove.mem = s.mem := rfl
@[simp] theorem State.popMove_engState (s : State) :
    s.popMove.engState = s.engState := rfl
@[simp] theorem State.popMove_latch (s : State) :
    s.popMove.latch = s.latch := rfl
@[simp] theorem State.popMove_encK (s : State) :
    s.popMove.encK = s.encK := rfl
@[simp] theorem State.popMove_txp (s : State) :
    s.popMove.txp = s.txp := rfl
@[simp] theorem State.popMove_agenda (s : State) :
    s.popMove.agenda = s.agenda.tail := rfl
@[simp] theorem State.popMove_busReads (s : State) :
    s.popMove.busReads = s.busReads := rfl
@[simp] theorem State.popMove_draws (s : State) :
    s.popMove.draws = s.draws := rfl
@[simp] theorem State.popMove_epoch (s : State) :
    s.popMove.epoch = s.epoch := rfl

/-! ### placeCommand -/

@[simp] theorem State.placeCommand_cfg (s : State) (w : Word) :
    (s.placeCommand w).cfg = s.cfg := rfl
@[simp] theorem State.placeCommand_result (s : State) (w : Word) :
    (s.placeCommand w).result = s.result := rfl
@[simp] theorem State.placeCommand_errSrc (s : State) (w : Word) :
    (s.placeCommand w).errSrc = s.errSrc := rfl
@[simp] theorem State.placeCommand_maxLen (s : State) (w : Word) :
    (s.placeCommand w).maxLen = s.maxLen := rfl
@[simp] theorem State.placeCommand_outLen (s : State) (w : Word) :
    (s.placeCommand w).outLen = s.outLen := rfl
@[simp] theorem State.placeCommand_inLen (s : State) (w : Word) :
    (s.placeCommand w).inLen = s.inLen := rfl
@[simp] theorem State.placeCommand_consumed (s : State) (w : Word) :
    (s.placeCommand w).consumed = s.consumed := rfl
@[simp] theorem State.placeCommand_decPos (s : State) (w : Word) :
    (s.placeCommand w).decPos = s.decPos := rfl
@[simp] theorem State.placeCommand_fs (s : State) (w : Word) :
    (s.placeCommand w).fs = s.fs := rfl
@[simp] theorem State.placeCommand_mem (s : State) (w : Word) :
    (s.placeCommand w).mem = s.mem := rfl
@[simp] theorem State.placeCommand_engState (s : State) (w : Word) :
    (s.placeCommand w).engState = .exec := rfl
@[simp] theorem State.placeCommand_latch (s : State) (w : Word) :
    (s.placeCommand w).latch = w := rfl
@[simp] theorem State.placeCommand_encK (s : State) (w : Word) :
    (s.placeCommand w).encK = s.encK := rfl
@[simp] theorem State.placeCommand_txp (s : State) (w : Word) :
    (s.placeCommand w).txp = s.txp := rfl
@[simp] theorem State.placeCommand_agenda (s : State) (w : Word) :
    (s.placeCommand w).agenda = engineFirst s.agenda := rfl
@[simp] theorem State.placeCommand_busReads (s : State) (w : Word) :
    (s.placeCommand w).busReads = s.busReads := rfl
@[simp] theorem State.placeCommand_draws (s : State) (w : Word) :
    (s.placeCommand w).draws = s.draws := rfl
@[simp] theorem State.placeCommand_epoch (s : State) (w : Word) :
    (s.placeCommand w).epoch = s.epoch := rfl

/-! ### Presence marks -/

@[simp] theorem FieldSet.mark_present (fs : FieldSet) (k : Kind) :
    (fs.mark k).present = setBit fs.present k.num true := rfl
@[simp] theorem FieldSet.mark_complete (fs : FieldSet) (k : Kind) :
    (fs.mark k).complete = fs.complete := rfl
@[simp] theorem FieldSet.mark_flags (fs : FieldSet) (k : Kind) :
    (fs.mark k).flags = fs.flags := rfl
@[simp] theorem FieldSet.mark_txp (fs : FieldSet) (k : Kind) :
    (fs.mark k).txp = fs.txp := rfl
@[simp] theorem FieldSet.mark_lerole (fs : FieldSet) (k : Kind) :
    (fs.mark k).lerole = fs.lerole := rfl
@[simp] theorem FieldSet.mark_appear (fs : FieldSet) (k : Kind) :
    (fs.mark k).appear = fs.appear := rfl
@[simp] theorem FieldSet.mark_advItvl (fs : FieldSet) (k : Kind) :
    (fs.mark k).advItvl = fs.advItvl := rfl
@[simp] theorem FieldSet.mark_u16Count (fs : FieldSet) (k : Kind) :
    (fs.mark k).u16Count = fs.u16Count := rfl
@[simp] theorem FieldSet.mark_u32Count (fs : FieldSet) (k : Kind) :
    (fs.mark k).u32Count = fs.u32Count := rfl
@[simp] theorem FieldSet.mark_u128 (fs : FieldSet) (k : Kind) :
    (fs.mark k).u128 = fs.u128 := rfl
@[simp] theorem FieldSet.mark_name (fs : FieldSet) (k : Kind) :
    (fs.mark k).name = fs.name := rfl
@[simp] theorem FieldSet.mark_sd16 (fs : FieldSet) (k : Kind) :
    (fs.mark k).sd16 = fs.sd16 := rfl
@[simp] theorem FieldSet.mark_pta (fs : FieldSet) (k : Kind) :
    (fs.mark k).pta = fs.pta := rfl
@[simp] theorem FieldSet.mark_sd32 (fs : FieldSet) (k : Kind) :
    (fs.mark k).sd32 = fs.sd32 := rfl
@[simp] theorem FieldSet.mark_sd128 (fs : FieldSet) (k : Kind) :
    (fs.mark k).sd128 = fs.sd128 := rfl
@[simp] theorem FieldSet.mark_uri (fs : FieldSet) (k : Kind) :
    (fs.mark k).uri = fs.uri := rfl
@[simp] theorem FieldSet.mark_mfg (fs : FieldSet) (k : Kind) :
    (fs.mark k).mfg = fs.mfg := rfl
@[simp] theorem FieldSet.mark_devcls (fs : FieldSet) (k : Kind) :
    (fs.mark k).devcls = fs.devcls := rfl
@[simp] theorem FieldSet.mark_itvl (fs : FieldSet) (k : Kind) :
    (fs.mark k).itvl = fs.itvl := rfl
@[simp] theorem FieldSet.mark_leaddr0 (fs : FieldSet) (k : Kind) :
    (fs.mark k).leaddr0 = fs.leaddr0 := rfl
@[simp] theorem FieldSet.mark_leaddr1 (fs : FieldSet) (k : Kind) :
    (fs.mark k).leaddr1 = fs.leaddr1 := rfl
@[simp] theorem FieldSet.mark_u16 (fs : FieldSet) (k : Kind) :
    (fs.mark k).u16 = fs.u16 := rfl
@[simp] theorem FieldSet.mark_u32 (fs : FieldSet) (k : Kind) :
    (fs.mark k).u32 = fs.u32 := rfl

/-! ### What the named reads see of an update -/

@[simp] theorem State.complete_readByte (s : State) (a : Nat) : s.complete.readByte a = s.readByte a := rfl
@[simp] theorem State.raise_readByte (s : State) (e : Err) (a : Nat) :
    (s.raise e).readByte a = s.readByte a := rfl
@[simp] theorem State.fsClear_readByte (s : State) (a : Nat) : s.fsClear.readByte a = s.readByte a := rfl
@[simp] theorem State.popMove_readByte (s : State) (a : Nat) : s.popMove.readByte a = s.readByte a := rfl
@[simp] theorem State.fsClear_src (s : State) (a : Nat) : s.fsClear.src a = s.src a := rfl
@[simp] theorem State.popMove_src (s : State) (a : Nat) : s.popMove.src a = s.src a := rfl

@[simp] theorem State.setEncK_readByte (s : State) (k : Nat) (x : Nat) :
    (s.setEncK k).readByte x = s.readByte x := rfl
@[simp] theorem State.setEncK_src (s : State) (k : Nat) (x : Nat) :
    (s.setEncK k).src x = s.src x := rfl
@[simp] theorem State.setEngState_readByte (s : State) (e : EngState) (x : Nat) :
    (s.setEngState e).readByte x = s.readByte x := rfl
@[simp] theorem State.setEngState_src (s : State) (e : EngState) (x : Nat) :
    (s.setEngState e).src x = s.src x := rfl
@[simp] theorem State.setOutLen_readByte (s : State) (n : Nat) (x : Nat) :
    (s.setOutLen n).readByte x = s.readByte x := rfl
@[simp] theorem State.setOutLen_src (s : State) (n : Nat) (x : Nat) :
    (s.setOutLen n).src x = s.src x := rfl
@[simp] theorem State.setConsumed_readByte (s : State) (n : Nat) (x : Nat) :
    (s.setConsumed n).readByte x = s.readByte x := rfl
@[simp] theorem State.setConsumed_src (s : State) (n : Nat) (x : Nat) :
    (s.setConsumed n).src x = s.src x := rfl
@[simp] theorem State.setDecPos_readByte (s : State) (p : Nat) (x : Nat) :
    (s.setDecPos p).readByte x = s.readByte x := rfl
@[simp] theorem State.setDecPos_src (s : State) (p : Nat) (x : Nat) :
    (s.setDecPos p).src x = s.src x := rfl
@[simp] theorem State.setFs_readByte (s : State) (fs : FieldSet) (x : Nat) :
    (s.setFs fs).readByte x = s.readByte x := rfl
@[simp] theorem State.setFs_src (s : State) (fs : FieldSet) (x : Nat) :
    (s.setFs fs).src x = s.src x := rfl
@[simp] theorem State.complete_src (s : State) (x : Nat) :
    s.complete.src x = s.src x := rfl
@[simp] theorem State.raise_src (s : State) (e : Err) (x : Nat) :
    (s.raise e).src x = s.src x := rfl
@[simp] theorem State.placeCommand_readByte (s : State) (w : Word) (x : Nat) :
    (s.placeCommand w).readByte x = s.readByte x := rfl
@[simp] theorem State.placeCommand_src (s : State) (w : Word) (x : Nat) :
    (s.placeCommand w).src x = s.src x := rfl

/-- The bytes read depend on the memory and the epoch only. -/
theorem State.readByte_congr {s t : State} (hm : t.mem = s.mem) (he : t.epoch = s.epoch) (a : Nat) :
    t.readByte a = s.readByte a := by
  simp only [State.readByte, hm, he]

/-- The bytes of SRC depend on the memory and the epoch only. -/
theorem State.src_congr {s t : State} (hm : t.mem = s.mem) (he : t.epoch = s.epoch) (a : Nat) :
    t.src a = s.src a := State.readByte_congr hm he _

/-! ### Ends of a command -/

@[simp] theorem Ending.finish_ok (s : State) : (Ending.ok s).finish = s.complete := rfl
@[simp] theorem Ending.finish_raised (e : Err) (s : State) : (Ending.raised e s).finish = s.raise e := rfl
@[simp] theorem Ending.finish_suspended (s : State) : (Ending.suspended s).finish = s := rfl
@[simp] theorem endAtomic_ok (s s' : State) : endAtomic s (.ok s') = .ok s' := rfl
@[simp] theorem endAtomic_error (s : State) (e : Err) : endAtomic s (.error e) = .raised e s := rfl

/-- The gate passes when the encode path exists. -/
theorem gated_of_supported {s : State} (h : s.cfg.encodeSupported = true) (body : State → Ending) :
    gated s body = body s := by simp [gated, h]

/-- The gate raises E_NOTSUP when it does not. -/
theorem gated_of_unsupported {s : State} (h : s.cfg.encodeSupported = false) (body : State → Ending) :
    gated s body = .raised .notSup s := by simp [gated, h]

end Sys2Proof.Machine
end

