-- ==== Sys2Proof/Laws/Bytes.lean ====
section
/-! SUPPORT. Byte assembly, single bits, list entries and blobs. -/

namespace Sys2Proof.Machine

/-- `le16` is `b0 + 256*b1` (00_scope.md R10). -/
theorem toNat_le16 (b0 b1 : Byte) : (le16 b0 b1).toNat = b0.toNat + 256 * b1.toNat := by
  have h0 := b0.isLt
  simp only [le16, BitVec.toNat_append]
  rw [← Nat.shiftLeft_add_eq_or_of_lt h0, Nat.shiftLeft_eq]
  omega

/-- `le32` is `b0 + 2^8*b1 + 2^16*b2 + 2^24*b3` (00_scope.md R10). -/
theorem toNat_le32 (b0 b1 b2 b3 : Byte) :
    (le32 b0 b1 b2 b3).toNat = b0.toNat + 2 ^ 8 * b1.toNat + 2 ^ 16 * b2.toNat + 2 ^ 24 * b3.toNat := by
  have h0 := b0.isLt
  have h1 := b1.isLt
  have h2 := b2.isLt
  simp only [le32, BitVec.toNat_append]
  rw [← Nat.shiftLeft_add_eq_or_of_lt h0, ← Nat.shiftLeft_add_eq_or_of_lt h1,
    ← Nat.shiftLeft_add_eq_or_of_lt h2]
  simp only [Nat.shiftLeft_eq]
  omega

/-- Bytes taken from an assembled word are the bytes it was assembled from. -/
theorem wordByte_le32 (b0 b1 b2 b3 : Byte) :
    wordByte (le32 b0 b1 b2 b3) 0 = b0 ∧ wordByte (le32 b0 b1 b2 b3) 1 = b1 ∧
      wordByte (le32 b0 b1 b2 b3) 2 = b2 ∧ wordByte (le32 b0 b1 b2 b3) 3 = b3 := by
  have h0 := b0.isLt
  have h1 := b1.isLt
  have h2 := b2.isLt
  have h3 := b3.isLt
  refine ⟨?_, ?_, ?_, ?_⟩ <;> apply BitVec.eq_of_toNat_eq <;>
    simp only [wordByte, BitVec.extractLsb'_toNat, toNat_le32, Nat.shiftRight_eq_div_pow] <;> omega

@[simp] theorem halfBytes_length (v : Half) : (halfBytes v).length = 2 := rfl
@[simp] theorem wordBytes_length (v : Word) : (wordBytes v).length = 4 := rfl

/-- A word is assembled from its bytes. -/
theorem le32_wordByte (v : Word) :
    le32 (wordByte v 0) (wordByte v 1) (wordByte v 2) (wordByte v 3) = v := by
  apply BitVec.eq_of_toNat_eq
  rw [toNat_le32]
  have := v.isLt
  simp only [wordByte, BitVec.extractLsb'_toNat, Nat.shiftRight_eq_div_pow]
  omega

/-- One bit set or cleared, the others kept. -/
theorem getLsbD_setBit {w : Nat} (v : BitVec w) (k j : Nat) (b : Bool) (hk : k < w) :
    (setBit v k b).getLsbD j = if j = k then b else v.getLsbD j := by
  unfold setBit
  by_cases hj : j = k
  · subst hj
    cases b <;> simp [hk]
  · have hj' : k ≠ j := fun h => hj h.symm
    cases b <;> simp [hj, hj', BitVec.getLsbD_twoPow]
    intro h
    exact BitVec.lt_of_getLsbD h

theorem Kind.num_lt (k : Kind) : k.num < 18 := by cases k <;> decide

theorem Kind.num_inj {j k : Kind} : j.num = k.num ↔ j = k := by
  constructor
  · cases j <;> cases k <;> decide
  · rintro rfl
    rfl

/-- Marking a kind present sets its bit and no other. -/
theorem FieldSet.has_mark (fs : FieldSet) (j k : Kind) : (fs.mark k).has j = (decide (j = k) || fs.has j) := by
  simp only [FieldSet.has, FieldSet.mark, getLsbD_setBit _ _ _ _ k.num_lt, Kind.num_inj]
  by_cases h : j = k <;> simp [h]

/-- Entry `j` after an entry is set. -/
theorem getElem?_setEntry16 (a : Vector Half 127) (i j : Nat) (v : Half) (hi : i < 127) :
    (setEntry16 a i v)[j]? = if j = i then some v else a[j]? := by
  simp only [setEntry16, Vector.getElem?_setIfInBounds, hi, if_true]
  by_cases h : i = j
  · subst h
    simp
  · simp [h, Ne.symm h]

theorem getElem?_setEntry32 (a : Vector Word 63) (i j : Nat) (v : Word) (hi : i < 63) :
    (setEntry32 a i v)[j]? = if j = i then some v else a[j]? := by
  simp only [setEntry32, Vector.getElem?_setIfInBounds, hi, if_true]
  by_cases h : i = j
  · subst h
    simp
  · simp [h, Ne.symm h]

/-- Filled entries hold the new values, the others what they held. -/
theorem getElem?_fillEntries16 (a : Vector Half 127) (f : Nat → Half) (cnt j : Nat) (h : cnt ≤ 127) :
    (fillEntries16 a f cnt)[j]? = if j < cnt then some (f j) else a[j]? := by
  induction cnt with
  | zero => simp [fillEntries16]
  | succ n ih =>
    rw [fillEntries16, getElem?_setEntry16 _ _ _ _ (by omega), ih (by omega)]
    by_cases hj : j = n
    · subst hj
      simp
    · by_cases hlt : j < n
      · simp [hj, hlt, Nat.lt_succ_of_lt hlt]
      · rw [if_neg hj, if_neg hlt, if_neg (by omega)]

theorem getElem?_fillEntries32 (a : Vector Word 63) (f : Nat → Word) (cnt j : Nat) (h : cnt ≤ 63) :
    (fillEntries32 a f cnt)[j]? = if j < cnt then some (f j) else a[j]? := by
  induction cnt with
  | zero => simp [fillEntries32]
  | succ n ih =>
    rw [fillEntries32, getElem?_setEntry32 _ _ _ _ (by omega), ih (by omega)]
    by_cases hj : j = n
    · subst hj
      simp
    · by_cases hlt : j < n
      · simp [hj, hlt, Nat.lt_succ_of_lt hlt]
      · rw [if_neg hj, if_neg hlt, if_neg (by omega)]

/-- Serialised lists have two and four bytes an entry. -/
@[simp] theorem FieldSet.length_u16Bytes (fs : FieldSet) (cnt : Nat) : (fs.u16Bytes cnt).length = 2 * cnt := by
  simp [FieldSet.u16Bytes, Nat.mul_comm]

@[simp] theorem FieldSet.length_u32Bytes (fs : FieldSet) (cnt : Nat) : (fs.u32Bytes cnt).length = 4 * cnt := by
  simp [FieldSet.u32Bytes, Nat.mul_comm]

@[simp] theorem FieldSet.length_devclsBytes (fs : FieldSet) (n : Nat) : (fs.devclsBytes n).length = n := by
  simp [FieldSet.devclsBytes]

@[simp] theorem FieldSet.length_itvlBytes (fs : FieldSet) (n : Nat) : (fs.itvlBytes n).length = n := by
  simp [FieldSet.itvlBytes]

@[simp] theorem FieldSet.length_leaddrBytes (fs : FieldSet) (n : Nat) : (fs.leaddrBytes n).length = n := by
  simp [FieldSet.leaddrBytes]

end Sys2Proof.Machine
end

