-- ==== Sys2Proof/Laws/Decode.lean ====
section
/-! SUPPORT. What the shared operations of the decode family can do: a type's rule, a record, the walk. -/

namespace Sys2Proof.Machine

theorem FieldSet.mark_eq (fs : FieldSet) (k : Kind) : fs.mark k = fs.withPresent k.num := rfl

/-- A byte of a payload read from SRC. -/
theorem payloadByte_srcBytes (s : State) (off n j : Nat) (h : j < n) :
    payloadByte (s.srcBytes off n) j = s.src (off + j) := by
  simp [payloadByte, State.srcBytes, List.getD, h]

theorem srcBytes_drop (s : State) (off n k : Nat) : (s.srcBytes off n).drop k = s.srcBytes (off + k) (n - k) := by
  apply List.ext_getElem
  · simp
  · intro i h1 h2
    simp [Nat.add_assoc]

/-- A blob copied byte by byte is the payload laid over the register (41_decode.md R219, R220). -/
theorem blobWord_eq (v : Word) (s : State) (off len n : Nat) (h : len ≤ n) :
    (blobWord v len fun j => s.src (off + j)) = blobOver v len (s.srcBytes off n) := by
  have pick : ∀ j, (if j < len then s.src (off + j) else wordByte v j) =
      (if j < len then payloadByte (s.srcBytes off n) j else v.extractLsb' (8 * j) 8) := by
    intro j
    by_cases hj : j < len
    · rw [if_pos hj, if_pos hj, payloadByte_srcBytes _ _ _ _ (by omega)]
    · rw [if_neg hj, if_neg hj, wordByte]
  simp only [blobWord, blobOver, le32, pick]

theorem fillEntries16_eq (a : Vector Half 127) (s : State) (off n : Nat) (h : n < 256) (h2 : n % 2 = 0) :
    fillEntries16 a (fun i => le16 (s.src (off + 2 * i)) (s.src (off + 2 * i + 1))) (n / 2) =
      entries16 a (s.srcBytes off n) := by
  ext1 i hi
  have := getElem?_fillEntries16 a (fun i => le16 (s.src (off + 2 * i)) (s.src (off + 2 * i + 1))) (n / 2) i
    (by omega)
  rw [Vector.getElem?_eq_getElem hi, Vector.getElem?_eq_getElem hi] at this
  simp only [entries16, Vector.getElem_ofFn, State.length_srcBytes]
  by_cases hlt : i < n / 2
  · rw [if_pos hlt] at this
    rw [if_pos (by omega), payloadByte_srcBytes _ _ _ _ (by omega), payloadByte_srcBytes _ _ _ _ (by omega)]
    exact Option.some.inj this
  · rw [if_neg hlt] at this
    rw [if_neg (by omega)]
    exact Option.some.inj this

theorem fillEntries32_eq (a : Vector Word 63) (s : State) (off n : Nat) (h : n < 256) (h4 : n % 4 = 0) :
    fillEntries32 a (fun i => le32 (s.src (off + 4 * i)) (s.src (off + 4 * i + 1)) (s.src (off + 4 * i + 2))
      (s.src (off + 4 * i + 3))) (n / 4) = entries32 a (s.srcBytes off n) := by
  ext1 i hi
  have := getElem?_fillEntries32 a (fun i => le32 (s.src (off + 4 * i)) (s.src (off + 4 * i + 1))
    (s.src (off + 4 * i + 2)) (s.src (off + 4 * i + 3))) (n / 4) i (by omega)
  rw [Vector.getElem?_eq_getElem hi, Vector.getElem?_eq_getElem hi] at this
  simp only [entries32, Vector.getElem_ofFn, State.length_srcBytes]
  by_cases hlt : i < n / 4
  · rw [if_pos hlt] at this
    rw [if_pos (by omega), payloadByte_srcBytes _ _ _ _ (by omega), payloadByte_srcBytes _ _ _ _ (by omega),
      payloadByte_srcBytes _ _ _ _ (by omega), payloadByte_srcBytes _ _ _ _ (by omega)]
    exact Option.some.inj this
  · rw [if_neg hlt] at this
    rw [if_neg (by omega)]
    exact Option.some.inj this

/-- `pu16`: all it can do (41_decode.md R200). -/
theorem decodeUuid16_eq (off n : Nat) (c : Bool) (s : State) (h : n < 256) :
    decodeUuid16 off n c s =
      if n % 2 = 0 then
        .ok (s.setFs (({ s.fs with
          u16 := entries16 s.fs.u16 (s.srcBytes off n)
          u16Count := BitVec.ofNat 8 (n / 2) }.withPresent 1).withComplete 0 c))
      else .error .badData := by
  unfold decodeUuid16
  by_cases h2 : n % 2 = 0
  · rw [if_pos h2, if_pos h2, fillEntries16_eq _ _ _ _ h h2]
    rfl
  · rw [if_neg h2, if_neg h2]

/-- `pu32`: all it can do (41_decode.md R201). -/
theorem decodeUuid32_eq (off n : Nat) (c : Bool) (s : State) (h : n < 256) :
    decodeUuid32 off n c s =
      if n % 4 = 0 then
        .ok (s.setFs (({ s.fs with
          u32 := entries32 s.fs.u32 (s.srcBytes off n)
          u32Count := BitVec.ofNat 8 (n / 4) }.withPresent 2).withComplete 1 c))
      else .error .badData := by
  unfold decodeUuid32
  by_cases h4 : n % 4 = 0
  · rw [if_pos h4, if_pos h4, fillEntries32_eq _ _ _ _ h h4]
    rfl
  · rw [if_neg h4, if_neg h4]

/-- What a type's rule can do: store the record as the table of 30_encoding.md R125 says, or reject its
length. -/
def RuleIs (t : Byte) (rule : Nat → Nat → State → Except Err State) : Prop :=
  ∀ (off n : Nat) (s : State), n < 256 →
    rule off n s =
      if lengthOk s.cfg t n = true then .ok (s.setFs (storeRecord s.cfg s.fs off t (s.srcBytes off n)))
      else .error .badData

theorem fieldIf_eq (good : Bool) (k : Kind) (fs fs' : FieldSet) (s : State)
    (h : good = true → fs.mark k = fs') :
    fieldIf good k fs s = if good = true then .ok (s.setFs fs') else .error .badData := by
  unfold fieldIf
  by_cases hg : good = true
  · rw [if_pos hg, if_pos hg, h hg]
  · rw [if_neg hg, if_neg hg]

theorem ruleFlags_is : RuleIs 0x01 ruleFlags := fun off n s _ =>
  fieldIf_eq _ _ _ _ _ fun hg => by
    have : n = 1 := by simpa using hg
    subst this
    show _ = storeRecord s.cfg s.fs off 0x01 _
    simp [storeRecord, payloadByte_srcBytes, FieldSet.mark_eq, Kind.num]

theorem ruleUuid16_false_is : RuleIs 0x02 (ruleUuid16 false) := fun off n s hn => by
  rw [ruleUuid16, decodeUuid16_eq off n false s hn]
  simp [lengthOk, storeRecord]

theorem ruleUuid16_true_is : RuleIs 0x03 (ruleUuid16 true) := fun off n s hn => by
  rw [ruleUuid16, decodeUuid16_eq off n true s hn]
  simp [lengthOk, storeRecord]

theorem ruleUuid32_false_is : RuleIs 0x04 (ruleUuid32 false) := fun off n s hn => by
  rw [ruleUuid32, decodeUuid32_eq off n false s hn]
  simp [lengthOk, storeRecord]

theorem ruleUuid32_true_is : RuleIs 0x05 (ruleUuid32 true) := fun off n s hn => by
  rw [ruleUuid32, decodeUuid32_eq off n true s hn]
  simp [lengthOk, storeRecord]

theorem ruleUuid128_false_is : RuleIs 0x06 (ruleUuid128 false) := fun off n s _ =>
  fieldIf_eq _ _ _ _ _ fun _ => by
    show _ = storeRecord s.cfg s.fs off 0x06 _
    simp [storeRecord, FieldSet.mark_eq, Kind.num, View.of, viewAt, FieldSet.withComplete,
      FieldSet.withPresent, setBit, BitVec.twoPow]

theorem ruleUuid128_true_is : RuleIs 0x07 (ruleUuid128 true) := fun off n s _ =>
  fieldIf_eq _ _ _ _ _ fun _ => by
    show _ = storeRecord s.cfg s.fs off 0x07 _
    simp [storeRecord, FieldSet.mark_eq, Kind.num, View.of, viewAt, FieldSet.withComplete,
      FieldSet.withPresent, setBit, BitVec.twoPow]

theorem ruleName_false_is : RuleIs 0x08 (ruleName false) := fun off n s _ =>
  fieldIf_eq _ _ _ _ _ fun _ => by
    show _ = storeRecord s.cfg s.fs off 0x08 _
    simp [storeRecord, FieldSet.mark_eq, Kind.num, View.of, viewAt, FieldSet.withComplete,
      FieldSet.withPresent, setBit, BitVec.twoPow]

theorem ruleName_true_is : RuleIs 0x09 (ruleName true) := fun off n s _ =>
  fieldIf_eq _ _ _ _ _ fun _ => by
    show _ = storeRecord s.cfg s.fs off 0x09 _
    simp [storeRecord, FieldSet.mark_eq, Kind.num, View.of, viewAt, FieldSet.withComplete,
      FieldSet.withPresent, setBit, BitVec.twoPow]

theorem ruleTxPower_is : RuleIs 0x0A ruleTxPower := fun off n s _ =>
  fieldIf_eq _ _ _ _ _ fun hg => by
    have : n = 1 := by simpa using hg
    subst this
    show _ = storeRecord s.cfg s.fs off 0x0A _
    simp [storeRecord, payloadByte_srcBytes, FieldSet.mark_eq, Kind.num]

theorem ruleClassOfDevice_is : RuleIs 0x0D ruleClassOfDevice := fun off n s _ =>
  fieldIf_eq _ _ _ _ _ fun hg => by
    have : n = s.cfg.devclsLen := by simpa using hg
    subst this
    show _ = storeRecord s.cfg s.fs off 0x0D _
    rw [blobWord_eq _ _ _ _ _ (le_refl _)]
    simp [storeRecord, FieldSet.mark_eq, Kind.num]

theorem ruleItvlRange_is : RuleIs 0x12 ruleItvlRange := fun off n s _ =>
  fieldIf_eq _ _ _ _ _ fun hg => by
    have : n = s.cfg.itvlRangeLen := by simpa using hg
    subst this
    show _ = storeRecord s.cfg s.fs off 0x12 _
    rw [blobWord_eq _ _ _ _ _ (le_refl _)]
    simp [storeRecord, FieldSet.mark_eq, Kind.num]

theorem ruleSvcData16_is : RuleIs 0x16 ruleSvcData16 := fun off n s _ =>
  fieldIf_eq _ _ _ _ _ fun _ => by
    show _ = storeRecord s.cfg s.fs off 0x16 _
    simp [storeRecord, FieldSet.mark_eq, Kind.num, View.of, viewAt]

theorem rulePublicTarget_is : RuleIs 0x17 rulePublicTarget := fun off n s _ =>
  fieldIf_eq _ _ _ _ _ fun _ => by
    show _ = storeRecord s.cfg s.fs off 0x17 _
    simp [storeRecord, FieldSet.mark_eq, Kind.num, View.of, viewAt]

theorem ruleAppearance_is : RuleIs 0x19 ruleAppearance := fun off n s _ =>
  fieldIf_eq _ _ _ _ _ fun hg => by
    have : n = 2 := by simpa using hg
    subst this
    show _ = storeRecord s.cfg s.fs off 0x19 _
    simp [storeRecord, payloadByte_srcBytes, FieldSet.mark_eq, Kind.num, le16]

theorem ruleAdvInterval_is : RuleIs 0x1A ruleAdvInterval := fun off n s _ =>
  fieldIf_eq _ _ _ _ _ fun hg => by
    have : n = 2 := by simpa using hg
    subst this
    show _ = storeRecord s.cfg s.fs off 0x1A _
    simp [storeRecord, payloadByte_srcBytes, FieldSet.mark_eq, Kind.num, le16]

theorem ruleLeDeviceAddr_is : RuleIs 0x1B ruleLeDeviceAddr := fun off n s _ =>
  fieldIf_eq _ _ _ _ _ fun hg => by
    have : n = s.cfg.leAddrLen := by simpa using hg
    subst this
    show _ = storeRecord s.cfg s.fs off 0x1B _
    have h4 : (fun j => s.src (off + (4 + j))) = fun j => s.src (off + 4 + j) := by
      funext j
      rw [Nat.add_assoc]
    rw [blobWord_eq _ _ _ _ _ (le_refl _), h4, blobWord_eq _ _ _ _ _ (le_refl _), ← srcBytes_drop]
    simp [storeRecord, FieldSet.mark_eq, Kind.num]

theorem ruleLeRole_is : RuleIs 0x1C ruleLeRole := fun off n s _ =>
  fieldIf_eq _ _ _ _ _ fun hg => by
    have : n = 1 := by simpa using hg
    subst this
    show _ = storeRecord s.cfg s.fs off 0x1C _
    simp [storeRecord, payloadByte_srcBytes, FieldSet.mark_eq, Kind.num]

theorem ruleSvcData32_is : RuleIs 0x20 ruleSvcData32 := fun off n s _ =>
  fieldIf_eq _ _ _ _ _ fun _ => by
    show _ = storeRecord s.cfg s.fs off 0x20 _
    simp [storeRecord, FieldSet.mark_eq, Kind.num, View.of, viewAt]

theorem ruleSvcData128_is : RuleIs 0x21 ruleSvcData128 := fun off n s _ =>
  fieldIf_eq _ _ _ _ _ fun _ => by
    show _ = storeRecord s.cfg s.fs off 0x21 _
    simp [storeRecord, FieldSet.mark_eq, Kind.num, View.of, viewAt]

theorem ruleUri_is : RuleIs 0x24 ruleUri := fun off n s _ =>
  fieldIf_eq _ _ _ _ _ fun _ => by
    show _ = storeRecord s.cfg s.fs off 0x24 _
    simp [storeRecord, FieldSet.mark_eq, Kind.num, View.of, viewAt]

theorem ruleMfgData_is : RuleIs 0xFF ruleMfgData := fun off n s _ =>
  fieldIf_eq _ _ _ _ _ fun _ => by
    show _ = storeRecord s.cfg s.fs off 0xFF _
    simp [storeRecord, FieldSet.mark_eq, Kind.num, View.of, viewAt]

/-- `dispatch`: all it can do, against the table of 30_encoding.md R125 (41_decode.md R210 to R231). -/
theorem dispatch_is (t : Byte) : RuleIs t (dispatch t) := by
  by_cases h : definedTypeCodes.contains t = true
  · simp only [definedTypeCodes, List.contains_eq_mem, List.mem_cons, List.not_mem_nil, or_false,
      decide_eq_true_eq] at h
    rcases h with rfl | rfl | rfl | rfl | rfl | rfl | rfl | rfl | rfl | rfl | rfl | rfl | rfl | rfl | rfl |
      rfl | rfl | rfl | rfl | rfl | rfl | rfl
    exacts [ruleFlags_is, ruleUuid16_false_is, ruleUuid16_true_is, ruleUuid32_false_is, ruleUuid32_true_is,
      ruleUuid128_false_is, ruleUuid128_true_is, ruleName_false_is, ruleName_true_is, ruleTxPower_is,
      ruleClassOfDevice_is, ruleItvlRange_is, ruleSvcData16_is, rulePublicTarget_is, ruleAppearance_is,
      ruleAdvInterval_is, ruleLeDeviceAddr_is, ruleLeRole_is, ruleSvcData32_is, ruleSvcData128_is, ruleUri_is,
      ruleMfgData_is]
  · simp only [definedTypeCodes, List.contains_eq_mem, List.mem_cons, List.not_mem_nil, or_false,
      decide_eq_true_eq, not_or] at h
    obtain ⟨h01, h02, h03, h04, h05, h06, h07, h08, h09, h0a, h0d, h12, h16, h17, h19, h1a, h1b, h1c, h20, h21,
      h24, hff⟩ := h
    intro off n s _
    have hd : dispatch t = ruleSkip := by
      unfold dispatch
      split <;> first | rfl | contradiction
    have hl : lengthOk s.cfg t n = true := by
      simp only [lengthOk, h01, h02, h03, h04, h05, h06, h07, h0a, h0d, h12, h16, h17, h19, h1a, h1b, h1c, h20,
        h21, or_self, if_false]
    have hs : storeRecord s.cfg s.fs off t (s.srcBytes off n) = s.fs := by
      simp only [storeRecord, h01, h02, h03, h04, h05, h06, h07, h08, h09, h0a, h0d, h12, h16, h17, h19, h1a, h1b,
        h1c, h20, h21, h24, hff, or_self, if_false]
    rw [hd, if_pos hl, hs]
    rfl

/-- The record decoder after its type's rule is known: all it can do (41_decode.md R210): truncation, `L = 0`,
cap, length rule, and else the record stored. -/
theorem decodeLengthed_eq {t : Byte} {rule : Nat → Nat → State → Except Err State} (hr : RuleIs t rule)
    (len : Byte) (p r : Nat) (s : State) :
    decodeLengthed len rule p r s =
      if r < len.toNat + 1 then .error .msgSize
      else if len.toNat = 0 then .error .badData
      else if acceptable s.cfg t (len.toNat - 1) = true then
        .ok (s.setFs (storeRecord s.cfg s.fs ((p + 2) % 256) t (s.srcBytes ((p + 2) % 256) (len.toNat - 1))))
      else .error .badData := by
  have := len.isLt
  unfold decodeLengthed acceptable
  rw [hr _ _ _ (by omega)]
  by_cases h1 : r < len.toNat + 1
  · rw [if_pos h1, if_pos h1]
  · by_cases h2 : len.toNat = 0
    · rw [if_neg h1, if_neg h1, if_pos h2, if_pos h2]
    · rw [if_neg h1, if_neg h1, if_neg h2, if_neg h2]
      by_cases h3 : s.cfg.maxFieldSz < len.toNat - 1
      · rw [if_pos h3, if_neg]
        simp only [Bool.and_eq_true, decide_eq_true_eq, not_and]
        omega
      · have h3' : decide (len.toNat - 1 ≤ s.cfg.maxFieldSz) = true := by simpa using h3
        rw [if_neg h3, h3', Bool.true_and]

/-- `dec_one`: all it can do (41_decode.md R210). -/
theorem decodeOne_eq (p r : Nat) (s : State) :
    decodeOne p r s =
      if r < (s.src p).toNat + 1 then .error .msgSize
      else if (s.src p).toNat = 0 then .error .badData
      else if acceptable s.cfg (s.src (p + 1)) ((s.src p).toNat - 1) = true then
        .ok (s.setFs (storeRecord s.cfg s.fs ((p + 2) % 256) (s.src (p + 1))
          (s.srcBytes ((p + 2) % 256) ((s.src p).toNat - 1))))
      else .error .badData := by
  unfold decodeOne
  by_cases h : r < 1
  · rw [if_pos h, if_pos (by omega)]
  · rw [if_neg h]
    exact decodeLengthed_eq (dispatch_is _) _ _ _ _

/-- An accepted record changes the field set and nothing else. -/
theorem decodeOne_ok {p r : Nat} {s t : State} (h : decodeOne p r s = .ok t) : ∃ fs, t = s.setFs fs := by
  rw [decodeOne_eq] at h
  split_ifs at h
  exact ⟨_, (Except.ok.inj h).symm⟩

/-- A walk of DECODE, whatever its end, moves the field set and `DEC_POS` and nothing else (41_decode.md
R243), and never suspends. -/
theorem decodeWalk_ends (fuel p r : Nat) (s : State) :
    ∃ fs q, decodeWalk fuel p r s = .ok ((s.setFs fs).setDecPos q) ∨
      ∃ e, decodeWalk fuel p r s = .raised e ((s.setFs fs).setDecPos q) := by
  induction fuel generalizing p r s with
  | zero => exact ⟨s.fs, p, .inl rfl⟩
  | succ fuel ih =>
    unfold decodeWalk
    by_cases hr : r = 0
    · exact ⟨s.fs, p, .inl (by rw [if_pos hr]; rfl)⟩
    · simp only [if_neg hr]
      cases hd : decodeOne p r (s.setDecPos p) with
      | error e => exact ⟨s.fs, p, .inr ⟨e, rfl⟩⟩
      | ok t =>
        obtain ⟨fs, rfl⟩ := decodeOne_ok hd
        obtain ⟨fs', q, hq⟩ := ih (p + (s.setDecPos p).recordSize p) (r - (s.setDecPos p).recordSize p)
          ((s.setDecPos p).setFs fs)
        exact ⟨fs', q, hq⟩

end Sys2Proof.Machine
end

