-- ==== Sys2Proof/Laws/Encode.lean ====
section
/-! SUPPORT. What the shared operations of the encode family can do: a record write, a field, the loop. -/

namespace Sys2Proof.Machine

theorem Memory.setBytes_append (m : Memory) (a : Nat) (bs cs : List Byte) :
    m.setBytes a (bs ++ cs) = (m.setBytes a bs).setBytes (a + bs.length) cs := by
  induction bs generalizing m a with
  | nil => rfl
  | cons b bs ih =>
    simp only [List.cons_append, Memory.setBytes, ih, List.length_cons]
    congr 1
    omega

theorem State.hdrFits_iff (s : State) (n : Nat) :
    s.hdrFits n = true ↔ s.outLen.toNat + 2 + n ≤ s.maxLen.toNat := by
  simp [State.hdrFits]

/-- A header and its payload are one run of bytes at the cursor (40_encode.md R151, R154). -/
theorem putPayload_putHdr (t : Byte) (bs : List Byte) (s : State) (h : s.outLen.toNat + 2 < 256) :
    putPayload bs (putHdr t bs.length s) = putPayload (wireRecord t bs) s := by
  have h2 : (BitVec.ofNat 8 (s.outLen.toNat + 2)).toNat = s.outLen.toNat + 2 := by
    simp only [BitVec.toNat_ofNat]
    omega
  have h3 : dstBase + (s.outLen.toNat + 2) = dstBase + s.outLen.toNat + 1 + 1 := by omega
  have h4 : s.outLen.toNat + 2 + bs.length = s.outLen.toNat + (bs.length + 1 + 1) := by omega
  simp only [putPayload, State.writeDst, State.setOutLen, putHdr, h2, h3, h4, wireRecord, Memory.setBytes,
    List.length_cons]

/-- Two runs written one after the other are one run. -/
theorem putPayload_append (bs cs : List Byte) (s : State) (h : s.outLen.toNat + bs.length < 256) :
    putPayload cs (putPayload bs s) = putPayload (bs ++ cs) s := by
  have h2 : (BitVec.ofNat 8 (s.outLen.toNat + bs.length)).toNat = s.outLen.toNat + bs.length := by
    simp only [BitVec.toNat_ofNat]
    omega
  simp only [putPayload, State.writeDst, State.setOutLen, h2, Memory.setBytes_append, List.length_append,
    Nat.add_assoc]

@[simp] theorem putPayload_nil (s : State) : putPayload [] s = s := by
  simp [putPayload, State.writeDst, State.setOutLen, Memory.setBytes]

/-- The bytes after a run written at the cursor. -/
theorem readByte_putPayload (bs : List Byte) (s : State) (k : Nat) :
    (putPayload bs s).readByte k =
      if h : dstBase + s.outLen.toNat ≤ k ∧ k < dstBase + s.outLen.toNat + bs.length then
        bs[k - (dstBase + s.outLen.toNat)]'(by omega)
      else s.readByte k :=
  s.readByte_setBytes (dstBase + s.outLen.toNat) k bs

/-- A run written at the cursor changes no byte of SRC. -/
theorem src_putPayload (bs : List Byte) (s : State) (k : Nat) (h : k < 256) :
    (putPayload bs s).src k = s.src k := s.src_writeDst _ k bs h

/-- The cursor after a run that stays below 256. -/
theorem toNat_outLen_putPayload (bs : List Byte) (s : State) (h : s.outLen.toNat + bs.length < 256) :
    (putPayload bs s).outLen.toNat = s.outLen.toNat + bs.length := by
  simp only [putPayload, State.setOutLen, BitVec.toNat_ofNat]
  omega

/-- `emit_bytes`: all it can do (40_encode.md R154). -/
theorem emitBytes_eq (t : Byte) (bs : List Byte) (s : State) :
    emitBytes t bs s =
      if s.outLen.toNat + 2 + bs.length ≤ s.maxLen.toNat then .ok (putPayload (wireRecord t bs) s)
      else .error .msgSize := by
  have := s.maxLen.isLt
  unfold emitBytes
  by_cases h : s.outLen.toNat + 2 + bs.length ≤ s.maxLen.toNat
  · rw [if_pos ((s.hdrFits_iff _).2 h), if_pos h, putPayload_putHdr _ _ _ (by omega)]
  · rw [if_neg (fun hh => h ((s.hdrFits_iff _).1 hh)), if_neg h]

/-- `emit_view`: all it can do (40_encode.md R155). -/
theorem emitView_eq (t : Byte) (off n : Nat) (s : State) :
    emitView t off n s =
      if s.outLen.toNat + 2 + n ≤ s.maxLen.toNat then
        if off + n ≤ 256 then .ok (putPayload (wireRecord t (s.srcBytes off n)) s) else .error .range
      else .error .msgSize := by
  have := s.maxLen.isLt
  have hlen := s.length_srcBytes off n
  unfold emitView
  by_cases h : s.outLen.toNat + 2 + n ≤ s.maxLen.toNat
  · rw [if_pos ((s.hdrFits_iff _).2 h), if_pos h]
    have := putPayload_putHdr t (s.srcBytes off n) s (by omega)
    rw [hlen] at this
    rw [this]
    rfl
  · rw [if_neg (fun hh => h ((s.hdrFits_iff _).1 hh)), if_neg h]

/-- `emit_arr16`: all it can do (40_encode.md R156). -/
theorem emitArr16_eq (t : Byte) (cnt : Nat) (s : State) :
    emitArr16 t cnt s =
      if s.outLen.toNat + 2 + 2 * cnt ≤ s.maxLen.toNat then
        .ok (putPayload (wireRecord t (s.fs.u16Bytes cnt)) s)
      else .error .msgSize := by
  have := s.maxLen.isLt
  unfold emitArr16
  by_cases h : s.outLen.toNat + 2 + 2 * cnt ≤ s.maxLen.toNat
  · rw [if_pos ((s.hdrFits_iff _).2 h), if_pos h]
    have := putPayload_putHdr t (s.fs.u16Bytes cnt) s (by omega)
    rw [FieldSet.length_u16Bytes] at this
    rw [this]
  · rw [if_neg (fun hh => h ((s.hdrFits_iff _).1 hh)), if_neg h]

/-- `emit_arr32`: all it can do (40_encode.md R157). -/
theorem emitArr32_eq (t : Byte) (cnt : Nat) (s : State) :
    emitArr32 t cnt s =
      if s.outLen.toNat + 2 + 4 * cnt ≤ s.maxLen.toNat then
        .ok (putPayload (wireRecord t (s.fs.u32Bytes cnt)) s)
      else .error .msgSize := by
  have := s.maxLen.isLt
  unfold emitArr32
  by_cases h : s.outLen.toNat + 2 + 4 * cnt ≤ s.maxLen.toNat
  · rw [if_pos ((s.hdrFits_iff _).2 h), if_pos h]
    have := putPayload_putHdr t (s.fs.u32Bytes cnt) s (by omega)
    rw [FieldSet.length_u32Bytes] at this
    rw [this]
  · rw [if_neg (fun hh => h ((s.hdrFits_iff _).1 hh)), if_neg h]

/-- `enc_field(k)`: all it can do, against the table of 30_encoding.md R122 (40_encode.md R171 to R189). -/
theorem encField_eq (k : Kind) (s : State) :
    encField k s =
      if s.outLen.toNat + 2 + (payloadOf s k).length ≤ s.maxLen.toNat then
        if viewInRange s k then .ok (putPayload (wireRecord (k.code s.fs) (payloadOf s k)) s)
        else .error .range
      else .error .msgSize := by
  cases k <;>
    simp only [encField, emitBytes_eq, emitView_eq, emitArr16_eq, emitArr32_eq, payloadOf, viewInRange,
      Kind.view, Kind.code, View.vlen, pairCode, FieldSet.u16Complete, FieldSet.u32Complete,
      FieldSet.u128Complete, FieldSet.nameComplete, halfBytes, State.length_srcBytes,
      FieldSet.length_u16Bytes, FieldSet.length_u32Bytes, decide_eq_true_eq, Nat.one_mul, if_true] <;> rfl

/-- What a kind's record is made of depends on the field set, the parameters and, for a view in range, SRC. -/
theorem payloadOf_congr {s t : State} (hfs : t.fs = s.fs) (hcfg : t.cfg = s.cfg)
    (hsrc : ∀ a, a < 256 → t.src a = s.src a) {k : Kind} (hk : viewInRange s k = true) :
    payloadOf t k = payloadOf s k := by
  have view : ∀ off n, off + n ≤ 256 → t.srcBytes off n = s.srcBytes off n := by
    intro off n h
    simp only [State.srcBytes]
    refine List.map_congr_left fun i hi => hsrc _ ?_
    have := List.mem_range.1 hi
    omega
  cases k <;> simp only [payloadOf, hfs, hcfg] <;>
    (simp only [viewInRange, Kind.view, decide_eq_true_eq, Nat.one_mul] at hk; exact view _ _ hk)

theorem viewInRange_congr {s t : State} (hfs : t.fs = s.fs) (k : Kind) : viewInRange t k = viewInRange s k := by
  simp only [viewInRange, hfs]

/-- The records of some kinds, likewise. -/
theorem recordsOf_congr {s t : State} (hfs : t.fs = s.fs) (hcfg : t.cfg = s.cfg)
    (hsrc : ∀ a, a < 256 → t.src a = s.src a) {ks : List Kind}
    (hks : ∀ k ∈ ks, s.fs.has k = true → viewInRange s k = true) : recordsOf t ks = recordsOf s ks := by
  simp only [recordsOf, hfs]
  induction ks with
  | nil => rfl
  | cons k ks ih =>
    have ih := ih fun k' hk' => hks k' (List.mem_cons_of_mem _ hk')
    by_cases hk : s.fs.has k = true
    · simp only [List.filter_cons, hk, if_true, List.flatMap_cons, ih,
        payloadOf_congr hfs hcfg hsrc (hks k (by simp) hk)]
    · have hk : s.fs.has k = false := by simpa using hk
      simp only [List.filter_cons, hk, Bool.false_eq_true, if_false]
      exact ih

theorem recordsOf_cons_has {s : State} {k : Kind} {ks : List Kind} (h : s.fs.has k = true) :
    recordsOf s (k :: ks) = wireRecord (k.code s.fs) (payloadOf s k) ++ recordsOf s ks := by
  simp [recordsOf, h]

theorem recordsOf_cons_absent {s : State} {k : Kind} {ks : List Kind} (h : s.fs.has k = false) :
    recordsOf s (k :: ks) = recordsOf s ks := by
  simp [recordsOf, h]

@[simp] theorem length_wireRecord (t : Byte) (bs : List Byte) : (wireRecord t bs).length = bs.length + 2 := rfl

@[simp] theorem State.setEncK_setEncK (s : State) (x y : Nat) : (s.setEncK x).setEncK y = s.setEncK y := rfl

theorem State.setEncK_putPayload (s : State) (x : Nat) (bs : List Byte) :
    putPayload bs (s.setEncK x) = (putPayload bs s).setEncK x := rfl

/-- The loop sets `ENC_K` before it looks at it. -/
theorem encFrom_encK (ks : List Kind) (s : State) (x : Nat) : encFrom ks (s.setEncK x) = encFrom ks s := by
  cases ks <;> rfl

/-- One round of the loop, for an absent kind. -/
theorem encFrom_absent {k : Kind} (ks : List Kind) {s : State} (hk : s.fs.has k = false) :
    encFrom (k :: ks) s = encFrom ks s := by
  have h : (s.setEncK k.num).fs.has k = false := hk
  rw [encFrom, h, if_neg Bool.false_ne_true, encFrom_encK]

/-- One round of the loop, for the tx power with the sentinel. -/
theorem encFrom_query {k : Kind} (ks : List Kind) {s : State} (hk : s.fs.has k = true)
    (hq : s.queries k = true) :
    encFrom (k :: ks) s = .suspended ((s.setEncK k.num).setEngState .waitTxp) := by
  have h : (s.setEncK k.num).fs.has k = true := hk
  have h' : (s.setEncK k.num).queries k = true := hq
  rw [encFrom, h, h', if_pos rfl, if_pos rfl]

theorem encField_setEncK (k : Kind) (s : State) (x : Nat) :
    encField k (s.setEncK x) = (encField k s).map (·.setEncK x) := by
  have hp : payloadOf (s.setEncK x) k = payloadOf s k := by cases k <;> rfl
  have hv : viewInRange (s.setEncK x) k = viewInRange s k := rfl
  rw [encField_eq, encField_eq, hp, hv]
  by_cases h1 : s.outLen.toNat + 2 + (payloadOf s k).length ≤ s.maxLen.toNat
  · have h1' : (s.setEncK x).outLen.toNat + 2 + (payloadOf s k).length ≤ (s.setEncK x).maxLen.toNat := h1
    rw [if_pos h1, if_pos h1']
    cases viewInRange s k <;> rfl
  · have h1' : ¬ (s.setEncK x).outLen.toNat + 2 + (payloadOf s k).length ≤ (s.setEncK x).maxLen.toNat := h1
    rw [if_neg h1, if_neg h1']
    rfl

/-- One round of the loop, for a present kind that is written. -/
theorem encFrom_written {k : Kind} (ks : List Kind) {s : State} (hk : s.fs.has k = true)
    (hq : s.queries k = false)
    (hfit : s.outLen.toNat + 2 + (payloadOf s k).length ≤ s.maxLen.toNat) (hv : viewInRange s k = true) :
    encFrom (k :: ks) s = encFrom ks (putPayload (wireRecord (k.code s.fs) (payloadOf s k)) s) := by
  have h : (s.setEncK k.num).fs.has k = true := hk
  have h' : (s.setEncK k.num).queries k = false := hq
  rw [encFrom, h, h', if_pos rfl, if_neg Bool.false_ne_true, encField_setEncK, encField_eq, if_pos hfit,
    if_pos hv]
  exact encFrom_encK ks _ k.num

/-- One round of the loop, for a present kind that fails. -/
theorem encFrom_failed {k : Kind} (ks : List Kind) {s : State} {e : Err} (hk : s.fs.has k = true)
    (hq : s.queries k = false) (he : encField k s = .error e) :
    encFrom (k :: ks) s = .raised e (s.setEncK k.num) := by
  have h : (s.setEncK k.num).fs.has k = true := hk
  have h' : (s.setEncK k.num).queries k = false := hq
  rw [encFrom, h, h', if_pos rfl, if_neg Bool.false_ne_true, encField_setEncK, he]
  rfl

/-- The loop over kinds that all fit: their records are written in order, then the rest of the loop goes on
(40_encode.md R170). -/
theorem encFrom_append (ks rest : List Kind) (s : State)
    (hq : ∀ k ∈ ks, s.fs.has k = true → s.queries k = false)
    (hv : ∀ k ∈ ks, s.fs.has k = true → viewInRange s k = true)
    (hfit : s.outLen.toNat + (recordsOf s ks).length ≤ s.maxLen.toNat) :
    encFrom (ks ++ rest) s = encFrom rest (putPayload (recordsOf s ks) s) := by
  have hmax := s.maxLen.isLt
  induction ks generalizing s with
  | nil => simp [recordsOf]
  | cons k ks ih =>
    have hq' := fun k' hk' => hq k' (List.mem_cons_of_mem k hk')
    have hv' := fun k' hk' => hv k' (List.mem_cons_of_mem k hk')
    by_cases hk : s.fs.has k = true
    · rw [recordsOf_cons_has hk] at hfit ⊢
      simp only [List.length_append, length_wireRecord] at hfit
      rw [List.cons_append, encFrom_written _ hk (hq k (by simp) hk) (by omega) (hv k (by simp) hk)]
      have hrec : recordsOf (putPayload (wireRecord (k.code s.fs) (payloadOf s k)) s) ks = recordsOf s ks :=
        recordsOf_congr (s := s) (t := putPayload _ s) rfl rfl (fun a ha => src_putPayload _ s a ha) hv'
      have hout := toNat_outLen_putPayload (wireRecord (k.code s.fs) (payloadOf s k)) s
        (by simp only [length_wireRecord]; omega)
      rw [ih (putPayload (wireRecord (k.code s.fs) (payloadOf s k)) s) hq'
        (fun k' hk' hh => hv' k' hk' hh)
        (by rw [hrec, hout, length_wireRecord]; show _ ≤ s.maxLen.toNat; omega) hmax,
        hrec, putPayload_append _ _ _ (by simp only [length_wireRecord]; omega)]
    · have hk0 : s.fs.has k = false := by simpa using hk
      rw [recordsOf_cons_absent hk0] at hfit ⊢
      rw [List.cons_append, encFrom_absent _ hk0]
      exact ih s hq' hv' hfit hmax

/-- The loop over kinds that all fit, to its end. -/
theorem encFrom_all (ks : List Kind) (s : State)
    (hq : ∀ k ∈ ks, s.fs.has k = true → s.queries k = false)
    (hv : ∀ k ∈ ks, s.fs.has k = true → viewInRange s k = true)
    (hfit : s.outLen.toNat + (recordsOf s ks).length ≤ s.maxLen.toNat) :
    encFrom ks s = .ok ((putPayload (recordsOf s ks) s).setEncK 18) := by
  have := encFrom_append ks [] s hq hv hfit
  rwa [List.append_nil] at this

/-- A relation between the state a loop starts from and the one it ends in, kept by every record write and
by the loop's own bookkeeping, holds of the whole loop: a claim about an ENCODE, whatever its end, is a few
small goals. -/
theorem encFrom_induction (R : State → State → Prop)
    (htrans : ∀ s t u, R s t → R t u → R s u) (hk : ∀ s x, R s (s.setEncK x))
    (hw : ∀ s, R s (s.setEngState .waitTxp))
    (hp : ∀ s bs, 2 ≤ bs.length → s.outLen.toNat + bs.length ≤ s.maxLen.toNat → R s (putPayload bs s))
    (ks : List Kind) (s : State) :
    ∃ t, R s t ∧ (encFrom ks s = .ok t ∨ (∃ e, encFrom ks s = .raised e t) ∨ encFrom ks s = .suspended t) := by
  induction ks generalizing s with
  | nil => exact ⟨_, hk s 18, .inl rfl⟩
  | cons k ks ih =>
    by_cases hh : s.fs.has k = true
    · by_cases hq : s.queries k = true
      · exact ⟨_, htrans _ _ _ (hk s k.num) (hw _), .inr (.inr (encFrom_query ks hh hq))⟩
      · have hq : s.queries k = false := by simpa using hq
        by_cases h1 : s.outLen.toNat + 2 + (payloadOf s k).length ≤ s.maxLen.toNat
        · by_cases h2 : viewInRange s k = true
          · rw [encFrom_written ks hh hq h1 h2]
            obtain ⟨t, ht, hres⟩ := ih (putPayload (wireRecord (k.code s.fs) (payloadOf s k)) s)
            refine ⟨t, htrans _ _ _ (hp _ _ ?_ ?_) ht, hres⟩ <;> simp only [length_wireRecord] <;> omega
          · exact ⟨_, hk s k.num, .inr (.inl ⟨_, encFrom_failed ks hh hq
              (by rw [encField_eq, if_pos h1, if_neg h2])⟩)⟩
        · exact ⟨_, hk s k.num, .inr (.inl ⟨_, encFrom_failed ks hh hq (by rw [encField_eq, if_neg h1])⟩)⟩
    · rw [encFrom_absent ks (by simpa using hh)]
      exact ih s

end Sys2Proof.Machine
end

