-- ==== Sys2Proof/Laws/Step.lean ====
section
/-! SUPPORT. What a step, a move of the environment and a host access can do. -/

namespace Sys2Proof.Machine

/-- The engine's turn. -/
theorem step_engine {s : State} (h : s.nextMove = .engine) : step s = engineTurn s.popMove := by
  simp only [step, h]

/-- A move of the environment. -/
theorem step_environment {s : State} {e : Event} (h : s.nextMove = e) (he : e ≠ .engine) :
    step s = environment e s.popMove := by
  cases e <;> simp_all [step]

/-- The engine's turn while idle. -/
theorem engineTurn_idle {s : State} (h : s.engState = .idle) : engineTurn s = .next s := by
  simp only [engineTurn, h]

/-- The engine's turn while a command is latched. -/
theorem engineTurn_exec {s : State} (h : s.engState = .exec) : engineTurn s = exec (decodeCommand s.latch) s := by
  simp only [engineTurn, h, State.fetchCommand]

/-- The engine's turn while an answer is awaited. -/
theorem engineTurn_waitTxp {s : State} (h : s.engState = .waitTxp) : engineTurn s = .next (resumeEncode s) := by
  simp only [engineTurn, h]

/-- The accesses the bus does not admit (20_memory.md R86, R87). -/
theorem admitted_eq_false (off : Nat) (width : Width) : admitted off width = false ↔ NotAdmitted off width := by
  unfold admitted NotAdmitted
  by_cases h1 : off < 0x1000
  · cases width <;> simp [h1]
  · by_cases h2 : off < 0x1200
    · cases width <;> simp [h1, h2] <;> omega
    · simp [h1, h2]

theorem admitted_eq_true (off : Nat) (width : Width) : admitted off width = true ↔ ¬NotAdmitted off width := by
  rw [← admitted_eq_false, Bool.not_eq_false]

theorem NotAdmitted.lt {off : Nat} {width : Width} (h : NotAdmitted off width) : off < 0x2000 := by
  rcases h with ⟨h, -⟩ | ⟨-, h, -⟩ <;> omega

/-- An admitted access within the window. -/
theorem onBus_next (base off : Nat) (width : Width) (access : Nat → State) (h : off < 0x2000)
    (ha : ¬NotAdmitted off width) : onBus base (base + off) width access = .next (access off) := by
  have hsub : base + off - base = off := by omega
  rw [onBus, if_pos ⟨by omega, by omega⟩, hsub, if_pos ((admitted_eq_true _ _).2 ha)]

/-- An access the bus does not admit. -/
theorem onBus_refused (base off : Nat) (width : Width) (access : Nat → State) (ha : NotAdmitted off width) :
    onBus base (base + off) width access = .refused (.inadmissibleAccess off width) := by
  have := ha.lt
  have hsub : base + off - base = off := by omega
  rw [onBus, if_pos ⟨by omega, by omega⟩, hsub, if_neg]
  simp [(admitted_eq_false off width).2 ha]

/-- All a host access can do. -/
theorem onBus_cases (base addr : Nat) (width : Width) (access : Nat → State) :
    (∃ off, addr = base + off ∧ off < 0x2000 ∧ ¬NotAdmitted off width ∧
      onBus base addr width access = .next (access off)) ∨
    (∃ off, addr = base + off ∧ NotAdmitted off width ∧
      onBus base addr width access = .refused (.inadmissibleAccess off width)) ∨
    ((addr < base ∨ base + 0x2000 ≤ addr) ∧ onBus base addr width access = .fault (.outsideWindow addr)) := by
  by_cases h : base ≤ addr ∧ addr < base + 0x2000
  · obtain ⟨off, rfl⟩ := Nat.exists_eq_add_of_le h.1
    by_cases ha : NotAdmitted off width
    · exact .inr (.inl ⟨off, rfl, ha, onBus_refused _ _ _ _ ha⟩)
    · exact .inl ⟨off, rfl, by omega, ha, onBus_next _ _ _ _ (by omega) ha⟩
  · refine .inr (.inr ⟨by omega, ?_⟩)
    rw [onBus, if_neg h]

/-- All an admitted host read can do: it records a value, and takes a draw where that value is one (20_memory.md
R92, R99). -/
theorem State.busRead_cases (s : State) (addr off : Nat) (width : Width) :
    (s.busy = true ∧ exactWhileBusy off = false ∧ s.busRead addr off width =
      { s with busReads := ⟨addr, drawOf s.draws width⟩ :: s.busReads, draws := s.draws + 1 }) ∨
    ((s.busy = false ∨ exactWhileBusy off = true) ∧
      s.busRead addr off width = { s with busReads := ⟨addr, s.busValue off width⟩ :: s.busReads }) := by
  unfold State.busRead
  by_cases h1 : s.busy = true <;> by_cases h2 : exactWhileBusy off = true <;> simp [h1, h2]

/-- Bit 0 of STATUS (10_state.md R34). -/
theorem State.status_bit0 (s : State) : s.status.getLsbD 0 = s.busy := by
  unfold State.status
  generalize s.errSrc = e, s.waitTxp = w, s.busy = b
  cases e <;> cases w <;> cases b <;> rfl

/-- All a round of POLL can do: it records STATUS, and is done when the block is idle (30_encoding.md R117). -/
theorem State.pollStatus_cases (s : State) :
    (s.engState = .idle ∧
      s.pollStatus = { s with busReads := ⟨s.cfg.base + 0x004, s.status⟩ :: s.busReads }) ∨
    (s.engState ≠ .idle ∧ s.pollStatus = { s with
      agenda := pollAgain s.agenda, busReads := ⟨s.cfg.base + 0x004, s.status⟩ :: s.busReads }) := by
  have hv : s.busValue 0x004 .w32 = s.status := rfl
  have hr : s.busRead (s.cfg.base + 0x004) 0x004 .w32 =
      { s with busReads := ⟨s.cfg.base + 0x004, s.status⟩ :: s.busReads } := by
    rcases s.busRead_cases (s.cfg.base + 0x004) 0x004 .w32 with ⟨-, h, -⟩ | ⟨-, h⟩
    · exact absurd h (by decide)
    · rw [h, hv]
  simp only [State.pollStatus, hv, hr, State.status_bit0]
  by_cases h : s.engState = .idle <;> simp [State.busy, h]

/-- All that `pollAgain` can do: one move of another agent comes first, then the POLL again. -/
theorem pollAgain_cases (es : List Event) :
    ∃ e es', pollAgain es = e :: .hostPoll :: es' ∧ e.byHost = false ∧
      (es = e :: es' ∨ (e = .engine ∧ es' = es)) := by
  unfold pollAgain
  split
  · exact ⟨_, _, rfl, rfl, .inr ⟨rfl, rfl⟩⟩
  · split <;> rename_i h
    · exact ⟨_, _, rfl, rfl, .inr ⟨rfl, rfl⟩⟩
    · exact ⟨_, _, rfl, by simpa using h, .inl rfl⟩

/-- All an admitted host write can do: nothing while busy or at a reserved offset, else it writes the register or
the bytes (10_state.md R32, R33; 20_memory.md R84, R98). -/
theorem State.busWrite_cases (s : State) (off : Nat) (width : Width) (v : Word) :
    s.busWrite off width v = s ∨
    (s.engState = .idle ∧ off < 0x1000 ∧ ∃ r, regAt off = some r ∧ s.busWrite off width v = s.writeReg v r) ∨
    (s.engState = .idle ∧ 0x1000 ≤ off ∧ off < 0x1200 ∧ width = .w32 ∧
      s.busWrite off width v = { s with mem := s.mem.setBytes off (wordBytes v) }) ∨
    (s.engState = .idle ∧ 0x1000 ≤ off ∧ off < 0x1200 ∧ width ≠ .w32 ∧
      s.busWrite off width v = { s with mem := s.mem.set off (wordByte v 0) }) := by
  unfold State.busWrite
  by_cases hb : s.busy = true
  · exact .inl (by rw [if_pos hb])
  · have hi : s.engState = .idle := by simpa [State.busy] using hb
    simp only [if_neg hb]
    by_cases h1 : off < 0x1000
    · simp only [if_pos h1]
      cases hr : regAt off with
      | none => exact .inl rfl
      | some r => exact .inr (.inl ⟨hi, h1, r, rfl, rfl⟩)
    · simp only [if_neg h1]
      by_cases h2 : isMemory off = true
      · have h2' : 0x1000 ≤ off ∧ off < 0x1200 := by simpa [isMemory] using h2
        simp only [if_pos h2]
        cases width
        · exact .inr (.inr (.inr ⟨hi, h2'.1, h2'.2, by decide, rfl⟩))
        · exact .inr (.inr (.inr ⟨hi, h2'.1, h2'.2, by decide, rfl⟩))
        · exact .inr (.inr (.inl ⟨hi, h2'.1, h2'.2, rfl, rfl⟩))
      · exact .inl (by rw [if_neg h2])

end Sys2Proof.Machine
end

