-- ==== Sys2Proof/Laws/Commands.lean ====
section
/-! SUPPORT. What any command can do, said once: the writes it is made of. -/

namespace Sys2Proof.Machine

/-- A relation between the state before a command and the one after, kept by each write a command is made of.
`payload` is the only write to memory: a record at the cursor, within the capacity. -/
structure KeptByCommands (R : State → State → Prop) : Prop where
  refl : ∀ s, R s s
  trans : ∀ s t u, R s t → R t u → R s u
  encK : ∀ s x, x ≤ 18 → R s (s.setEncK x)
  resume : ∀ s, s.engState = .waitTxp → R s (s.setEngState .exec)
  suspend : ∀ s : State, s.fs.has .txp = true → s.fs.txp = s.cfg.txPwrAuto →
    R s ((s.setEncK 5).setEngState .waitTxp)
  restart : ∀ s, R s (s.setOutLen 0)
  payload : ∀ s bs, s.outLen.toNat + bs.length ≤ s.maxLen.toNat → R s (putPayload bs s)
  header : ∀ (t : Byte) (n : Nat) (s : State), s.outLen.toNat + 2 + n ≤ s.maxLen.toNat → R s (putHdr t n s)
  consumed : ∀ s n, R s (s.setConsumed n)
  decPos : ∀ s p, R s (s.setDecPos p)
  fieldSet : ∀ (s : State) (fs : FieldSet), R s (s.setFs fs)
  draw : ∀ s, R s s.partialFieldSet
  complete : ∀ s, R s s.complete
  raise : ∀ s e, R s (s.raise e)

namespace KeptByCommands

variable {R : State → State → Prop} (hR : KeptByCommands R)

include hR

theorem finish {s : State} {e : Ending}
    (h : ∃ t, R s t ∧ (e = .ok t ∨ (∃ err, e = .raised err t) ∨ e = .suspended t)) : R s e.finish := by
  obtain ⟨t, ht, rfl | ⟨err, rfl⟩ | rfl⟩ := h
  · exact hR.trans _ _ _ ht (hR.complete t)
  · exact hR.trans _ _ _ ht (hR.raise t err)
  · exact ht

theorem endAtomic {s : State} {r : Except Err State} (h : ∀ t, r = .ok t → R s t) :
    R s (endAtomic s r).finish := by
  cases r with
  | ok t => exact hR.trans _ _ _ (h t rfl) (hR.complete t)
  | error e => exact hR.raise s e

theorem gated {s : State} {body : State → Ending} (h : R s (body s).finish) : R s (gated s body).finish := by
  unfold Machine.gated
  by_cases hs : s.cfg.encodeSupported = true
  · rw [if_pos hs]
    exact h
  · rw [if_neg hs]
    exact hR.raise s _

theorem window {s : State} (p r size : Nat) {dec : State → Except Err State}
    (h : ∀ t, dec (s.setConsumed 0) = .ok t → R (s.setConsumed 0) t) : R s (decodeWindow p r size dec s) := by
  have h0 := hR.consumed s 0
  unfold decodeWindow
  by_cases hw : p + r ≤ Config.memSize
  · simp only [if_pos hw]
    cases hd : dec (s.setConsumed 0) with
    | ok t =>
      exact hR.trans _ _ _ (hR.trans _ _ _ (hR.trans _ _ _ h0 (h t hd)) (hR.consumed t size)) (hR.complete _)
    | error e => exact hR.trans _ _ _ h0 (hR.raise _ e)
  · simp only [if_neg hw]
    exact hR.trans _ _ _ h0 (hR.raise _ _)

theorem record {t : Byte} {rule : Nat → Nat → State → Except Err State} (hr : RuleIs t rule) (len : Byte)
    (s : State) : R s (runRecord len rule s) := by
  refine hR.window _ _ _ fun t ht => ?_
  rw [decodeLengthed_eq hr] at ht
  split_ifs at ht
  exact Except.ok.inj ht ▸ hR.fieldSet _ _

theorem loop (ks : List Kind) (s : State) : R s (encFrom ks s).finish := by
  induction ks generalizing s with
  | nil => exact hR.trans _ _ _ (hR.encK s 18 (le_refl _)) (hR.complete _)
  | cons k ks ih =>
    have hk := hR.encK s k.num (Nat.le_of_lt k.num_lt)
    by_cases hh : s.fs.has k = true
    · by_cases hq : s.queries k = true
      · rw [encFrom_query ks hh hq]
        have hk5 : k = .txp ∧ s.fs.txp = s.cfg.txPwrAuto := by simpa [State.queries] using hq
        obtain ⟨rfl, hauto⟩ := hk5
        exact hR.suspend s hh hauto
      · have hq : s.queries k = false := by simpa using hq
        by_cases h1 : s.outLen.toNat + 2 + (payloadOf s k).length ≤ s.maxLen.toNat
        · by_cases h2 : viewInRange s k = true
          · rw [encFrom_written ks hh hq h1 h2]
            exact hR.trans _ _ _ (hR.payload _ _ (by simp only [length_wireRecord]; omega)) (ih _)
          · rw [encFrom_failed ks hh hq (by rw [encField_eq, if_pos h1, if_neg h2])]
            exact hR.trans _ _ _ hk (hR.raise _ _)
        · rw [encFrom_failed ks hh hq (by rw [encField_eq, if_neg h1])]
          exact hR.trans _ _ _ hk (hR.raise _ _)
    · rw [encFrom_absent ks (by simpa using hh)]
      exact ih s

/-- The resumption of a suspended ENCODE is made of the same writes. -/
theorem resumption (s : State) (hw : s.engState = .waitTxp) : R s (resumeEncode s) := by
  unfold resumeEncode
  by_cases hv : s.txp.valid = true
  · rw [if_pos hv]
    have h0 := hR.resume s hw
    refine hR.trans _ _ _ h0 ?_
    unfold encodeAfterAnswer
    by_cases ho : (s.setEngState .exec).txp.ok = true
    · simp only [if_pos ho, emitBytes_eq]
      by_cases hf : (s.setEngState .exec).outLen.toNat + 2 + [(s.setEngState .exec).txp.val].length ≤
          (s.setEngState .exec).maxLen.toNat
      · simp only [if_pos hf]
        refine hR.trans _ _ _ (hR.payload _ _ ?_) (hR.loop _ _)
        simp only [length_wireRecord]
        omega
      · simp only [if_neg hf]
        exact hR.raise _ _
    · simp only [if_neg ho]
      exact hR.raise _ _
  · rw [if_neg hv]
    exact hR.refl s

/-- A command of the encode family is made of those writes. -/
theorem encodeFamily (s : State) :
    (∀ t n : Byte, R s (Machine.gated s fun s => Machine.endAtomic s (writeHdr t n.toNat s)).finish) ∧
    (∀ t n off : Byte,
      R s (Machine.gated s fun s => Machine.endAtomic s (emitView t off.toNat n.toNat s)).finish) ∧
    (∀ t cnt : Byte, R s (Machine.gated s fun s => Machine.endAtomic s (emitArr16 t cnt.toNat s)).finish) ∧
    (∀ t cnt : Byte, R s (Machine.gated s fun s => Machine.endAtomic s (emitArr32 t cnt.toNat s)).finish) ∧
    R s (Machine.gated s fun s => encFrom allKinds (s.setOutLen 0)).finish := by
  refine ⟨fun t n => hR.gated (hR.endAtomic fun u hu => ?_), fun t n off => hR.gated (hR.endAtomic fun u hu => ?_),
    fun t n => hR.gated (hR.endAtomic fun u hu => ?_), fun t n => hR.gated (hR.endAtomic fun u hu => ?_),
    hR.gated (hR.trans _ _ _ (hR.restart s) (hR.loop _ _))⟩
  · unfold writeHdr at hu
    split_ifs at hu with h
    exact Except.ok.inj hu ▸ hR.header _ _ _ ((s.hdrFits_iff _).1 h)
  · rw [emitView_eq] at hu
    split_ifs at hu with h
    exact Except.ok.inj hu ▸ hR.payload _ _ (by simp only [length_wireRecord, State.length_srcBytes]; omega)
  · rw [emitArr16_eq] at hu
    split_ifs at hu with h
    exact Except.ok.inj hu ▸ hR.payload _ _ (by simp only [length_wireRecord, FieldSet.length_u16Bytes]; omega)
  · rw [emitArr32_eq] at hu
    split_ifs at hu with h
    exact Except.ok.inj hu ▸ hR.payload _ _ (by simp only [length_wireRecord, FieldSet.length_u32Bytes]; omega)

/-- Any instruction answers a next state and is made of those writes. -/
theorem command (i : Instr) (s : State) : ∃ t, exec i s = .next t ∧ R s t := by
  obtain ⟨hdr, flat, arr16, arr32, encode⟩ := hR.encodeFamily s
  cases i
  case nop => exact ⟨_, rfl, hR.complete s⟩
  case hdr t n => exact ⟨_, rfl, hdr t n⟩
  case flat t n off => exact ⟨_, rfl, flat t n off⟩
  case arr16 t cnt => exact ⟨_, rfl, arr16 t cnt⟩
  case arr32 t cnt => exact ⟨_, rfl, arr32 t cnt⟩
  case encode => exact ⟨_, rfl, encode⟩
  case pu16 off n c =>
    refine ⟨_, rfl, hR.endAtomic fun t ht => ?_⟩
    unfold inSrcRange decodeUuid16 at ht
    split_ifs at ht
    exact Except.ok.inj ht ▸ hR.fieldSet _ _
  case pu32 off n c =>
    refine ⟨_, rfl, hR.endAtomic fun t ht => ?_⟩
    unfold inSrcRange decodeUuid32 at ht
    split_ifs at ht
    exact Except.ok.inj ht ▸ hR.fieldSet _ _
  case dec1 p r =>
    refine ⟨_, rfl, hR.window _ _ _ fun t ht => ?_⟩
    obtain ⟨fs, rfl⟩ := decodeOne_ok ht
    exact hR.fieldSet _ _
  case decode =>
    refine ⟨_, rfl, ?_⟩
    have h0 : R s s.fsClear := hR.fieldSet s .zero
    obtain ⟨fs, q, h | ⟨e, h⟩⟩ := decodeWalk_ends s.inLen.toNat 0 s.inLen.toNat s.fsClear
    · rw [h]
      exact hR.trans _ _ _ (hR.trans _ _ _ (hR.trans _ _ _ h0 (hR.fieldSet _ fs)) (hR.decPos _ q)) (hR.complete _)
    · rw [h]
      exact hR.trans _ _ _ (hR.trans _ _ _ (hR.trans _ _ _ (hR.trans _ _ _ h0 (hR.fieldSet _ fs))
        (hR.decPos _ q)) (hR.draw _)) (hR.raise _ e)
  case fsclr => exact ⟨_, rfl, hR.trans _ _ _ (hR.fieldSet s .zero) (hR.complete _)⟩
  case reserved op => exact ⟨_, rfl, hR.raise s _⟩
  case adFlags len => exact ⟨_, rfl, hR.record ruleFlags_is len s⟩
  case adUuid16Incomplete len => exact ⟨_, rfl, hR.record ruleUuid16_false_is len s⟩
  case adUuid16Complete len => exact ⟨_, rfl, hR.record ruleUuid16_true_is len s⟩
  case adUuid32Incomplete len => exact ⟨_, rfl, hR.record ruleUuid32_false_is len s⟩
  case adUuid32Complete len => exact ⟨_, rfl, hR.record ruleUuid32_true_is len s⟩
  case adUuid128Incomplete len => exact ⟨_, rfl, hR.record ruleUuid128_false_is len s⟩
  case adUuid128Complete len => exact ⟨_, rfl, hR.record ruleUuid128_true_is len s⟩
  case adNameIncomplete len => exact ⟨_, rfl, hR.record ruleName_false_is len s⟩
  case adNameComplete len => exact ⟨_, rfl, hR.record ruleName_true_is len s⟩
  case adTxPower len => exact ⟨_, rfl, hR.record ruleTxPower_is len s⟩
  case adClassOfDevice len => exact ⟨_, rfl, hR.record ruleClassOfDevice_is len s⟩
  case adPeriphConnItvlRange len => exact ⟨_, rfl, hR.record ruleItvlRange_is len s⟩
  case adSvcDataUuid16 len => exact ⟨_, rfl, hR.record ruleSvcData16_is len s⟩
  case adPublicTargetAddr len => exact ⟨_, rfl, hR.record rulePublicTarget_is len s⟩
  case adAppearance len => exact ⟨_, rfl, hR.record ruleAppearance_is len s⟩
  case adAdvInterval len => exact ⟨_, rfl, hR.record ruleAdvInterval_is len s⟩
  case adLeDeviceAddr len => exact ⟨_, rfl, hR.record ruleLeDeviceAddr_is len s⟩
  case adLeRole len => exact ⟨_, rfl, hR.record ruleLeRole_is len s⟩
  case adSvcDataUuid32 len => exact ⟨_, rfl, hR.record ruleSvcData32_is len s⟩
  case adSvcDataUuid128 len => exact ⟨_, rfl, hR.record ruleSvcData128_is len s⟩
  case adUri len => exact ⟨_, rfl, hR.record ruleUri_is len s⟩
  case adMfgData len => exact ⟨_, rfl, hR.record ruleMfgData_is len s⟩
  case adUnrecognised len t =>
    refine ⟨_, rfl, hR.window _ _ _ fun u hu => ?_⟩
    unfold decodeLengthed ruleSkip at hu
    split_ifs at hu
    exact Except.ok.inj hu ▸ hR.refl _

end KeptByCommands

end Sys2Proof.Machine
end

