-- ==== Sys2Proof/Laws/Encoding.lean ====
section
/-! SUPPORT. The fields of a command word, and what a reserved opcode and an unrecognised type code decode to. -/

namespace Sys2Proof.Machine

@[simp] theorem cmdOp_cmdWord (op a b c : Byte) : cmdOp (cmdWord op a b c) = op := (wordByte_le32 op a b c).1

@[simp] theorem cmdA_cmdWord (op a b c : Byte) : cmdA (cmdWord op a b c) = a := (wordByte_le32 op a b c).2.1

@[simp] theorem cmdB_cmdWord (op a b c : Byte) : cmdB (cmdWord op a b c) = b := (wordByte_le32 op a b c).2.2.1

@[simp] theorem cmdC_cmdWord (op a b c : Byte) : cmdC (cmdWord op a b c) = c := (wordByte_le32 op a b c).2.2.2

/-- A word whose opcode the table of 30_encoding.md R111 lacks is a reserved command (R114). -/
theorem decodeCommand_reserved (w : Word) (h : definedOpcodes.contains (cmdOp w) = false) :
    decodeCommand w = .reserved (cmdOp w) := by
  simp only [definedOpcodes, List.contains_eq_mem, List.mem_cons, List.not_mem_nil, or_false,
    decide_eq_false_iff_not, not_or] at h
  unfold decodeCommand
  split <;> simp_all

/-- A type code the table of 30_encoding.md R125 lacks is an unrecognised record (R126). -/
theorem decodeHeader_unrecognised (len t : Byte) (h : definedTypeCodes.contains t = false) :
    decodeHeader len t = .adUnrecognised len t := by
  simp only [definedTypeCodes, List.contains_eq_mem, List.mem_cons, List.not_mem_nil, or_false,
    decide_eq_false_iff_not, not_or] at h
  unfold decodeHeader
  split <;> simp_all

end Sys2Proof.Machine
end

