-- ==== Sys2Proof/Laws/PerInstr.lean ====
section
/-! SUPPORT. Families of facts about every instruction as syntax: one lemma per constructor. -/

namespace Sys2Proof.Laws.EncodeMatchesTable

/-- A row of spec/opcode_table.json: its `match` under its `mask`, on a command word or on the 16-bit value
`L | T << 8` of a record; `none` for `"other"`. -/
structure Row where
  mask : Nat
  value : Option Nat
  deriving DecidableEq, Repr

/-- The row of each constructor. -/
def row : Instr → Row
  | .nop => ⟨0x000000FF, some 0x00000000⟩
  | .hdr _ _ => ⟨0x000000FF, some 0x00000001⟩
  | .flat _ _ _ => ⟨0x000000FF, some 0x00000002⟩
  | .arr16 _ _ => ⟨0x000000FF, some 0x00000003⟩
  | .arr32 _ _ => ⟨0x000000FF, some 0x00000004⟩
  | .encode => ⟨0x000000FF, some 0x00000008⟩
  | .pu16 _ _ _ => ⟨0x000000FF, some 0x00000010⟩
  | .pu32 _ _ _ => ⟨0x000000FF, some 0x00000011⟩
  | .dec1 _ _ => ⟨0x000000FF, some 0x00000012⟩
  | .decode => ⟨0x000000FF, some 0x00000018⟩
  | .fsclr => ⟨0x000000FF, some 0x00000020⟩
  | .reserved _ => ⟨0x000000FF, none⟩
  | .adFlags _ => ⟨0xFF00, some 0x0100⟩
  | .adUuid16Incomplete _ => ⟨0xFF00, some 0x0200⟩
  | .adUuid16Complete _ => ⟨0xFF00, some 0x0300⟩
  | .adUuid32Incomplete _ => ⟨0xFF00, some 0x0400⟩
  | .adUuid32Complete _ => ⟨0xFF00, some 0x0500⟩
  | .adUuid128Incomplete _ => ⟨0xFF00, some 0x0600⟩
  | .adUuid128Complete _ => ⟨0xFF00, some 0x0700⟩
  | .adNameIncomplete _ => ⟨0xFF00, some 0x0800⟩
  | .adNameComplete _ => ⟨0xFF00, some 0x0900⟩
  | .adTxPower _ => ⟨0xFF00, some 0x0A00⟩
  | .adClassOfDevice _ => ⟨0xFF00, some 0x0D00⟩
  | .adPeriphConnItvlRange _ => ⟨0xFF00, some 0x1200⟩
  | .adSvcDataUuid16 _ => ⟨0xFF00, some 0x1600⟩
  | .adPublicTargetAddr _ => ⟨0xFF00, some 0x1700⟩
  | .adAppearance _ => ⟨0xFF00, some 0x1900⟩
  | .adAdvInterval _ => ⟨0xFF00, some 0x1A00⟩
  | .adLeDeviceAddr _ => ⟨0xFF00, some 0x1B00⟩
  | .adLeRole _ => ⟨0xFF00, some 0x1C00⟩
  | .adSvcDataUuid32 _ => ⟨0xFF00, some 0x2000⟩
  | .adSvcDataUuid128 _ => ⟨0xFF00, some 0x2100⟩
  | .adUri _ => ⟨0xFF00, some 0x2400⟩
  | .adMfgData _ => ⟨0xFF00, some 0xFF00⟩
  | .adUnrecognised _ _ => ⟨0xFF00, none⟩

/-- The matches of the command rows and of the record rows. -/
def commandMatches : List Nat := [0x00000000, 0x00000001, 0x00000002, 0x00000003, 0x00000004, 0x00000008, 0x00000010, 0x00000011, 0x00000012, 0x00000018, 0x00000020]

def recordMatches : List Nat :=
  [0x0100, 0x0200, 0x0300, 0x0400, 0x0500, 0x0600, 0x0700, 0x0800, 0x0900, 0x0A00, 0x0D00,
    0x1200, 0x1600, 0x1700, 0x1900, 0x1A00, 0x1B00, 0x1C00, 0x2000, 0x2100, 0x2400, 0xFF00]

/-- The bits of a code as the table numbers them. -/
def bits : Code → Nat
  | .command w => w.toNat
  | .record bytes => (bytes.getD 0 0).toNat + 256 * (bytes.getD 1 0).toNat

/-- The matches that an `"other"` row excludes. -/
def excluded : Code → List Nat
  | .command _ => commandMatches
  | .record _ => recordMatches

/-- The encoding of a well-formed instruction has its row's fixed bits; for an `"other"` row, no other row's. -/
def Statement (i : Instr) : Prop :=
  i.wf = true →
    match (row i).value with
    | some v => bits (encode i) &&& (row i).mask = v
    | none => ¬(bits (encode i) &&& (row i).mask) ∈ excluded (encode i)

/-- The low byte of a command word is its opcode. -/
theorem command_bits (op a b c : Byte) : bits (.command (cmdWord op a b c)) &&& 0x000000FF = op.toNat := by
  have h : cmdOp (cmdWord op a b c) = op := Machine.cmdOp_cmdWord op a b c
  have h2 := congrArg BitVec.toNat h
  simp only [cmdOp, BitVec.extractLsb'_toNat, Nat.shiftRight_zero] at h2
  rw [bits, show (0x000000FF : Nat) = 2 ^ 8 - 1 from rfl, Nat.and_two_pow_sub_one_eq_mod]
  exact h2

/-- The high byte of a record header's 16 bits is its type code. -/
theorem record_bits (len t : Byte) : bits (.record [len, t]) &&& 0xFF00 = 256 * t.toNat := by
  have hl := len.isLt
  have ht := t.isLt
  have h : (len.toNat + 256 * t.toNat) &&& 0xFF00 = ((len.toNat + 256 * t.toNat) / 256 &&& 0xFF) * 256 := by
    apply Nat.eq_of_testBit_eq
    intro i
    rw [show (256 : Nat) = 2 ^ 8 from rfl, show (0xFF00 : Nat) = 0xFF * 2 ^ 8 from rfl]
    simp only [Nat.testBit_and, Nat.testBit_mul_two_pow, Nat.testBit_div_two_pow]
    by_cases hi : 8 ≤ i <;> simp [hi]
  have hd : (len.toNat + 256 * t.toNat) / 256 = t.toNat := by omega
  have hf : t.toNat &&& 0xFF = t.toNat := by
    rw [show (0xFF : Nat) = 2 ^ 8 - 1 from rfl, Nat.and_two_pow_sub_one_eq_mod]
    omega
  show (len.toNat + 256 * t.toNat) &&& 0xFF00 = _
  rw [h, hd, hf, Nat.mul_comm]

theorem nop : Statement .nop := fun _ => command_bits _ _ _ _

theorem hdr (t n : Byte) : Statement (.hdr t n) := fun _ => command_bits _ _ _ _

theorem flat (t n off : Byte) : Statement (.flat t n off) := fun _ => command_bits _ _ _ _

theorem arr16 (t cnt : Byte) : Statement (.arr16 t cnt) := fun _ => command_bits _ _ _ _

theorem arr32 (t cnt : Byte) : Statement (.arr32 t cnt) := fun _ => command_bits _ _ _ _

theorem encode : Statement .encode := fun _ => command_bits _ _ _ _

theorem pu16 (off n : Byte) (c : Bool) : Statement (.pu16 off n c) := fun _ => command_bits _ _ _ _

theorem pu32 (off n : Byte) (c : Bool) : Statement (.pu32 off n c) := fun _ => command_bits _ _ _ _

theorem dec1 (p r : Byte) : Statement (.dec1 p r) := fun _ => command_bits _ _ _ _

theorem decode : Statement .decode := fun _ => command_bits _ _ _ _

theorem fsclr : Statement .fsclr := fun _ => command_bits _ _ _ _

theorem reserved (op : Byte) : Statement (.reserved op) := by
  intro h
  show ¬(bits (Sys2Proof.encode (.reserved op)) &&& 0x000000FF) ∈ commandMatches
  rw [Sys2Proof.encode, command_bits]
  revert op
  decide

theorem adFlags (len : Byte) : Statement (.adFlags len) := fun _ => record_bits _ _

theorem adUuid16Incomplete (len : Byte) : Statement (.adUuid16Incomplete len) := fun _ => record_bits _ _

theorem adUuid16Complete (len : Byte) : Statement (.adUuid16Complete len) := fun _ => record_bits _ _

theorem adUuid32Incomplete (len : Byte) : Statement (.adUuid32Incomplete len) := fun _ => record_bits _ _

theorem adUuid32Complete (len : Byte) : Statement (.adUuid32Complete len) := fun _ => record_bits _ _

theorem adUuid128Incomplete (len : Byte) : Statement (.adUuid128Incomplete len) := fun _ => record_bits _ _

theorem adUuid128Complete (len : Byte) : Statement (.adUuid128Complete len) := fun _ => record_bits _ _

theorem adNameIncomplete (len : Byte) : Statement (.adNameIncomplete len) := fun _ => record_bits _ _

theorem adNameComplete (len : Byte) : Statement (.adNameComplete len) := fun _ => record_bits _ _

theorem adTxPower (len : Byte) : Statement (.adTxPower len) := fun _ => record_bits _ _

theorem adClassOfDevice (len : Byte) : Statement (.adClassOfDevice len) := fun _ => record_bits _ _

theorem adPeriphConnItvlRange (len : Byte) : Statement (.adPeriphConnItvlRange len) := fun _ => record_bits _ _

theorem adSvcDataUuid16 (len : Byte) : Statement (.adSvcDataUuid16 len) := fun _ => record_bits _ _

theorem adPublicTargetAddr (len : Byte) : Statement (.adPublicTargetAddr len) := fun _ => record_bits _ _

theorem adAppearance (len : Byte) : Statement (.adAppearance len) := fun _ => record_bits _ _

theorem adAdvInterval (len : Byte) : Statement (.adAdvInterval len) := fun _ => record_bits _ _

theorem adLeDeviceAddr (len : Byte) : Statement (.adLeDeviceAddr len) := fun _ => record_bits _ _

theorem adLeRole (len : Byte) : Statement (.adLeRole len) := fun _ => record_bits _ _

theorem adSvcDataUuid32 (len : Byte) : Statement (.adSvcDataUuid32 len) := fun _ => record_bits _ _

theorem adSvcDataUuid128 (len : Byte) : Statement (.adSvcDataUuid128 len) := fun _ => record_bits _ _

theorem adUri (len : Byte) : Statement (.adUri len) := fun _ => record_bits _ _

theorem adMfgData (len : Byte) : Statement (.adMfgData len) := fun _ => record_bits _ _

theorem adUnrecognised (len t : Byte) : Statement (.adUnrecognised len t) := by
  intro hw
  show ¬(bits (Sys2Proof.encode (.adUnrecognised len t)) &&& 0xFF00) ∈ recordMatches
  rw [Sys2Proof.encode, record_bits]
  have h : definedTypeCodes.contains t = false := by simpa using (Bool.and_eq_true_iff.1 hw).2
  clear hw len
  revert t
  decide

end Sys2Proof.Laws.EncodeMatchesTable
end

