-- ==== Sys2Proof/Tests/Slice0.lean ====
section
/-! SUPPORT. Tests of one step each, their expected results from spec/95_test_vectors.md and spec/30_encoding.md, and
a witness for the hypotheses of each statement. -/

namespace Sys2Proof.Tests

open Sys2Proof.Machine

/-! ## Small states -/

/-- After reset, with these bytes in SRC from offset `off` on. -/
def holdingAt (off : Nat) (bs : List Byte) : State :=
  { State.reset with mem := Memory.setBytes [] (srcBase + off) bs }

def holding (bs : List Byte) : State := holdingAt 0 bs

/-- `holding bs` with a DEC1 of all those bytes latched. -/
def recordAt (bs : List Byte) : State :=
  { holding bs with latch := cmdWord 0x12 0 (BitVec.ofNat 8 bs.length) 0, engState := .exec }

/-- After reset, with a command latched. -/
def latched (w : Word) : State := { State.reset with latch := w, engState := .exec }

/-- After reset, with this move next. -/
def moved (e : Event) : State := { State.reset with agenda := [e] }

/-- After reset, with a capacity. -/
def capacity (n : Byte) : State := { State.reset with maxLen := n }

/-- After reset, with a capacity of 31 and a field set. -/
def fields (fs : FieldSet) : State := { capacity 31 with fs := fs }

/-- The state after the first step of the vectors T1 to T7. -/
def waiting : State :=
  { fields { FieldSet.zero with present := 0x21, flags := 0x06, txp := 0x80 } with
    latch := 0x00000008, engState := .waitTxp, encK := 5, outLen := 3
    mem := Memory.setBytes [] dstBase [0x02, 0x01, 0x06] }

/-- `waiting` with the collaborator's answer offered. -/
def answered (ok : Bool) (val : Byte) (err : Word) : State := { waiting with txp := ⟨true, ok, val, err⟩ }

/-- A block whose encode path is disabled. -/
def disabled : State :=
  { capacity 31 with cfg := { Config.default with encodeSupported := false }, outLen := 5 }

/-- The state a step or an instruction answers. -/
def after : Host.Outcome State Fault Refusal → State
  | .next t => t
  | _ => State.reset

/-! ## Well-formedness: each check refuses an ill-formed term -/

theorem test_wf_reserved_with_a_table_opcode : (Instr.reserved 0x12).wf = false := by decide
theorem test_wf_reserved_with_another_opcode : (Instr.reserved 0x09).wf = true := by decide
theorem test_wf_unrecognised_with_a_table_code : (Instr.adUnrecognised 3 0x24).wf = false := by decide
theorem test_wf_unrecognised_without_type_byte : (Instr.adUnrecognised 0 0x99).wf = false := by decide
theorem test_wf_unrecognised : (Instr.adUnrecognised 3 0x99).wf = true := by decide

/-- Every record with the length byte 0 is ill-formed (30_encoding.md R124). -/
theorem test_wf_records_without_type_byte :
    (definedTypeCodes.map fun t => (decodeHeader 0 t).wf) = List.replicate 22 false := by decide

/-- Every opcode of the table refuses `reserved`, every code of the table `adUnrecognised`. -/
theorem test_wf_table_codes :
    (definedOpcodes.map fun op => (Instr.reserved op).wf) = List.replicate 11 false ∧
      (definedTypeCodes.map fun t => (Instr.adUnrecognised 1 t).wf) = List.replicate 22 false := by decide

/-! ## Decoding: the words of 95_test_vectors.md and the type codes of 30_encoding.md R125 -/

/-- K2 -/
theorem test_decode_nop : decode (.command 0xFFFFFF00) = .ok (.nop) := by decide

/-- H1 -/
theorem test_decode_hdr : decode (.command 0x00030901) = .ok (.hdr 0x09 3) := by decide

/-- F1 -/
theorem test_decode_flat : decode (.command 0x10030902) = .ok (.flat 0x09 3 0x10) := by decide

/-- A1 -/
theorem test_decode_arr16 : decode (.command 0x00020303) = .ok (.arr16 0x03 2) := by decide

/-- B1 -/
theorem test_decode_arr32 : decode (.command 0x00010504) = .ok (.arr32 0x05 1) := by decide

/-- Scenario A -/
theorem test_decode_encode : decode (.command 0x00000008) = .ok (.encode) := by decide

/-- P1 -/
theorem test_decode_pu16 : decode (.command 0x01040010) = .ok (.pu16 0 4 true) := by decide

/-- P8 -/
theorem test_decode_pu16_reads_one_bit_of_c : decode (.command 0xFE020010) = .ok (.pu16 0 2 false) := by decide

/-- P9 -/
theorem test_decode_pu32 : decode (.command 0x0104FD11) = .ok (.pu32 0xFD 4 true) := by decide

/-- D37 -/
theorem test_decode_dec1 : decode (.command 0x0002FE12) = .ok (.dec1 0xFE 2) := by decide

/-- Scenario B -/
theorem test_decode_decode : decode (.command 0x00000018) = .ok (.decode) := by decide

/-- K3 -/
theorem test_decode_fsclr : decode (.command 0x00000020) = .ok (.fsclr) := by decide

/-- K6 -/
theorem test_decode_reserved : decode (.command 0x12345609) = .ok (.reserved 0x09) := by decide

/-- D1 -/
theorem test_decode_adFlags : decode (.record [0x02, 0x01, 0x06]) = .ok (.adFlags 0x02) := by decide

/-- D3 -/
theorem test_decode_adUuid16Incomplete : decode (.record [0x05, 0x02, 0x34, 0x12, 0x78, 0x56]) = .ok (.adUuid16Incomplete 0x05) := by decide

/-- Scenario C -/
theorem test_decode_adUuid16Complete : decode (.record [0x05, 0x03, 0x34, 0x12, 0x78, 0x56]) = .ok (.adUuid16Complete 0x05) := by decide

/-- D6 -/
theorem test_decode_adUuid32Incomplete : decode (.record [0x03, 0x04, 0x01, 0x02]) = .ok (.adUuid32Incomplete 0x03) := by decide

/-- D5 -/
theorem test_decode_adUuid32Complete : decode (.record [0x05, 0x05, 0x78, 0x56, 0x34, 0x12]) = .ok (.adUuid32Complete 0x05) := by decide

/-- D7 -/
theorem test_decode_adUuid128Incomplete : decode (.record [0x11, 0x06]) = .ok (.adUuid128Incomplete 0x11) := by decide

/-- D8 -/
theorem test_decode_adUuid128Complete : decode (.record [0x09, 0x07]) = .ok (.adUuid128Complete 0x09) := by decide

/-- D10 -/
theorem test_decode_adNameIncomplete : decode (.record [0x01, 0x08]) = .ok (.adNameIncomplete 0x01) := by decide

/-- D9 -/
theorem test_decode_adNameComplete : decode (.record [0x04, 0x09, 0x46, 0x6F, 0x6F]) = .ok (.adNameComplete 0x04) := by decide

/-- D11 -/
theorem test_decode_adTxPower : decode (.record [0x02, 0x0A, 0xF8]) = .ok (.adTxPower 0x02) := by decide

/-- D13 -/
theorem test_decode_adClassOfDevice : decode (.record [0x04, 0x0D, 0x0C, 0x02, 0x5A]) = .ok (.adClassOfDevice 0x04) := by decide

/-- D15 -/
theorem test_decode_adPeriphConnItvlRange : decode (.record [0x05, 0x12, 0x06, 0x00, 0x20, 0x00]) = .ok (.adPeriphConnItvlRange 0x05) := by decide

/-- D16 -/
theorem test_decode_adSvcDataUuid16 : decode (.record [0x04, 0x16, 0x0F, 0x18, 0x64]) = .ok (.adSvcDataUuid16 0x04) := by decide

/-- D18 -/
theorem test_decode_adPublicTargetAddr : decode (.record [0x07, 0x17, 0xA1, 0xA2, 0xA3, 0xA4, 0xA5, 0xA6]) = .ok (.adPublicTargetAddr 0x07) := by decide

/-- D20 -/
theorem test_decode_adAppearance : decode (.record [0x03, 0x19, 0xC1, 0x03]) = .ok (.adAppearance 0x03) := by decide

/-- D21 -/
theorem test_decode_adAdvInterval : decode (.record [0x03, 0x1A, 0x00, 0x08]) = .ok (.adAdvInterval 0x03) := by decide

/-- D22 -/
theorem test_decode_adLeDeviceAddr : decode (.record [0x08, 0x1B, 0x00, 0x11, 0x22, 0x33, 0x44, 0x55, 0x66]) = .ok (.adLeDeviceAddr 0x08) := by decide

/-- D23 -/
theorem test_decode_adLeRole : decode (.record [0x02, 0x1C, 0x02]) = .ok (.adLeRole 0x02) := by decide

/-- D24 -/
theorem test_decode_adSvcDataUuid32 : decode (.record [0x05, 0x20, 0x01, 0x02, 0x03, 0x04]) = .ok (.adSvcDataUuid32 0x05) := by decide

/-- D26 -/
theorem test_decode_adSvcDataUuid128 : decode (.record [0x11, 0x21]) = .ok (.adSvcDataUuid128 0x11) := by decide

/-- D27 -/
theorem test_decode_adUri : decode (.record [0x03, 0x24, 0x16, 0x2F]) = .ok (.adUri 0x03) := by decide

/-- D28 -/
theorem test_decode_adMfgData : decode (.record [0x03, 0xFF, 0x4C, 0x00]) = .ok (.adMfgData 0x03) := by decide

/-- D29 -/
theorem test_decode_adUnrecognised :
    decode (.record [0x03, 0x99, 0xAA, 0xBB]) = .ok (.adUnrecognised 0x03 0x99) := by decide

theorem test_decode_no_record :
    decode (.record []) = .error .noLengthByte ∧ decode (.record [0x02]) = .error .noTypeByte := by decide

/-- The table's bit numbering: an opcode in bits 7..0, `L` in 7..0 and `T` in 15..8. -/
theorem test_decodeTableWord :
    decodeTableWord 32 0x00030901 = some (.hdr 0x09 3) ∧ decodeTableWord 8 0x20 = some .fsclr ∧
      decodeTableWord 16 0x0103 = some (.adFlags 3) := by decide

theorem test_kind_numbers : allKinds.map Kind.num = List.range 18 := by decide

/-! ## One step of each instruction -/

/-- K1 -/
theorem test_nop :
    let t := after (exec .nop { State.reset with result := 0x0A, errSrc := true })
    t.result = 0 ∧ t.errSrc = false := by decide

/-- K3 -/
theorem test_fsclr :
    let t := after (exec .fsclr { fields { FieldSet.zero with present := 0x3, complete := 0xF } with outLen := 7 })
    t.fs.present = 0 ∧ t.fs.complete = 0 ∧ t.outLen = 7 ∧ t.result = 0 := by decide

/-- K5 -/
theorem test_reserved : (after (exec (.reserved 0xFF) (latched 0x000000FF))).result = 0x81 := by decide

/-- H4 -/
theorem test_hdr_up_to_the_capacity :
    let t := after (exec (.hdr 0xFF 0) { capacity 31 with outLen := 29 })
    t.result = 0 ∧ t.outLen = 31 ∧ t.mem = [(0x1100 + 29, 0x01), (0x1100 + 30, 0xFF)] := by decide

/-- H5 -/
theorem test_hdr_over_the_capacity :
    let t := after (exec (.hdr 0xFF 1) { capacity 31 with outLen := 29 })
    t.result = 4 ∧ t.outLen = 29 ∧ t.mem = [] := by decide

/-- F3 -/
theorem test_flat_up_to_the_end_of_src :
    let t := after (exec (.flat 0xFF 2 0xFE) { holdingAt 0xFE [0x4C, 0x00] with maxLen := 31 })
    t.result = 0 ∧ t.outLen = 4 ∧ (List.range 4).map t.dst = [0x03, 0xFF, 0x4C, 0x00] := by decide

/-- F5: capacity before range. -/
theorem test_flat_capacity_first :
    (after (exec (.flat 0xFF 3 0xFE) (capacity 4))).result = 4 ∧
      (after (exec (.flat 0xFF 3 0xFE) (capacity 31))).result = 0x80 := by decide

/-- A1 -/
theorem test_arr16 :
    let t := after (exec (.arr16 0x03 2)
      (fields { FieldSet.zero with u16 := (setEntry16 (setEntry16 FieldSet.zero.u16 0 0x1234) 1 0x5678) }))
    t.result = 0 ∧ t.outLen = 6 ∧ (List.range 6).map t.dst = [0x05, 0x03, 0x34, 0x12, 0x78, 0x56] := by decide +kernel

/-- A4 -/
theorem test_arr16_over_the_capacity : (after (exec (.arr16 0x03 127) (capacity 255))).result = 4 := by decide

/-- B1 -/
theorem test_arr32 :
    let t := after (exec (.arr32 0x05 1)
      (fields { FieldSet.zero with u32 := setEntry32 FieldSet.zero.u32 0 0x12345678 }))
    t.result = 0 ∧ t.outLen = 6 ∧ (List.range 6).map t.dst = [0x05, 0x05, 0x78, 0x56, 0x34, 0x12] := by decide

/-- B3 -/
theorem test_arr32_over_the_capacity : (after (exec (.arr32 0x04 64) (capacity 255))).result = 4 := by decide

/-- E25: the order is by kind. -/
theorem test_encode_in_kind_order :
    let t := after (exec .encode { holdingAt 0x78 [0x4C, 0x00] with
      maxLen := 31, fs := { FieldSet.zero with present := 0x20001, flags := 0x06, mfg := ⟨0x78, 2⟩ } })
    t.result = 0 ∧ t.outLen = 7 ∧
      (List.range 7).map t.dst = [0x02, 0x01, 0x06, 0x03, 0xFF, 0x4C, 0x00] := by decide

/-- G4 and T1, the first step. -/
theorem test_encode_gate_and_query :
    (after (exec .encode disabled)).result = 8 ∧ (after (exec .encode disabled)).outLen = 5 ∧
      (after (exec .encode { waiting with engState := .exec, mem := [] })).status = 3 := by decide

/-- T1, the second step. -/
theorem test_answer :
    let t := after (step (answered true 0x04 0))
    t.status = 0 ∧ t.result = 0 ∧ t.outLen = 6 ∧ t.fs.txp = 0x80 ∧
      (List.range 6).map t.dst = [0x02, 0x01, 0x06, 0x02, 0x0A, 0x04] := by decide

/-- T3: a failure of 0 is told apart by `ERR_SRC`. -/
theorem test_failure_of_zero :
    let t := after (step (answered false 0 0))
    t.status = 4 ∧ t.result = 0 ∧ t.outLen = 3 := by decide

/-- P1 -/
theorem test_pu16 :
    let t := after (exec (.pu16 0 4 true) (holding [0x34, 0x12, 0x78, 0x56]))
    t.result = 0 ∧ t.fs.u16At 0 = 0x1234 ∧ t.fs.u16At 1 = 0x5678 ∧ t.readReg .fsCount = 2 ∧ t.fs.complete = 1 := by
  decide +kernel

/-- P3, P2 -/
theorem test_pu16_errors :
    (after (exec (.pu16 0xFF 2 false) State.reset)).result = 0x80 ∧
      (after (exec (.pu16 0 3 false) State.reset)).result = 0x0A := by decide

/-- P6 -/
theorem test_pu32 :
    let t := after (exec (.pu32 0 4 false) (holding [0x78, 0x56, 0x34, 0x12]))
    t.result = 0 ∧ t.fs.u32At 0 = 0x12345678 ∧ t.readReg .fsCount = 0x100 ∧ t.fs.complete = 0 := by decide

/-- P9, P7 -/
theorem test_pu32_errors :
    (after (exec (.pu32 0xFD 4 true) State.reset)).result = 0x80 ∧
      (after (exec (.pu32 0 6 true) State.reset)).result = 0x0A := by decide

/-- D37: an empty name at the end of SRC. -/
theorem test_dec1_at_the_end_of_src :
    let t := after (exec (.dec1 0xFE 2) (holdingAt 0xFE [0x01, 0x08]))
    t.result = 0 ∧ t.consumed = 2 ∧ t.readReg .fsName = 0 ∧ t.fs.present = 0x10 := by decide

/-- D30, D31, D36 -/
theorem test_dec1_errors :
    (after (exec (.dec1 0 1) (holding [0x00]))).result = 0x0A ∧
      (after (exec (.dec1 0 0) State.reset)).result = 4 ∧
      (after (exec (.dec1 0xFF 2) State.reset)).result = 0x80 := by decide

/-- W5: the last one wins. -/
theorem test_decode_the_last_one_wins :
    let t := after (exec .decode { holding [0x02, 0x01, 0x06, 0x02, 0x01, 0x05] with inLen := 6 })
    t.result = 0 ∧ t.decPos = 6 ∧ t.fs.flags = 5 := by decide

/-- W3, under both values of `PARTIAL_FS`. -/
theorem test_decode_stops :
    let s := { holding [0x02, 0x01, 0x06, 0x00] with inLen := 4 }
    let t := after (exec .decode s)
    let u := after (exec .decode { s with cfg := { Config.default with partialFs := .prefixKept } })
    t.result = 0x0A ∧ t.decPos = 3 ∧ u.result = 0x0A ∧ u.decPos = 3 ∧ u.fs.flags = 6 ∧ u.fs.present = 1 := by
  decide

/-- D1 -/
theorem test_adFlags :
    let t := after (exec (.adFlags 0x02) (recordAt ([0x02, 0x01, 0x06])))
    t.result = 0 ∧ t.consumed = 0x02 + 1 ∧ t.fs.flags = 0x06 ∧ t.fs.present = 0x00001 := by decide

/-- D3 -/
theorem test_adUuid16Incomplete :
    let t := after (exec (.adUuid16Incomplete 0x05) (recordAt ([0x05, 0x02, 0x34, 0x12, 0x78, 0x56])))
    t.result = 0 ∧ t.consumed = 0x05 + 1 ∧ t.fs.u16At 1 = 0x5678 ∧ t.fs.u16Count = 2 ∧ t.fs.complete = 0 := by decide +kernel

/-- Scenario C -/
theorem test_adUuid16Complete :
    let t := after (exec (.adUuid16Complete 0x05) (recordAt ([0x05, 0x03, 0x34, 0x12, 0x78, 0x56])))
    t.result = 0 ∧ t.consumed = 0x05 + 1 ∧ t.fs.u16At 0 = 0x1234 ∧ t.fs.present = 2 ∧ t.fs.complete = 1 := by decide +kernel

/-- E3 read back -/
theorem test_adUuid32Incomplete :
    let t := after (exec (.adUuid32Incomplete 0x05) (recordAt ([0x05, 0x04, 0x78, 0x56, 0x34, 0x12])))
    t.result = 0 ∧ t.consumed = 0x05 + 1 ∧ t.fs.u32At 0 = 0x12345678 ∧ t.fs.complete = 0 := by decide

/-- D5 -/
theorem test_adUuid32Complete :
    let t := after (exec (.adUuid32Complete 0x05) (recordAt ([0x05, 0x05, 0x78, 0x56, 0x34, 0x12])))
    t.result = 0 ∧ t.consumed = 0x05 + 1 ∧ t.fs.u32Count = 1 ∧ t.fs.present = 4 ∧ t.fs.complete = 2 := by decide

/-- D7 -/
theorem test_adUuid128Incomplete :
    let t := after (exec (.adUuid128Incomplete 0x11) (recordAt ([0x11, 0x06] ++ List.replicate 16 0x00)))
    t.result = 0 ∧ t.consumed = 0x11 + 1 ∧ t.readReg .fsU128 = 0x102 ∧ t.fs.complete = 0 := by decide

/-- E4 read back -/
theorem test_adUuid128Complete :
    let t := after (exec (.adUuid128Complete 0x11) (recordAt ([0x11, 0x07] ++ List.replicate 16 0x00)))
    t.result = 0 ∧ t.consumed = 0x11 + 1 ∧ t.fs.present = 8 ∧ t.fs.complete = 4 := by decide

/-- D10 -/
theorem test_adNameIncomplete :
    let t := after (exec (.adNameIncomplete 0x01) (recordAt ([0x01, 0x08])))
    t.result = 0 ∧ t.consumed = 0x01 + 1 ∧ t.readReg .fsName = 0x002 ∧ t.fs.complete = 0 := by decide

/-- D9 -/
theorem test_adNameComplete :
    let t := after (exec (.adNameComplete 0x04) (recordAt ([0x04, 0x09, 0x46, 0x6F, 0x6F])))
    t.result = 0 ∧ t.consumed = 0x04 + 1 ∧ t.readReg .fsName = 0x302 ∧ t.fs.complete = 8 := by decide

/-- D11 -/
theorem test_adTxPower :
    let t := after (exec (.adTxPower 0x02) (recordAt ([0x02, 0x0A, 0xF8])))
    t.result = 0 ∧ t.consumed = 0x02 + 1 ∧ t.fs.txp = 0xF8 ∧ t.fs.present = 0x00020 := by decide

/-- D13 -/
theorem test_adClassOfDevice :
    let t := after (exec (.adClassOfDevice 0x04) (recordAt ([0x04, 0x0D, 0x0C, 0x02, 0x5A])))
    t.result = 0 ∧ t.consumed = 0x04 + 1 ∧ t.fs.devcls = 0x005A020C ∧ t.fs.present = 0x00040 := by decide

/-- D15 -/
theorem test_adPeriphConnItvlRange :
    let t := after (exec (.adPeriphConnItvlRange 0x05) (recordAt ([0x05, 0x12, 0x06, 0x00, 0x20, 0x00])))
    t.result = 0 ∧ t.consumed = 0x05 + 1 ∧ t.fs.itvl = 0x00200006 ∧ t.fs.present = 0x00080 := by decide

/-- D16 -/
theorem test_adSvcDataUuid16 :
    let t := after (exec (.adSvcDataUuid16 0x04) (recordAt ([0x04, 0x16, 0x0F, 0x18, 0x64])))
    t.result = 0 ∧ t.consumed = 0x04 + 1 ∧ t.readReg .fsSd16 = 0x302 ∧ t.fs.present = 0x00100 := by decide

/-- D18 -/
theorem test_adPublicTargetAddr :
    let t := after (exec (.adPublicTargetAddr 0x07) (recordAt ([0x07, 0x17, 0xA1, 0xA2, 0xA3, 0xA4, 0xA5, 0xA6])))
    t.result = 0 ∧ t.consumed = 0x07 + 1 ∧ t.readReg .fsPta = 0x102 ∧ t.fs.present = 0x00200 := by decide

/-- D20 -/
theorem test_adAppearance :
    let t := after (exec (.adAppearance 0x03) (recordAt ([0x03, 0x19, 0xC1, 0x03])))
    t.result = 0 ∧ t.consumed = 0x03 + 1 ∧ t.fs.appear = 0x03C1 ∧ t.fs.present = 0x00400 := by decide

/-- D21 -/
theorem test_adAdvInterval :
    let t := after (exec (.adAdvInterval 0x03) (recordAt ([0x03, 0x1A, 0x00, 0x08])))
    t.result = 0 ∧ t.consumed = 0x03 + 1 ∧ t.fs.advItvl = 0x0800 ∧ t.fs.present = 0x00800 := by decide

/-- D22 -/
theorem test_adLeDeviceAddr :
    let t := after (exec (.adLeDeviceAddr 0x08) (recordAt ([0x08, 0x1B, 0x00, 0x11, 0x22, 0x33, 0x44, 0x55, 0x66])))
    t.result = 0 ∧ t.consumed = 0x08 + 1 ∧ t.fs.leaddr0 = 0x33221100 ∧ t.fs.leaddr1 = 0x00665544 := by decide

/-- D23 -/
theorem test_adLeRole :
    let t := after (exec (.adLeRole 0x02) (recordAt ([0x02, 0x1C, 0x02])))
    t.result = 0 ∧ t.consumed = 0x02 + 1 ∧ t.fs.lerole = 0x02 ∧ t.fs.present = 0x02000 := by decide

/-- D24 -/
theorem test_adSvcDataUuid32 :
    let t := after (exec (.adSvcDataUuid32 0x05) (recordAt ([0x05, 0x20, 0x01, 0x02, 0x03, 0x04])))
    t.result = 0 ∧ t.consumed = 0x05 + 1 ∧ t.readReg .fsSd32 = 0x402 ∧ t.fs.present = 0x04000 := by decide

/-- D26 -/
theorem test_adSvcDataUuid128 :
    let t := after (exec (.adSvcDataUuid128 0x11) (recordAt ([0x11, 0x21] ++ List.replicate 16 0x10)))
    t.result = 0 ∧ t.consumed = 0x11 + 1 ∧ t.readReg .fsSd128 = 0x1002 ∧ t.fs.present = 0x08000 := by decide

/-- D27 -/
theorem test_adUri :
    let t := after (exec (.adUri 0x03) (recordAt ([0x03, 0x24, 0x16, 0x2F])))
    t.result = 0 ∧ t.consumed = 0x03 + 1 ∧ t.readReg .fsUri = 0x202 ∧ t.fs.present = 0x10000 := by decide

/-- D28 -/
theorem test_adMfgData :
    let t := after (exec (.adMfgData 0x03) (recordAt ([0x03, 0xFF, 0x4C, 0x00])))
    t.result = 0 ∧ t.consumed = 0x03 + 1 ∧ t.readReg .fsMfg = 0x202 ∧ t.fs.present = 0x20000 := by decide

/-- D29 -/
theorem test_adUnrecognised :
    let t := after (exec (.adUnrecognised 0x03 0x99) (recordAt [0x03, 0x99, 0xAA, 0xBB]))
    t.result = 0 ∧ t.consumed = 4 ∧ t.fs.present = 0 := by decide

/-- D2, D4, D6, D8, D14, D17, D19, D25: each length rule, a length that breaks it. -/
theorem test_length_rules :
    ([(0x01, 2), (0x02, 3), (0x04, 2), (0x07, 8), (0x0A, 2), (0x0D, 2), (0x16, 1), (0x17, 5), (0x20, 3)].map
      fun (p : Byte × Nat) =>
        let bs := BitVec.ofNat 8 (p.2 + 1) :: p.1 :: List.replicate p.2 0
        (after (exec (decodeHeader (BitVec.ofNat 8 (p.2 + 1)) p.1) (recordAt bs))).result) =
      List.replicate 9 0x0A := by decide

/-- 10_state.md R36, R37 (section 2.4 of the vectors). -/
theorem test_capabilities :
    State.reset.readReg .cap = 0x17431D01 ∧ disabled.readReg .cap = 0x17431D00 ∧
      State.reset.readReg .cap2 = 0x003F7F80 := by decide

/-- 20_memory.md R84: a host word and the byte lanes it fills. -/
theorem test_host_word_to_src :
    (after (step (moved (.hostWrite 0x1004 .w32 0x78123403)))).mem =
      [(0x1004, 0x03), (0x1005, 0x34), (0x1006, 0x12), (0x1007, 0x78)] := by decide

/-- 20_memory.md R86: a byte write to a register is refused; 10_state.md R32: outside the window. -/
theorem test_host_stops :
    step (moved (.hostWrite 0x014 .w8 0)) = .refused (.inadmissibleAccess 0x014 .w8) ∧
      step (moved (.hostRead 0x2000 .w32)) = .fault (.outsideWindow 0x2000) := ⟨rfl, rfl⟩

/-- 30_encoding.md R117: a POLL that reads `BUSY` 1 stays in front of the host's next access, one that reads 0 ends. -/
theorem test_poll :
    (after (step { waiting with agenda := .hostPoll :: rd 0 0x008 })).agenda = .engine :: .hostPoll :: rd 0 0x008 ∧
      (after (step { waiting with agenda := [.hostPoll, .txpDrive ⟨true, true, 4, 0⟩] })).agenda =
        [.txpDrive ⟨true, true, 4, 0⟩, .hostPoll] ∧
      (after (step (moved .hostPoll))).agenda = [] ∧
      (after (step (moved .hostPoll))).busReads = [⟨0x004, 0⟩] := by decide

/-- What `withFetchWord` places is what the very next step runs. -/
theorem test_withFetchWord :
    (after (step (State.reset.withFetchWord 32 0x000000FF))).result = 0x81 ∧
      (after (step (State.reset.withFetchWord 16 0x0103))).consumed = 0 ∧
      (after (step (State.reset.withFetchWord 16 0x0102))).consumed = 3 := by decide

theorem test_reset_memory : State.reset.mem.wf := by decide

/-! ## Witnesses: a state and operands that meet the hypotheses of each statement -/

theorem witness_ResetInputAbandonsTheCommand :
    State.nextMove { waiting with agenda := [.reset] } = .reset := rfl

theorem witness_StepKeepsTheInvariant :
    Inv (answered true 4 0) ∧ ∃ t, step (answered true 4 0) = .next t := by
  refine ⟨⟨by decide, ?_, by decide, fun _ => ?_⟩, _, rfl⟩
  · unfold MemInWindow
    decide
  · unfold Waiting
    decide

theorem witness_StepKeepsTheParameters : ∃ t, step (moved .reset) = .next t := ⟨_, rfl⟩

/-- A word of each opcode, every ignored bit set. -/
theorem witness_WrittenOutWordsDecode :
    ([0xFF030901, 0x10030902, 0xFF020303, 0xFF010504, 0xFFFFFF08, 0xFE020010, 0xFE040011, 0xFF060012, 0xFFFFFF18].map
      fun w : Word => w.extractLsb' 0 8) = [0x01#8, 0x02, 0x03, 0x04, 0x08, 0x10, 0x11, 0x12, 0x18] := by decide

theorem witness_DecodeOfEncodeIsTheInstruction :
    (Instr.flat 0xFF 0xFF 0xFF).wf = true ∧ (Instr.reserved 0x05).wf = true ∧
      (Instr.adMfgData 0x01).wf = true := by decide

theorem witness_EngineStepRunsTheLatchedCommand :
    let s := latched 0x00030901
    s.nextMove = .engine ∧ s.engState = .exec ∧ decode (.command s.latch) = .ok (.hdr 0x09 3) := by decide

theorem witness_EngineStepOfDec1RunsTheRecord :
    let s := recordAt [0x02, 0x01, 0x06]
    s.nextMove = .engine ∧ s.engState = .exec ∧ decode (.command s.latch) = .ok (.dec1 0 3) ∧
      decode (.record [s.src 0, s.src 1]) = .ok (.adFlags 2) := by decide

theorem witness_IdleEngineDoesNothing : State.reset.nextMove = .engine ∧ State.reset.engState = .idle := ⟨rfl, rfl⟩

theorem witness_CommandsLeaveSrcAndTheHostSide : ∃ t, exec .encode waiting = .next t := ⟨_, rfl⟩

theorem witness_ReservedOpcodeRaisesIllegal : definedOpcodes.contains (cmdOp 0x12345609) = false := by decide

theorem witness_DisabledEncodePathReportsNotSupported : disabled.cfg.encodeSupported = false := rfl

/-- H2, at the capacity. -/
theorem witness_HdrWritesTheHeader :
    let s := capacity 2
    s.cfg.encodeSupported = true ∧ s.outLen.toNat + 2 + (0 : Byte).toNat ≤ s.maxLen.toNat := by decide

/-- F3, at the end of SRC. -/
theorem witness_FlatCopiesSrcBytes :
    let s := capacity 4
    s.cfg.encodeSupported = true ∧ s.outLen.toNat + 2 + (2 : Byte).toNat ≤ s.maxLen.toNat ∧
      (0xFE : Byte).toNat + (2 : Byte).toNat ≤ 256 := by decide

/-- A3 -/
theorem witness_Arr16WritesEntriesLittleEndian :
    let s := capacity 255
    s.cfg.encodeSupported = true ∧ s.outLen.toNat + 2 + 2 * (126 : Byte).toNat ≤ s.maxLen.toNat := by decide

/-- B2 -/
theorem witness_Arr32WritesEntriesLittleEndian :
    let s := capacity 255
    s.cfg.encodeSupported = true ∧ s.outLen.toNat + 2 + 4 * (63 : Byte).toNat ≤ s.maxLen.toNat := by decide

/-- H3, A4, B3 and F4: each clause, just over its bound. -/
theorem witness_RawEncoderErrorsWriteNothing :
    State.reset.cfg.encodeSupported = true ∧
      (capacity 2).maxLen.toNat < (capacity 2).outLen.toNat + 2 + (1 : Byte).toNat ∧
      (capacity 255).maxLen.toNat < (capacity 255).outLen.toNat + 2 + 2 * (127 : Byte).toNat ∧
      (capacity 255).maxLen.toNat < (capacity 255).outLen.toNat + 2 + 4 * (64 : Byte).toNat ∧
      (capacity 5).outLen.toNat + 2 + (3 : Byte).toNat ≤ (capacity 5).maxLen.toNat ∧
      256 < (0xFE : Byte).toNat + (3 : Byte).toNat := by decide

/-- Flags and a name whose view ends at the end of SRC, at the capacity. -/
def flagsAndName : State :=
  { fields { FieldSet.zero with present := 0x11, complete := 0x8, flags := 0x06, name := ⟨0xFD, 3⟩ } with
    maxLen := 8 }

theorem witness_EncodeWritesThePresentFields :
    flagsAndName.cfg.encodeSupported = true ∧
      ¬(flagsAndName.fs.has .txp = true ∧ flagsAndName.fs.txp = flagsAndName.cfg.txPwrAuto) ∧
      (∀ k : Kind, flagsAndName.fs.has k = true → viewInRange flagsAndName k = true) ∧
      (recordsOf flagsAndName allKinds).length ≤ flagsAndName.maxLen.toNat :=
  ⟨by decide, by decide, fun k => by cases k <;> decide, by decide +kernel⟩

theorem witness_EncodeOfEmptyFieldSetWritesNothing :
    (capacity 0).cfg.encodeSupported = true ∧ (capacity 0).fs.present = 0 := ⟨rfl, rfl⟩

/-- Clause 1 is E20: the name does not fit by one byte. Clause 2 is E22: the view leaves SRC by one byte. -/
theorem witness_EncodeAbortsAtTheFirstFailingField :
    let before : List Kind := [.flags, .uuid16, .uuid32, .uuid128]
    let s := { flagsAndName with maxLen := 7 }
    let u := fields { FieldSet.zero with present := 0x10, name := ⟨0xFE, 3⟩ }
    (allKinds = before ++ .name :: .txp :: kindsAfterTxp) ∧
      (s.cfg.encodeSupported = true ∧ s.fs.has .txp = false ∧
        (before.all fun k => !s.fs.has k || viewInRange s k) = true ∧
        (recordsOf s before).length ≤ s.maxLen.toNat ∧ s.fs.has .name = true ∧
        s.maxLen.toNat < (recordsOf s before).length + 2 + (payloadOf s .name).length) ∧
      (u.cfg.encodeSupported = true ∧ u.fs.has .txp = false ∧
        (before.all fun k => !u.fs.has k || viewInRange u k) = true ∧
        (recordsOf u before).length ≤ u.maxLen.toNat ∧ u.fs.has .name = true ∧
        (recordsOf u before).length + 2 + (payloadOf u .name).length ≤ u.maxLen.toNat ∧
        viewInRange u .name = false) := by decide +kernel

/-- T1 -/
theorem witness_EncodeSuspendsAtTheQuery :
    let s := { waiting with engState := .exec, mem := [] }
    s.cfg.encodeSupported = true ∧ s.fs.has .txp = true ∧ s.fs.txp = s.cfg.txPwrAuto ∧
      (kindsBeforeTxp.all fun k => !s.fs.has k || viewInRange s k) = true ∧
      (recordsOf s kindsBeforeTxp).length ≤ s.maxLen.toNat := by decide +kernel

/-- T1, the answer's record just fitting. -/
theorem witness_AnswerResumesTheEncode :
    let s := { answered true 4 0 with maxLen := 6 }
    s.nextMove = .engine ∧ s.engState = .waitTxp ∧ s.txp.valid = true ∧ s.txp.ok = true ∧
      (kindsAfterTxp.all fun k => !s.fs.has k || viewInRange s k) = true ∧
      s.outLen.toNat + 3 + (recordsOf s kindsAfterTxp).length ≤ s.maxLen.toNat := by decide +kernel

/-- T3, T5 with a capacity of 5, T6. -/
theorem witness_QueryFailureIsPropagatedVerbatim :
    let s := answered false 0 0
    let t := { answered true 4 0 with maxLen := 5 }
    (s.nextMove = .engine ∧ s.engState = .waitTxp ∧ s.txp.valid = true ∧ s.txp.ok = false) ∧
      (t.nextMove = .engine ∧ t.engState = .waitTxp ∧ t.txp.valid = true ∧ t.txp.ok = true ∧
        t.maxLen.toNat < t.outLen.toNat + 3) ∧
      (waiting.nextMove = .engine ∧ waiting.engState = .waitTxp ∧ waiting.txp.valid = false) ∧
      State.nextMove { waiting with agenda := [.txpDrive ⟨true, false, 0, 7⟩] } = .txpDrive ⟨true, false, 0, 7⟩ := by
  decide

/-- One command of each start cursor, and T1. -/
theorem witness_EncodePathStaysBelowCapacity :
    (∃ t, exec (.hdr 0x01 0) (capacity 2) = .next t) ∧ (∃ t, exec .encode (capacity 2) = .next t) ∧
      (answered true 4 0).nextMove = .engine ∧ (answered true 4 0).engState = .waitTxp :=
  ⟨⟨_, rfl⟩, ⟨_, rfl⟩, rfl, rfl⟩

/-- Behind the answer's record: a URI of two bytes that does not fit by one byte, and
one that fits but leaves SRC by one byte. -/
theorem witness_ResumedEncodeAbortsAtTheFirstFailingField :
    let before : List Kind := [.devcls, .itvlRange, .sd16, .pta, .appear, .advItvl, .leaddr, .lerole, .sd32, .sd128]
    let s := { answered true 4 0 with
      maxLen := 9, fs := { FieldSet.zero with present := 0x10021, flags := 0x06, txp := 0x80, uri := ⟨0, 2⟩ } }
    let u := { answered true 4 0 with
      maxLen := 10, fs := { FieldSet.zero with present := 0x10021, flags := 0x06, txp := 0x80, uri := ⟨0xFF, 2⟩ } }
    kindsAfterTxp = before ++ .uri :: [.mfg] ∧
      (s.nextMove = .engine ∧ s.engState = .waitTxp ∧ s.txp.valid = true ∧ s.txp.ok = true ∧
        (before.all fun k => !s.fs.has k || viewInRange s k) = true ∧
        s.outLen.toNat + 3 + (recordsOf s before).length ≤ s.maxLen.toNat ∧ s.fs.has .uri = true ∧
        s.maxLen.toNat < s.outLen.toNat + 3 + (recordsOf s before).length + 2 + (payloadOf s .uri).length) ∧
      (u.nextMove = .engine ∧ u.engState = .waitTxp ∧ u.txp.valid = true ∧ u.txp.ok = true ∧
        (before.all fun k => !u.fs.has k || viewInRange u k) = true ∧
        u.outLen.toNat + 3 + (recordsOf u before).length + 2 + (payloadOf u .uri).length ≤ u.maxLen.toNat ∧
        u.fs.has .uri = true ∧ viewInRange u .uri = false) := by decide +kernel

theorem witness_Pu16ConvertsTheList :
    (0xFE : Byte).toNat + (2 : Byte).toNat ≤ 256 ∧ (2 : Byte).toNat % 2 = 0 := by decide

theorem witness_Pu32ConvertsTheList :
    (0xFC : Byte).toNat + (4 : Byte).toNat ≤ 256 ∧ (4 : Byte).toNat % 4 = 0 := by decide

/-- Each clause at the end of SRC. -/
theorem witness_ListDecoderErrorsWriteNothing :
    256 < (0xFF : Byte).toNat + (2 : Byte).toNat ∧
      ((0xFF : Byte).toNat + (1 : Byte).toNat ≤ 256 ∧ (1 : Byte).toNat % 2 ≠ 0) ∧
      ((0xFE : Byte).toNat + (2 : Byte).toNat ≤ 256 ∧ (2 : Byte).toNat % 4 ≠ 0) := by decide

/-- D37: an empty name at the end of SRC. -/
theorem witness_Dec1StoresTheRecord :
    let s := holdingAt 0xFE [0x01, 0x08]
    (0xFE : Byte).toNat + (2 : Byte).toNat ≤ 256 ∧ ([] : List Byte).length + 2 ≤ (2 : Byte).toNat ∧
      SrcHolds s (0xFE : Byte).toNat (wireRecord 0x08 []) ∧ acceptable s.cfg 0x08 0 = true := by
  simp only [SrcHolds]
  decide

/-- D36; D31, D32, D30. -/
theorem witness_Dec1ErrorsLeaveTheFieldSet :
    256 < (0xFF : Byte).toNat + (2 : Byte).toNat ∧
      rejection Config.default (State.reset.srcBytes 0 0) = some 0x04 ∧
      rejection Config.default ((holding [0x05, 0x09, 0x41, 0x42]).srcBytes 0 4) = some 0x04 ∧
      rejection Config.default ((holding [0x00]).srcBytes 0 1) = some 0x0A ∧
      rejection Config.default ((holding [0x03, 0x01, 0x06, 0x00]).srcBytes 0 4) = some 0x0A := by decide

/-- Scenario E -/
theorem witness_DecodeStoresEveryRecord :
    let s := { holding [0x03, 0x99, 0xAA, 0xBB, 0x02, 0x01, 0x06] with inLen := 7 }
    let rs : List (Byte × List Byte) := [(0x99, [0xAA, 0xBB]), (0x01, [0x06])]
    (rs.all fun r => acceptable s.cfg r.1 r.2.length) = true ∧ (wireOf rs).length = s.inLen.toNat ∧
      SrcHolds s 0 (wireOf rs) := by
  simp only [SrcHolds]
  decide

/-- W3 -/
theorem witness_DecodeStopsAtTheFirstBadRecord :
    let s := { holding [0x02, 0x01, 0x06, 0x00] with inLen := 4 }
    let rs : List (Byte × List Byte) := [(0x01, [0x06])]
    (rs.all fun r => acceptable s.cfg r.1 r.2.length) = true ∧ [(0x00 : Byte)] ≠ [] ∧
      (wireOf rs ++ [0x00]).length = s.inLen.toNat ∧ SrcHolds s 0 (wireOf rs ++ [0x00]) ∧
      rejection s.cfg [0x00] = some 0x0A := by
  simp only [SrcHolds]
  decide

/-- A window of one byte, and a memory that differs above it. -/
theorem witness_DecodeReadsOnlyItsWindow :
    let s := { holding [0x01, 0x08] with inLen := 1 }
    let m : Memory := Memory.setBytes [] srcBase [0x01, 0x09]
    (∀ i, i < s.inLen.toNat → State.src { s with mem := m } i = s.src i) ∧
      (∀ i, i < (1 : Byte).toNat → State.src { s with mem := m } ((0 : Byte).toNat + i) = s.src ((0 : Byte).toNat + i)) ∧
      m ≠ s.mem := by decide

/-- D1 and D2, their windows just holding them. -/
theorem witness_OneByteRecordsStoreTheirByte :
    InWindow (recordAt [0x02, 0x01, 0x06]) 2 ∧ (2 : Byte).toNat - 1 = 1 ∧
      InWindow (recordAt [0x03, 0x01, 0x06, 0x00]) 3 ∧ (3 : Byte).toNat - 1 ≠ 1 := by
  simp only [InWindow]
  decide

/-- D20 -/
theorem witness_TwoByteRecordsStoreLittleEndian :
    InWindow (recordAt [0x03, 0x19, 0xC1, 0x03]) 3 ∧ (3 : Byte).toNat - 1 = 2 ∧
      InWindow (recordAt [0x02, 0x19, 0xC1]) 2 ∧ (2 : Byte).toNat - 1 ≠ 2 := by
  simp only [InWindow]
  decide

/-- D13, D15, D22; one byte short of each length. -/
theorem witness_BlobRecordsCopyTheirBytes :
    InWindow (recordAt [0x04, 0x0D, 0x0C, 0x02, 0x5A]) 4 ∧
      InWindow (recordAt [0x05, 0x12, 0x06, 0x00, 0x20, 0x00]) 5 ∧
      InWindow (recordAt [0x08, 0x1B, 0x00, 0x11, 0x22, 0x33, 0x44, 0x55, 0x66]) 8 ∧
      (4 : Byte).toNat - 1 = Config.default.devclsLen ∧ (5 : Byte).toNat - 1 = Config.default.itvlRangeLen ∧
      (8 : Byte).toNat - 1 = Config.default.leAddrLen ∧
      (InWindow (recordAt [0x03, 0x0D, 0x0C, 0x02]) 3 ∧ (3 : Byte).toNat - 1 ≠ Config.default.devclsLen) ∧
      (InWindow (recordAt [0x04, 0x12, 0x06, 0x00, 0x20]) 4 ∧ (4 : Byte).toNat - 1 ≠ Config.default.itvlRangeLen) ∧
      (InWindow (recordAt [0x07, 0x1B, 0x00, 0x11, 0x22, 0x33, 0x44, 0x55]) 7 ∧
        (7 : Byte).toNat - 1 ≠ Config.default.leAddrLen) := by
  simp only [InWindow]
  decide

/-- D10 -/
theorem witness_FreeLengthRecordsStoreAView : InWindow (recordAt [0x01, 0x08]) 1 := by
  simp only [InWindow]
  decide

/-- The minimum of each kind, and one byte below it. -/
theorem witness_ServiceDataRecordsStoreAView :
    (InWindow (recordAt [0x03, 0x16, 0x0F, 0x18]) 3 ∧ 2 ≤ (3 : Byte).toNat - 1) ∧
      (InWindow (recordAt [0x05, 0x20, 0x01, 0x02, 0x03, 0x04]) 5 ∧ 4 ≤ (5 : Byte).toNat - 1) ∧
      (InWindow (recordAt (0x11 :: 0x21 :: List.replicate 16 0x10)) 0x11 ∧ 16 ≤ (0x11 : Byte).toNat - 1) ∧
      (InWindow (recordAt [0x02, 0x16, 0x0F]) 2 ∧ (2 : Byte).toNat - 1 < 2) ∧
      (InWindow (recordAt [0x04, 0x20, 0x01, 0x02, 0x03]) 4 ∧ (4 : Byte).toNat - 1 < 4) ∧
      (InWindow (recordAt (0x10 :: 0x21 :: List.replicate 15 0x10)) 0x10 ∧ (0x10 : Byte).toNat - 1 < 16) := by
  simp only [InWindow]
  decide +kernel

/-- An empty list, one entry, and D8 and D19 in small: half an entry, and a byte short of one. -/
theorem witness_CountedRecordsStoreAView :
    (InWindow (recordAt [0x01, 0x06]) 1 ∧ ((1 : Byte).toNat - 1) % 16 = 0) ∧
      (InWindow (recordAt [0x07, 0x17, 0xA1, 0xA2, 0xA3, 0xA4, 0xA5, 0xA6]) 7 ∧ ((7 : Byte).toNat - 1) % 6 = 0) ∧
      (InWindow (recordAt (0x09 :: 0x07 :: List.replicate 8 0)) 9 ∧ ((9 : Byte).toNat - 1) % 16 ≠ 0) ∧
      (InWindow (recordAt [0x06, 0x17, 0xA1, 0xA2, 0xA3, 0xA4, 0xA5]) 6 ∧ ((6 : Byte).toNat - 1) % 6 ≠ 0) := by
  simp only [InWindow]
  decide

/-- An empty list, one entry, and a length that is no multiple for each element size. -/
theorem witness_ListRecordsConvertTheirEntries :
    (InWindow (recordAt [0x01, 0x02]) 1 ∧ ((1 : Byte).toNat - 1) % 2 = 0) ∧
      (InWindow (recordAt [0x05, 0x05, 0x78, 0x56, 0x34, 0x12]) 5 ∧ ((5 : Byte).toNat - 1) % 4 = 0) ∧
      (InWindow (recordAt [0x04, 0x03, 0x34, 0x12, 0x78]) 4 ∧ ((4 : Byte).toNat - 1) % 2 ≠ 0) ∧
      (InWindow (recordAt [0x03, 0x05, 0x78, 0x56]) 3 ∧ ((3 : Byte).toNat - 1) % 4 ≠ 0) := by
  simp only [InWindow]
  decide

/-- D29; D35 with a payload of 30, above the cap. -/
theorem witness_UnrecognisedRecordIsSkipped :
    let s := recordAt [0x03, 0x99, 0xAA, 0xBB]
    let u := latched (cmdWord 0x12 0 32 0)
    definedTypeCodes.contains 0x99 = false ∧
      (s.latchA + s.latchB ≤ 256 ∧ (3 : Byte).toNat + 1 ≤ s.latchB ∧ (3 : Byte).toNat ≠ 0) ∧
      (u.latchA + u.latchB ≤ 256 ∧ (0x1F : Byte).toNat + 1 ≤ u.latchB ∧
        u.cfg.maxFieldSz < (0x1F : Byte).toNat - 1) := by decide

/-- The clauses of the record checks, each met by a record. -/
theorem witness_RecordChecksComeInOrder :
    256 < (latched (cmdWord 0x12 0xFF 2 0)).latchA + (latched (cmdWord 0x12 0xFF 2 0)).latchB ∧
      (recordAt [0x05, 0x09, 0x41, 0x42]).latchB < (5 : Byte).toNat + 1 ∧
      Config.default.maxFieldSz < (0x1F : Byte).toNat - 1 ∧ lengthOk Config.default 0x01 2 = false ∧
      lengthOk Config.default 0x01 1 = true := by decide

/-- Program 2 in small: flags and a two-byte name. -/
theorem witness_DecodeOfEncodedFieldSetGivesItBack :
    let s := { holdingAt 0x10 [0x46, 0x6F] with
      maxLen := 7, fs := { FieldSet.zero with present := 0x11, flags := 0x06, name := ⟨0x10, 2⟩ } }
    let t := after (exec .encode s)
    let u := { holding [0x02, 0x01, 0x06, 0x03, 0x08, 0x46, 0x6F] with inLen := 7 }
    s.cfg.legal ∧ exec .encode s = .next t ∧ Ended t 0 false ∧ s.cfg.encodeSupported = true ∧
      s.fs.has .txp = false ∧ (allKinds.all fun k => !s.fs.has k || (payloadOf s k).length ≤ s.cfg.maxFieldSz) = true ∧
      s.fs.has .sd16 = false ∧ s.fs.has .sd32 = false ∧ s.fs.has .sd128 = false ∧ u.cfg = s.cfg ∧
      u.inLen = t.outLen ∧ ∀ i, i < t.outLen.toNat → u.src i = t.dst i := by
  refine ⟨by decide, rfl, ?_, by decide +kernel⟩
  unfold Ended
  decide +kernel

theorem witness_CmdWriteStartsTheEngine :
    let s := moved (.hostWrite 0 .w32 0x00000020)
    s.engState = .idle ∧ s.nextMove = .hostWrite s.cfg.base .w32 0x00000020 := by decide

/-- T7: a `CMD` write while the engine waits. -/
theorem witness_WritesWhileBusyAreIgnored :
    let s := { waiting with agenda := [.hostWrite 0 .w32 0x00000020] }
    s.engState ≠ .idle ∧ (0 : Nat) < 0x2000 ∧ ¬NotAdmitted 0 .w32 ∧
      s.nextMove = .hostWrite (s.cfg.base + 0) .w32 0x00000020 := by
  simp only [NotAdmitted]
  decide

/-- The last byte of DST while busy and while idle, and CAP2 while busy. -/
theorem witness_HostReadsHaveNoSideEffect :
    let s := { waiting with agenda := [.hostRead 0x11FF .w8] }
    let t := moved (.hostRead 0x11FF .w8)
    let u := { waiting with agenda := [.hostRead 0x010 .w32] }
    (¬NotAdmitted 0x11FF .w8 ∧ s.nextMove = .hostRead (s.cfg.base + 0x11FF) .w8 ∧ s.engState ≠ .idle ∧
        ¬ExactOffset 0x11FF) ∧
      (t.nextMove = .hostRead (t.cfg.base + 0x11FF) .w8 ∧ t.engState = .idle) ∧
      (¬NotAdmitted 0x010 .w32 ∧ u.nextMove = .hostRead (u.cfg.base + 0x010) .w32 ∧ ExactOffset 0x010) := by
  simp only [NotAdmitted, ExactOffset]
  decide

/-- RESULT, and the last entry of each array. -/
theorem witness_RegisterReadsShowTheirFields :
    let s := moved (.hostRead 0x008 .w32)
    let t := moved (.hostRead 0x3F8 .w32)
    let u := moved (.hostRead 0x4F8 .w32)
    (s.engState = .idle ∧ (0x008, 0) ∈ namedReads s ∧ s.nextMove = .hostRead (s.cfg.base + 0x008) .w32) ∧
      (t.engState = .idle ∧ t.nextMove = .hostRead (t.cfg.base + (0x200 + 4 * 126)) .w32) ∧
      (u.engState = .idle ∧ u.nextMove = .hostRead (u.cfg.base + (0x400 + 4 * 62)) .w32) := by decide +kernel

theorem witness_StatusReadIsExactAtAllTimes :
    let s := { waiting with agenda := [.hostRead 0x004 .w32] }
    s.nextMove = .hostRead (s.cfg.base + 0x004) .w32 := by decide

/-- CAP while busy, CAP2 while idle. -/
theorem witness_CapabilityRegistersShowTheParameters :
    let s := { waiting with agenda := [.hostRead 0x00C .w32] }
    let t := moved (.hostRead 0x010 .w32)
    (s.cfg.legal ∧ s.nextMove = .hostRead (s.cfg.base + 0x00C) .w32) ∧
      (t.cfg.legal ∧ t.nextMove = .hostRead (t.cfg.base + 0x010) .w32) := by decide

/-- The last entry of `U16`. -/
theorem witness_RegisterWriteReadsBackItsBits :
    let s := moved (.hostWrite 0x3F8 .w32 0xFFFFFFFF)
    s.engState = .idle ∧ (0x3F8 : Nat) < 0x1000 ∧ 0x3F8 % 4 = 0 ∧ regAt 0x3F8 = some (.u16 126) ∧
      (Reg.u16 126).storedBits = some 0x0000FFFF ∧
      s.nextMove = .hostWrite (s.cfg.base + 0x3F8) .w32 0xFFFFFFFF := by decide

/-- DEC_POS, the last of them. -/
theorem witness_ReadOnlyRegistersIgnoreWrites :
    let s := moved (.hostWrite 0x024 .w32 0xFFFFFFFF)
    s.engState = .idle ∧ 0x024 ∈ readOnlyOffsets ∧ s.nextMove = .hostWrite (s.cfg.base + 0x024) .w32 0xFFFFFFFF := by
  decide

/-- The last byte of the window, misaligned, the first word above DST, and a reserved word of the register space. -/
theorem witness_ReservedOffsetsReadZeroAndIgnoreWrites :
    let s := moved (.hostWrite 0x1FFF .w16 1)
    let t := moved (.hostRead 0x1200 .w32)
    let u := moved (.hostRead 0x3FC .w32)
    (s.engState = .idle ∧ ReservedAccess 0x1FFF .w16 ∧ s.nextMove = .hostWrite (s.cfg.base + 0x1FFF) .w16 1) ∧
      (t.engState = .idle ∧ ReservedAccess 0x1200 .w32 ∧ t.nextMove = .hostRead (t.cfg.base + 0x1200) .w32) ∧
      (u.engState = .idle ∧ ReservedAccess 0x3FC .w32 ∧ u.nextMove = .hostRead (u.cfg.base + 0x3FC) .w32) := by
  simp only [ReservedAccess]
  decide

/-- The last word and the last byte of DST. -/
theorem witness_MemoryAccessesUseLittleEndianLanes :
    let s := moved (.hostWrite 0x11FC .w32 0x78123403)
    let t := moved (.hostWrite 0x11FF .w8 0x6F)
    let u := moved (.hostRead 0x11FC .w32)
    let v := moved (.hostRead 0x11FF .w8)
    s.engState = .idle ∧ (0x1000 : Nat) ≤ 0x11FC ∧ (0x11FC : Nat) < 0x1200 ∧ 0x11FC % 4 = 0 ∧
      (0x11FF : Nat) < 0x1200 ∧
      s.nextMove = .hostWrite (s.cfg.base + 0x11FC) .w32 0x78123403 ∧
      t.nextMove = .hostWrite (t.cfg.base + 0x11FF) .w8 0x6F ∧
      u.nextMove = .hostRead (u.cfg.base + 0x11FC) .w32 ∧
      v.nextMove = .hostRead (v.cfg.base + 0x11FF) .w8 := by decide

/-- A byte access to a register, a half-word access and a misaligned word access to SRC; and the last byte of DST,
admitted. -/
theorem witness_InadmissibleAccessIsRefused :
    let s := moved (.hostWrite 0x014 .w8 0)
    let t := moved (.hostRead 0x1000 .w16)
    let u := moved (.hostRead 0x11FF .w8)
    (NotAdmitted 0x014 .w8 ∧ s.nextMove = .hostWrite (s.cfg.base + 0x014) .w8 0) ∧
      (NotAdmitted 0x1000 .w16 ∧ t.nextMove = .hostRead (t.cfg.base + 0x1000) .w16) ∧
      NotAdmitted 0x1001 .w32 ∧
      (¬NotAdmitted 0x11FF .w8 ∧ u.nextMove = .hostRead (u.cfg.base + 0x11FF) .w8) := by
  simp only [NotAdmitted]
  decide

/-- A POLL while idle and while busy; `X FSCLR`, ended after its step; `X ENCODE` that queries, its answer offered. -/
theorem witness_PollRepeatsUntilTheBlockIsIdle :
    let s := moved .hostPoll
    let u := { waiting with agenda := [.hostPoll] }
    let x := fun w => { answered true 4 0 with engState := .idle, agenda := xcmd 0 w ++ [] }
    let run := fun w => after (exec (decodeCommand w) { x w with
      latch := w, engState := .exec, agenda := [.hostPoll]
      busReads := ⟨(x w).cfg.base + 0x004, 1 + 4 * BitVec.ofNat 32 (x w).errSrc.toNat⟩ :: (x w).busReads })
    (s.nextMove = .hostPoll ∧ s.engState = .idle) ∧ (u.nextMove = .hostPoll ∧ u.engState ≠ .idle) ∧
      ((x 0x20).engState = .idle ∧ (x 0x20).agenda = xcmd (x 0x20).cfg.base 0x20 ++ [] ∧
        (run 0x20).engState = .idle) ∧
      ((x 0x08).engState = .idle ∧ (x 0x08).agenda = xcmd (x 0x08).cfg.base 0x08 ++ [] ∧
        (run 0x08).engState ≠ .idle ∧ (x 0x08).txp.valid = true) := by decide +kernel

theorem witness_OnlyAccessesOutsideTheWindowFault :
    step (moved (.hostRead 0x2000 .w32)) = .fault (.outsideWindow 0x2000) := rfl

end Sys2Proof.Tests
end

section
/-! SUPPORT. What one step can do, said once; the reasoning rules of the host bus, one per kind of access; and
the register file as the host writes and reads it. -/

namespace Sys2Proof.Machine

/-! ## Inversion of a step -/

/-- A host write is an access on the bus. -/
theorem environment_hostWrite (s : State) (addr : Nat) (width : Width) (v : Word) :
    environment (.hostWrite addr width v) s = onBus s.cfg.base addr width fun off => s.busWrite off width v := rfl

/-- A host read is an access on the bus. -/
theorem environment_hostRead (s : State) (addr : Nat) (width : Width) :
    environment (.hostRead addr width) s = onBus s.cfg.base addr width fun off => s.busRead addr off width := rfl

/-- An access that completes lies in the window, is admitted, and answers what the access does. -/
theorem onBus_eq_next {base addr : Nat} {width : Width} {access : Nat → State} {t : State}
    (h : onBus base addr width access = .next t) :
    ∃ off, addr = base + off ∧ off < 0x2000 ∧ ¬NotAdmitted off width ∧ t = access off := by
  obtain ⟨off, haddr, hoff, ha, he⟩ | ⟨off, -, -, he⟩ | ⟨-, he⟩ := onBus_cases base addr width access <;>
    rw [he] at h <;> cases h
  exact ⟨off, haddr, hoff, ha, rfl⟩

/-- An access that faults lies outside the window, and the fault names its address. -/
theorem onBus_eq_fault {base addr : Nat} {width : Width} {access : Nat → State} {f : Fault}
    (h : onBus base addr width access = .fault f) :
    f = .outsideWindow addr ∧ (addr < base ∨ base + 0x2000 ≤ addr) := by
  obtain ⟨off, -, -, -, he⟩ | ⟨off, -, -, he⟩ | ⟨hout, he⟩ := onBus_cases base addr width access <;>
    rw [he] at h <;> cases h
  exact ⟨rfl, hout⟩

/-- All a step that answers a next state can do: one constructor for each move of the engine, the host, the
collaborator and the platform (20_memory.md R97, log entry 3). -/
inductive StepTo (s : State) : State → Prop where
  | idle (hm : s.nextMove = .engine) (he : s.engState = .idle) : StepTo s s.popMove
  | command {t : State} (hm : s.nextMove = .engine) (he : s.engState = .exec)
      (hx : exec (decodeCommand s.latch) s.popMove = .next t) : StepTo s t
  | resume (hm : s.nextMove = .engine) (he : s.engState = .waitTxp) : StepTo s (resumeEncode s.popMove)
  | write (off : Nat) (width : Width) (v : Word) (hm : s.nextMove = .hostWrite (s.cfg.base + off) width v)
      (hoff : off < 0x2000) (ha : ¬NotAdmitted off width) : StepTo s (s.popMove.busWrite off width v)
  | read (off : Nat) (width : Width) (hm : s.nextMove = .hostRead (s.cfg.base + off) width)
      (hoff : off < 0x2000) (ha : ¬NotAdmitted off width) :
      StepTo s (s.popMove.busRead (s.cfg.base + off) off width)
  | poll (hm : s.nextMove = .hostPoll) : StepTo s s.popMove.pollStatus
  | drive (port : TxpPort) (hm : s.nextMove = .txpDrive port) : StepTo s { s.popMove with txp := port }
  | reset (hm : s.nextMove = .reset) : StepTo s s.popMove.hardReset

theorem stepTo_of_step {s t : State} (h : step s = .next t) : StepTo s t := by
  cases hm : s.nextMove with
  | engine =>
    rw [step_engine hm] at h
    cases he : s.engState with
    | idle =>
      rw [engineTurn_idle (s := s.popMove) he] at h
      cases h
      exact .idle hm he
    | exec =>
      rw [engineTurn_exec (s := s.popMove) he] at h
      exact .command hm he h
    | waitTxp =>
      rw [engineTurn_waitTxp (s := s.popMove) he] at h
      cases h
      exact .resume hm he
  | hostWrite addr width v =>
    rw [step_environment hm nofun, environment_hostWrite] at h
    obtain ⟨off, rfl, hoff, ha, rfl⟩ := onBus_eq_next h
    exact .write off width v hm hoff ha
  | hostRead addr width =>
    rw [step_environment hm nofun, environment_hostRead] at h
    obtain ⟨off, rfl, hoff, ha, rfl⟩ := onBus_eq_next h
    exact .read off width hm hoff ha
  | hostPoll =>
    rw [step_environment hm nofun] at h
    cases h
    exact .poll hm
  | txpDrive port =>
    rw [step_environment hm nofun] at h
    cases h
    exact .drive port hm
  | reset =>
    rw [step_environment hm nofun] at h
    cases h
    exact .reset hm

/-- What every write of a command keeps holds of an instruction's whole run. -/
theorem KeptByCommands.of_exec {R : State → State → Prop} (hR : KeptByCommands R) {i : Instr} {s t : State}
    (h : exec i s = .next t) : R s t := by
  obtain ⟨u, hu, hsu⟩ := hR.command i s
  rw [hu] at h
  cases h
  exact hsu

/-- No command writes what belongs to the host's side. -/
theorem hostSideSame_keptByCommands : KeptByCommands HostSideSame where
  refl _ := ⟨rfl, rfl, rfl, rfl, rfl, rfl, rfl, rfl⟩
  trans s t u hst htu := by
    obtain ⟨a1, a2, a3, a4, a5, a6, a7, a8⟩ := hst
    obtain ⟨b1, b2, b3, b4, b5, b6, b7, b8⟩ := htu
    exact ⟨b1.trans a1, b2.trans a2, b3.trans a3, b4.trans a4, b5.trans a5, b6.trans a6, b7.trans a7, b8.trans a8⟩
  encK _ _ _ := ⟨rfl, rfl, rfl, rfl, rfl, rfl, rfl, rfl⟩
  resume _ _ := ⟨rfl, rfl, rfl, rfl, rfl, rfl, rfl, rfl⟩
  suspend _ _ _ := ⟨rfl, rfl, rfl, rfl, rfl, rfl, rfl, rfl⟩
  restart _ := ⟨rfl, rfl, rfl, rfl, rfl, rfl, rfl, rfl⟩
  payload _ _ _ := ⟨rfl, rfl, rfl, rfl, rfl, rfl, rfl, rfl⟩
  header _ _ _ _ := ⟨rfl, rfl, rfl, rfl, rfl, rfl, rfl, rfl⟩
  consumed _ _ := ⟨rfl, rfl, rfl, rfl, rfl, rfl, rfl, rfl⟩
  decPos _ _ := ⟨rfl, rfl, rfl, rfl, rfl, rfl, rfl, rfl⟩
  fieldSet _ _ := ⟨rfl, rfl, rfl, rfl, rfl, rfl, rfl, rfl⟩
  draw s := by
    unfold State.partialFieldSet
    split <;> exact ⟨rfl, rfl, rfl, rfl, rfl, rfl, rfl, rfl⟩
  complete _ := ⟨rfl, rfl, rfl, rfl, rfl, rfl, rfl, rfl⟩
  raise _ _ := ⟨rfl, rfl, rfl, rfl, rfl, rfl, rfl, rfl⟩

/-! ## The rules of a host access -/

theorem step_hostWrite {s : State} {off : Nat} {width : Width} {v : Word} (hoff : off < 0x2000)
    (ha : ¬NotAdmitted off width) (hm : s.nextMove = .hostWrite (s.cfg.base + off) width v) :
    step s = .next (s.popMove.busWrite off width v) := by
  rw [step_environment hm nofun, environment_hostWrite]
  exact onBus_next _ _ _ _ hoff ha

theorem step_hostRead {s : State} {off : Nat} {width : Width} (hoff : off < 0x2000)
    (ha : ¬NotAdmitted off width) (hm : s.nextMove = .hostRead (s.cfg.base + off) width) :
    step s = .next (s.popMove.busRead (s.cfg.base + off) off width) := by
  rw [step_environment hm nofun, environment_hostRead]
  exact onBus_next _ _ _ _ hoff ha

/-- An aligned 32-bit access to the register space is admitted (20_memory.md R86). -/
theorem not_notAdmitted_register {off : Nat} (hoff : off < 0x1000) (h4 : off % 4 = 0) :
    ¬NotAdmitted off .w32 := by
  rintro (⟨-, h | h⟩ | ⟨h, -⟩)
  · exact h rfl
  · exact h h4
  · omega

theorem State.busy_eq_false {s : State} (h : s.engState = .idle) : s.busy = false := by
  simp [State.busy, h]

theorem State.busy_eq_true {s : State} (h : s.engState ≠ .idle) : s.busy = true := by
  simp [State.busy, h]

theorem State.busWrite_of_busy {s : State} (h : s.engState ≠ .idle) (off : Nat) (width : Width) (v : Word) :
    s.busWrite off width v = s := by
  simp [State.busWrite, State.busy_eq_true h]

theorem State.busWrite_register {s : State} {off : Nat} {r : Reg} (h : s.engState = .idle)
    (hoff : off < 0x1000) (hr : regAt off = some r) (width : Width) (v : Word) :
    s.busWrite off width v = s.writeReg v r := by
  simp [State.busWrite, State.busy_eq_false h, hoff, hr]

/-- The value a read shows is the one the address map gives, while idle or at an exact offset. -/
theorem afterRead_busRead {s : State} {off : Nat} {width : Width}
    (h : s.engState = .idle ∨ exactWhileBusy off = true) :
    AfterRead s (s.popMove.busRead (s.cfg.base + off) off width) off (s.busValue off width) 0 := by
  have hcond : (s.popMove.busy && !exactWhileBusy off) = false := by
    rcases h with h | h
    · rw [State.busy_eq_false (s := s.popMove) h, Bool.false_and]
    · rw [h, Bool.not_true, Bool.and_false]
  rw [AfterRead, State.busRead, hcond]
  rfl

theorem State.busValue_register {off : Nat} {r : Reg} (hoff : off < 0x1000) (hr : regAt off = some r) (s : State)
    (width : Width) : s.busValue off width = s.readReg r := by
  simp [State.busValue, hoff, hr]

/-- A 32-bit read of a register, while idle or at an exact offset. -/
theorem step_readRegister {s : State} {off : Nat} {r : Reg} (hoff : off < 0x1000) (h4 : off % 4 = 0)
    (hr : regAt off = some r) (h : s.engState = .idle ∨ exactWhileBusy off = true)
    (hm : s.nextMove = .hostRead (s.cfg.base + off) .w32) :
    ∃ t, step s = .next t ∧ AfterRead s t off (s.readReg r) 0 :=
  ⟨_, step_hostRead (by omega) (not_notAdmitted_register hoff h4) hm,
    State.busValue_register hoff hr s .w32 ▸ afterRead_busRead h⟩

/-! ## What a register write leaves unchanged -/

@[simp] theorem State.writeReg_cfg (s : State) (v : Word) (r : Reg) : (s.writeReg v r).cfg = s.cfg := by
  cases r <;> rfl

@[simp] theorem State.writeReg_mem (s : State) (v : Word) (r : Reg) : (s.writeReg v r).mem = s.mem := by
  cases r <;> rfl

@[simp] theorem State.writeReg_epoch (s : State) (v : Word) (r : Reg) : (s.writeReg v r).epoch = s.epoch := by
  cases r <;> rfl

@[simp] theorem State.writeReg_encK (s : State) (v : Word) (r : Reg) : (s.writeReg v r).encK = s.encK := by
  cases r <;> rfl

/-- Only a write to CMD starts the engine (10_state.md R33). -/
theorem State.writeReg_engState (s : State) (v : Word) (r : Reg) :
    (s.writeReg v r).engState = if r = .cmd then .exec else s.engState := by
  cases r <;> rfl

/-- Only a write to CMD latches a word (10_state.md R33). -/
theorem State.writeReg_latch (s : State) (v : Word) (r : Reg) :
    (s.writeReg v r).latch = if r = .cmd then v else s.latch := by
  cases r <;> rfl

@[simp] theorem State.popMove_readReg (s : State) (r : Reg) : s.popMove.readReg r = s.readReg r := by
  cases r <;> rfl

/-! ## Which accesses change the parameters: none -/

@[simp] theorem State.busWrite_cfg (s : State) (off : Nat) (width : Width) (v : Word) :
    (s.busWrite off width v).cfg = s.cfg := by
  obtain h | ⟨-, -, r, -, h⟩ | ⟨-, -, -, -, h⟩ | ⟨-, -, -, -, h⟩ := s.busWrite_cases off width v <;> rw [h]
  exact s.writeReg_cfg v r

@[simp] theorem State.busRead_cfg (s : State) (addr off : Nat) (width : Width) :
    (s.busRead addr off width).cfg = s.cfg := by
  obtain ⟨-, -, h⟩ | ⟨-, h⟩ := s.busRead_cases addr off width <;> rw [h]

@[simp] theorem State.pollStatus_cfg (s : State) : s.pollStatus.cfg = s.cfg := by
  obtain ⟨-, h⟩ | ⟨-, h⟩ := s.pollStatus_cases <;> rw [h]

/-- Settles O5: each move of StepTo keeps `cfg`. -/
theorem stepKeepsTheParameters : Obligations.StepKeepsTheParameters := by
  intro s t h
  cases stepTo_of_step h with
  | idle => rfl
  | command _ _ hx => exact (hostSideSame_keptByCommands.of_exec hx).1
  | resume _ he => exact (hostSideSame_keptByCommands.resumption s.popMove he).1
  | write off width v => exact s.popMove.busWrite_cfg off width v
  | read off width => exact s.popMove.busRead_cfg _ off width
  | poll => exact s.popMove.pollStatus_cfg
  | drive => rfl
  | reset => rfl

/-- The engine's turn always answers a next state: an error is a result code (60_exceptions.md R280). -/
theorem engineTurn_next (s : State) : ∃ t, engineTurn s = .next t := by
  cases he : s.engState with
  | idle => exact ⟨_, engineTurn_idle he⟩
  | exec =>
    obtain ⟨t, ht, -⟩ := hostSideSame_keptByCommands.command (decodeCommand s.latch) s
    exact ⟨t, (engineTurn_exec he).trans ht⟩
  | waitTxp => exact ⟨_, engineTurn_waitTxp he⟩

/-- Settles O59: of all moves only a host access can fault, and only where it lies outside the window. -/
theorem onlyAccessesOutsideTheWindowFault : Obligations.OnlyAccessesOutsideTheWindowFault := by
  intro s f h
  cases hm : s.nextMove with
  | engine =>
    obtain ⟨t, ht⟩ := engineTurn_next s.popMove
    rw [step_engine hm, ht] at h
    cases h
  | hostWrite addr width v =>
    rw [step_environment hm nofun, environment_hostWrite] at h
    exact ⟨addr, onBus_eq_fault h⟩
  | hostRead addr width =>
    rw [step_environment hm nofun, environment_hostRead] at h
    exact ⟨addr, onBus_eq_fault h⟩
  | hostPoll =>
    rw [step_environment hm nofun] at h
    cases h
  | txpDrive port =>
    rw [step_environment hm nofun] at h
    cases h
  | reset =>
    rw [step_environment hm nofun] at h
    cases h

end Sys2Proof.Machine
end

section
/-! SUPPORT. The invariant of every step: the bounds each write keeps, and where an ENCODE can be suspended. -/

namespace Sys2Proof.Machine

/-! ## The bounds -/

theorem MemInWindow.set {m : Memory} (h : MemInWindow m) {a : Nat} (ha : 0x1000 ≤ a) (ha' : a < 0x1200)
    (b : Byte) : MemInWindow (m.set a b) := by
  intro c hc
  rcases Memory.mem_set hc with rfl | hc
  · exact ⟨ha, ha'⟩
  · exact h c hc

theorem MemInWindow.setBytes {m : Memory} (h : MemInWindow m) {a : Nat} {bs : List Byte} (ha : 0x1000 ≤ a)
    (ha' : a + bs.length ≤ 0x1200) : MemInWindow (m.setBytes a bs) := by
  intro c hc
  rcases Memory.mem_setBytes hc with ⟨hlo, hhi⟩ | hc
  · exact ⟨by omega, by omega⟩
  · exact h c hc

/-- The parts of the invariant that every write of a command keeps one by one, and the cursor's bound. -/
structure KeepsBounds (s t : State) : Prop where
  wf : s.mem.wf → t.mem.wf
  window : MemInWindow s.mem → MemInWindow t.mem
  encK : s.encK ≤ 18 → t.encK ≤ 18
  cursor : s.outLen.toNat ≤ s.maxLen.toNat → t.outLen.toNat ≤ t.maxLen.toNat

theorem KeepsBounds.refl (s : State) : KeepsBounds s s := ⟨id, id, id, id⟩

/-- A run of bytes at the cursor, which then moves past it, within the capacity (20_memory.md R96). -/
theorem keepsBounds_writeDst (s : State) (bs : List Byte) (h : s.outLen.toNat + bs.length ≤ s.maxLen.toNat) :
    KeepsBounds s ((s.writeDst s.outLen.toNat bs).setOutLen (s.outLen.toNat + bs.length)) where
  wf hwf := Memory.wf_setBytes hwf _ _
  window hwin := by
    have := s.maxLen.isLt
    exact hwin.setBytes (by simp only [dstBase]; omega) (by simp only [dstBase]; omega)
  encK := id
  cursor _ := by
    have := s.maxLen.isLt
    simp only [State.setOutLen_outLen, State.setOutLen_maxLen, State.writeDst_maxLen, BitVec.toNat_ofNat]
    omega

theorem keepsBounds_keptByCommands : KeptByCommands KeepsBounds where
  refl := .refl
  trans _ _ _ hst htu :=
    ⟨htu.wf ∘ hst.wf, htu.window ∘ hst.window, htu.encK ∘ hst.encK, htu.cursor ∘ hst.cursor⟩
  encK _ _ hx := ⟨id, id, fun _ => hx, id⟩
  resume _ _ := ⟨id, id, id, id⟩
  suspend _ _ _ := ⟨id, id, fun _ => by simp, id⟩
  restart _ := ⟨id, id, id, fun _ => Nat.zero_le _⟩
  payload s bs h := keepsBounds_writeDst s bs h
  header t n s h := keepsBounds_writeDst s [BitVec.ofNat 8 (n + 1), t] (Nat.le_trans (Nat.le_add_right _ n) h)
  consumed _ _ := ⟨id, id, id, id⟩
  decPos _ _ := ⟨id, id, id, id⟩
  fieldSet _ _ := ⟨id, id, id, id⟩
  draw s := by
    unfold State.partialFieldSet
    split <;> exact ⟨id, id, id, id⟩
  complete _ := ⟨id, id, id, id⟩
  raise _ _ := ⟨id, id, id, id⟩

/-! ## Where a command can be suspended -/

/-- An ending that leaves the block waiting is a suspension: the completion rule and a raise leave it idle. -/
theorem Ending.eq_suspended_of_waitTxp {e : Ending} (h : e.finish.engState = .waitTxp) :
    e = .suspended e.finish := by
  cases e with
  | ok s => cases h
  | raised err s => cases h
  | suspended s => rfl

theorem endAtomic_finish_engState (s : State) (r : Except Err State) :
    (endAtomic s r).finish.engState = .idle := by
  cases r <;> rfl

theorem decodeWindow_engState (p r size : Nat) (dec : State → Except Err State) (s : State) :
    (decodeWindow p r size dec s).engState = .idle := by
  simp only [decodeWindow]
  split
  · split <;> rfl
  · rfl

theorem gated_finish_engState {s : State} {body : State → Ending} (h : (body s).finish.engState = .idle) :
    (gated s body).finish.engState = .idle := by
  unfold gated
  split
  · exact h
  · rfl

theorem execDecode_ends_idle (s : State) :
    (afterDecode (decodeWalk s.inLen.toNat 0 s.inLen.toNat s.fsClear)).finish.engState = .idle := by
  obtain ⟨fs, q, h | ⟨e, h⟩⟩ := decodeWalk_ends s.inLen.toNat 0 s.inLen.toNat s.fsClear <;> rw [h] <;> rfl

/-- A suspended loop of ENCODE stands at kind 5, present with the sentinel (40_encode.md R176, R177). -/
theorem encFrom_eq_suspended {ks : List Kind} {s t : State} (h : encFrom ks s = .suspended t) :
    .txp ∈ ks ∧ t.encK = 5 ∧ t.fs.has .txp = true ∧ t.fs.txp = t.cfg.txPwrAuto := by
  induction ks generalizing s with
  | nil => cases h
  | cons k ks ih =>
    have later {u : State} (hu : encFrom ks u = .suspended t) :
        .txp ∈ k :: ks ∧ t.encK = 5 ∧ t.fs.has .txp = true ∧ t.fs.txp = t.cfg.txPwrAuto :=
      (ih hu).imp_left (List.mem_cons_of_mem k)
    by_cases hk : s.fs.has k = true
    · by_cases hq : s.queries k = true
      · rw [encFrom_query ks hk hq] at h
        cases h
        obtain ⟨rfl, hauto⟩ : k = .txp ∧ s.fs.txp = s.cfg.txPwrAuto := by simpa [State.queries] using hq
        exact ⟨List.mem_cons_self, rfl, hk, hauto⟩
      · have hq : s.queries k = false := by simpa using hq
        cases he : encField k s with
        | error e =>
          rw [encFrom_failed ks hk hq he] at h
          cases h
        | ok u =>
          rw [encField_eq] at he
          split_ifs at he with hfit hv
          rw [encFrom_written ks hk hq hfit hv] at h
          exact later h
    · rw [encFrom_absent ks (by simpa using hk)] at h
      exact later h

/-- A resumed ENCODE makes no second query (60_exceptions.md R301, R302). -/
theorem resumeEncode_engState {s : State} (hv : s.txp.valid = true) : (resumeEncode s).engState = .idle := by
  rw [resumeEncode, if_pos hv, encodeAfterAnswer]
  split
  · split
    · rename_i u _
      cases he : encFrom kindsAfterTxp u with
      | ok => rfl
      | raised => rfl
      | suspended => exact absurd (encFrom_eq_suspended he).1 (by decide)
    · rfl
  · rfl

/-- Every instruction but ENCODE ends in its own step. -/
theorem exec_engState {i : Instr} {s t : State} (hi : i ≠ .encode) (h : exec i s = .next t) :
    t.engState = .idle := by
  cases i <;> cases h
  case encode => exact absurd rfl hi
  case nop | fsclr | reserved => rfl
  case hdr | flat | arr16 | arr32 => exact gated_finish_engState (endAtomic_finish_engState _ _)
  case pu16 | pu32 => exact endAtomic_finish_engState _ _
  case decode => exact execDecode_ends_idle s
  all_goals exact decodeWindow_engState _ _ _ _ _

/-- A word that decodes to ENCODE has its opcode (30_encoding.md R111). -/
theorem cmdOp_of_decodeCommand_encode {w : Word} (h : decodeCommand w = .encode) : cmdOp w = 0x08 := by
  unfold decodeCommand at h
  split at h <;> cases h
  assumption

/-- A latched command that leaves the block waiting is an ENCODE suspended as R176 and R177 say. -/
theorem waiting_of_exec {s t : State} (h : exec (decodeCommand s.latch) s = .next t)
    (hw : t.engState = .waitTxp) : Waiting t := by
  by_cases hi : decodeCommand s.latch = .encode
  · rw [hi] at h
    cases h
    by_cases hsup : s.cfg.encodeSupported = true
    · rw [gated_of_supported hsup] at hw ⊢
      have bounds := keepsBounds_keptByCommands.loop allKinds (s.setOutLen 0)
      have same := hostSideSame_keptByCommands.loop allKinds (s.setOutLen 0)
      obtain ⟨-, hk, hhas, hauto⟩ := encFrom_eq_suspended (Ending.eq_suspended_of_waitTxp hw)
      obtain ⟨hcfg, -, -, hlatch, -⟩ := same
      refine ⟨?_, ?_, hk, hhas, hauto, bounds.cursor (Nat.zero_le _)⟩
      · rw [hlatch]
        exact cmdOp_of_decodeCommand_encode hi
      · rw [hcfg]
        exact hsup
    · rw [gated_of_unsupported (by simpa using hsup)] at hw
      cases hw
  · rw [exec_engState hi h] at hw
    cases hw

/-! ## The invariant -/

theorem KeepsBounds.inv {s t : State} (h : KeepsBounds s t) (hs : Inv s)
    (hw : t.engState = .waitTxp → Waiting t) : Inv t := by
  obtain ⟨hwf, hwin, hk, -⟩ := hs
  exact ⟨h.wf hwf, h.window hwin, h.encK hk, hw⟩

theorem Inv.resumeEncode {s : State} (hs : Inv s) (he : s.engState = .waitTxp) : Inv (resumeEncode s) := by
  by_cases hv : s.txp.valid = true
  · refine (keepsBounds_keptByCommands.resumption s he).inv hs fun hw => ?_
    rw [resumeEncode_engState hv] at hw
    cases hw
  · rwa [Machine.resumeEncode, if_neg hv]

/-- A register write leaves no block waiting that was idle. -/
theorem Inv.writeReg {s : State} (hs : Inv s) (hi : s.engState = .idle) (v : Word) (r : Reg) :
    Inv (s.writeReg v r) := by
  obtain ⟨hwf, hwin, hk, -⟩ := hs
  refine ⟨by rwa [s.writeReg_mem], by rwa [s.writeReg_mem], by rwa [s.writeReg_encK], fun hw => ?_⟩
  rw [s.writeReg_engState, hi] at hw
  split at hw <;> cases hw

/-- An admitted host write stays within SRC and DST: a word of them is aligned (20_memory.md R87). -/
theorem Inv.busWrite {s : State} (hs : Inv s) {off : Nat} {width : Width} (ha : ¬NotAdmitted off width)
    (v : Word) : Inv (s.busWrite off width v) := by
  obtain h | ⟨hi, -, r, -, h⟩ | ⟨-, hlo, hhi, rfl, h⟩ | ⟨-, hlo, hhi, -, h⟩ :=
    s.busWrite_cases off width v <;> rw [h]
  · exact hs
  · exact hs.writeReg hi v r
  · obtain ⟨hwf, hwin, hrest⟩ := hs
    have h4 : off % 4 = 0 := by
      by_contra h4
      exact ha (.inr ⟨hlo, hhi, .inr ⟨rfl, h4⟩⟩)
    exact ⟨Memory.wf_setBytes hwf _ _, hwin.setBytes hlo (by simp only [wordBytes_length]; omega), hrest⟩
  · obtain ⟨hwf, hwin, hrest⟩ := hs
    exact ⟨Memory.wf_set hwf _ _, hwin.set hlo hhi _, hrest⟩

theorem Inv.busRead {s : State} (hs : Inv s) (addr off : Nat) (width : Width) : Inv (s.busRead addr off width) := by
  obtain ⟨-, -, h⟩ | ⟨-, h⟩ := s.busRead_cases addr off width <;> rw [h] <;> exact hs

theorem Inv.pollStatus {s : State} (hs : Inv s) : Inv s.pollStatus := by
  obtain ⟨-, h⟩ | ⟨-, h⟩ := s.pollStatus_cases <;> rw [h] <;> exact hs

theorem inv_hardReset (s : State) : Inv s.hardReset :=
  ⟨.nil, nofun, Nat.zero_le _, nofun⟩

/-- Settles O4: a command or the resumption keeps the bounds write by write, and leaves the block waiting only
where ENCODE meets the sentinel; every other move leaves what the invariant speaks of, or writes an idle block. -/
theorem stepKeepsTheInvariant : Obligations.StepKeepsTheInvariant := by
  intro s t hs h
  have hs' : Inv s.popMove := hs
  cases stepTo_of_step h with
  | idle => exact hs'
  | command _ _ hx =>
    exact (keepsBounds_keptByCommands.of_exec hx).inv hs' (waiting_of_exec (s := s.popMove) hx)
  | resume _ he => exact hs'.resumeEncode he
  | write off width v _ _ ha => exact hs'.busWrite ha v
  | read off width => exact hs'.busRead _ off width
  | poll => exact hs'.pollStatus
  | drive => exact hs'
  | reset => exact inv_hardReset _

end Sys2Proof.Machine
end

section
/-! SUPPORT. The register file as the host writes and reads it: what each register shows, what a write stores in
it, and what a reserved offset does (10_state.md R32 to R56). -/

namespace Sys2Proof.Machine

/-! ## Values of registers -/

theorem toNat_append_eq_add {m n : Nat} (x : BitVec m) (y : BitVec n) :
    (x ++ y).toNat = x.toNat * 2 ^ n + y.toNat := by
  rw [BitVec.toNat_append, ← Nat.shiftLeft_add_eq_or_of_lt y.isLt, Nat.shiftLeft_eq]

theorem toNat_zeroByte : (0 : Byte).toNat = 0 := rfl

theorem toNat_wordByte (v : Word) (j : Nat) : (wordByte v j).toNat = v.toNat / 2 ^ (8 * j) % 2 ^ 8 := by
  simp only [wordByte, BitVec.extractLsb'_toNat, Nat.shiftRight_eq_div_pow]

/-- The low `k` bits of a word, by truncation and by mask. -/
theorem and_lowMask (v : Word) (k : Nat) (hk : k ≤ 32) :
    v &&& BitVec.ofNat 32 (2 ^ k - 1) = (v.setWidth k).setWidth 32 := by
  have hpow : 2 ^ k ≤ 2 ^ 32 := Nat.pow_le_pow_right (by decide) hk
  have hlow : v.toNat % 2 ^ k < 2 ^ 32 := Nat.lt_of_le_of_lt (Nat.mod_le _ _) v.isLt
  apply BitVec.eq_of_toNat_eq
  rw [BitVec.toNat_and, BitVec.toNat_ofNat, Nat.mod_eq_of_lt (by omega), Nat.and_two_pow_sub_one_eq_mod,
    BitVec.toNat_setWidth, BitVec.toNat_setWidth, Nat.mod_eq_of_lt hlow]

theorem le32_ofBytes (b0 b1 b2 : Byte) :
    le32 b0 b1 b2 0 = BitVec.ofNat 32 (b0.toNat + 2 ^ 8 * b1.toNat + 2 ^ 16 * b2.toNat) := by
  have := b0.isLt
  have := b1.isLt
  have := b2.isLt
  apply BitVec.eq_of_toNat_eq
  rw [toNat_le32, BitVec.toNat_ofNat]
  simp only [toNat_zeroByte]
  omega

theorem View.word_eq_ofNat (v : View) : v.word = BitVec.ofNat 32 (v.off.toNat + 2 ^ 8 * v.n.toNat) :=
  le32_ofBytes v.off v.n 0

theorem View.word_ofWord (v : Word) : (View.ofWord v).word = v &&& 0x0000FFFF := by
  refine Eq.trans ?_ (and_lowMask v 16 (by decide)).symm
  apply BitVec.eq_of_toNat_eq
  simp only [View.word, View.ofWord, toNat_le32, toNat_wordByte, BitVec.toNat_setWidth, toNat_zeroByte,
    Nat.reduceMul]
  omega

theorem appear_append_advItvl (v : Word) : v.extractLsb' 16 16 ++ v.extractLsb' 0 16 = v := by
  apply BitVec.eq_of_toNat_eq
  have := v.isLt
  simp only [toNat_append_eq_add, BitVec.extractLsb'_toNat, Nat.shiftRight_eq_div_pow]
  omega

theorem scalar_bytes (v : Word) : le32 (wordByte v 0) (wordByte v 1) (wordByte v 2) 0 = v &&& 0x00FFFFFF := by
  refine Eq.trans ?_ (and_lowMask v 24 (by decide)).symm
  apply BitVec.eq_of_toNat_eq
  simp only [toNat_le32, toNat_wordByte, BitVec.toNat_setWidth, toNat_zeroByte,
    Nat.reduceMul]
  omega

theorem wordByte_zero_setWidth (v : Word) : (wordByte v 0).setWidth 32 = v &&& 0x000000FF := by
  refine Eq.trans ?_ (and_lowMask v 8 (by decide)).symm
  apply BitVec.eq_of_toNat_eq
  simp only [toNat_wordByte, BitVec.toNat_setWidth]
  omega

/-! ## Reading a register after a write -/

/-- A write to a register leaves every other one as it reads, unless it starts the engine. -/
theorem readReg_writeReg_of_ne (s : State) (v : Word) {r r' : Reg} (hr : r ≠ .cmd) (hne : r' ≠ r) :
    (s.writeReg v r).readReg r' = s.readReg r' := by
  cases r with
  | u16 i =>
    cases r' with
    | u16 j =>
      have hij : i ≠ j := fun h => hne (h ▸ rfl)
      simp [State.readReg, State.writeReg, FieldSet.writeReg, FieldSet.u16At, setEntry16, hij]
    | _ => rfl
  | u32 i =>
    cases r' with
    | u32 j =>
      have hij : i ≠ j := fun h => hne (h ▸ rfl)
      simp [State.readReg, State.writeReg, FieldSet.writeReg, FieldSet.u32At, setEntry32, hij]
    | _ => rfl
  | _ => cases r' <;> trivial

/-- A RW register reads back the bits written that hold a value. -/
theorem readReg_writeReg_self (s : State) (v : Word) {r : Reg} {bits : Word} (h : r.storedBits = some bits) :
    (s.writeReg v r).readReg r = v &&& bits := by
  have hall : v &&& 0xFFFFFFFF = v := BitVec.and_allOnes
  cases r with
  | cmd | status | result | cap | cap2 | consumed | decPos => cases h
  | maxLen | outLen | inLen =>
    cases h
    exact wordByte_zero_setWidth v
  | fsPresent =>
    cases h
    exact (and_lowMask v 18 (by decide)).symm
  | fsComplete =>
    cases h
    exact (and_lowMask v 4 (by decide)).symm
  | fsScalar =>
    cases h
    exact scalar_bytes v
  | fsWord =>
    cases h
    exact (appear_append_advItvl v).trans hall.symm
  | fsCount | fsU128 | fsName | fsSd16 | fsPta | fsSd32 | fsSd128 | fsUri | fsMfg =>
    cases h
    exact View.word_ofWord v
  | fsDevcls | fsItvl | fsLeaddr0 | fsLeaddr1 =>
    cases h
    exact hall.symm
  | u16 i =>
    simp only [Reg.storedBits, Option.ite_none_right_eq_some, Option.some.injEq] at h
    obtain ⟨hi, rfl⟩ := h
    simp only [State.readReg, State.writeReg, FieldSet.writeReg, FieldSet.u16At, getElem?_setEntry16 _ _ _ _ hi,
      if_true, Option.getD_some]
    exact (and_lowMask v 16 (by decide)).symm
  | u32 i =>
    simp only [Reg.storedBits, Option.ite_none_right_eq_some, Option.some.injEq] at h
    obtain ⟨hi, rfl⟩ := h
    simp only [State.readReg, State.writeReg, FieldSet.writeReg, FieldSet.u32At, getElem?_setEntry32 _ _ _ _ hi,
      if_true, Option.getD_some]
    exact hall.symm

/-- Settles O54: the write is writeReg on an idle block, and CMD has no stored bits. -/
theorem registerWriteReadsBackItsBits : Obligations.RegisterWriteReadsBackItsBits := by
  intro s off v bits r hi hoff h4 hr hbits hm
  have hcmd : r ≠ .cmd := by
    rintro rfl
    cases hbits
  refine ⟨s.popMove.writeReg v r, ?_, readReg_writeReg_self _ v hbits, fun r' hne => ?_, fun a => ?_,
    ?_, ?_, ?_, ?_⟩
  · rw [step_hostWrite (by omega) (not_notAdmitted_register hoff h4) hm,
      State.busWrite_register (s := s.popMove) hi hoff hr]
  · rw [readReg_writeReg_of_ne _ v hcmd hne, State.popMove_readReg]
  · exact State.readByte_congr (s := s.popMove) (State.writeReg_mem _ v r) (State.writeReg_epoch _ v r) a
  · rw [State.writeReg_engState, if_neg hcmd]
    exact hi
  · rw [State.writeReg_latch, if_neg hcmd, State.popMove_latch]
  · rw [State.writeReg_encK, State.popMove_encK]
  · rw [State.writeReg_cfg, State.popMove_cfg]

/-! ## Reads of the named registers -/

/-- Offset `off` names a register whose value is `val`. -/
def ShowsAt (s : State) (off val : Nat) : Prop :=
  off < 0x1000 ∧ off % 4 = 0 ∧ ∃ r, regAt off = some r ∧ s.readReg r = BitVec.ofNat 32 val

theorem setWidth_eq_ofNat {w : Nat} (v : BitVec w) : v.setWidth 32 = BitVec.ofNat 32 v.toNat :=
  (BitVec.ofNat_toNat 32 v).symm

theorem word_eq_ofNat (v : Word) : v = BitVec.ofNat 32 v.toNat :=
  (BitVec.setWidth_eq v).symm.trans (setWidth_eq_ofNat v)

theorem append_eq_ofNat (hi lo : Half) : hi ++ lo = BitVec.ofNat 32 (lo.toNat + 2 ^ 16 * hi.toNat) := by
  have := lo.isLt
  have := hi.isLt
  apply BitVec.eq_of_toNat_eq
  rw [toNat_append_eq_add, BitVec.toNat_ofNat]
  omega

/-- Every entry of the address map's table is shown by the register at its offset. -/
theorem showsAt_namedReads (s : State) : ∀ p ∈ namedReads s, ShowsAt s p.1 p.2 := by
  have shows {off val : Nat} {r : Reg} (hoff : off < 0x1000 ∧ off % 4 = 0) (hr : regAt off = some r)
      (hv : s.readReg r = BitVec.ofNat 32 val) : ShowsAt s off val := ⟨hoff.1, hoff.2, r, hr, hv⟩
  simp only [namedReads, List.forall_mem_cons]
  exact ⟨shows (r := .cmd) (by decide) rfl rfl,
    shows (r := .result) (by decide) rfl (word_eq_ofNat _),
    shows (r := .maxLen) (by decide) rfl (setWidth_eq_ofNat _),
    shows (r := .outLen) (by decide) rfl (setWidth_eq_ofNat _),
    shows (r := .inLen) (by decide) rfl (setWidth_eq_ofNat _),
    shows (r := .consumed) (by decide) rfl (setWidth_eq_ofNat _),
    shows (r := .decPos) (by decide) rfl (setWidth_eq_ofNat _),
    shows (r := .fsPresent) (by decide) rfl (setWidth_eq_ofNat _),
    shows (r := .fsComplete) (by decide) rfl (setWidth_eq_ofNat _),
    shows (r := .fsScalar) (by decide) rfl (le32_ofBytes _ _ _),
    shows (r := .fsWord) (by decide) rfl (append_eq_ofNat _ _),
    shows (r := .fsCount) (by decide) rfl (le32_ofBytes _ _ 0),
    shows (r := .fsU128) (by decide) rfl (View.word_eq_ofNat _),
    shows (r := .fsName) (by decide) rfl (View.word_eq_ofNat _),
    shows (r := .fsSd16) (by decide) rfl (View.word_eq_ofNat _),
    shows (r := .fsPta) (by decide) rfl (View.word_eq_ofNat _),
    shows (r := .fsSd32) (by decide) rfl (View.word_eq_ofNat _),
    shows (r := .fsSd128) (by decide) rfl (View.word_eq_ofNat _),
    shows (r := .fsUri) (by decide) rfl (View.word_eq_ofNat _),
    shows (r := .fsMfg) (by decide) rfl (View.word_eq_ofNat _),
    shows (r := .fsDevcls) (by decide) rfl (word_eq_ofNat _),
    shows (r := .fsItvl) (by decide) rfl (word_eq_ofNat _),
    shows (r := .fsLeaddr0) (by decide) rfl (word_eq_ofNat _),
    shows (r := .fsLeaddr1) (by decide) rfl (word_eq_ofNat _), nofun⟩

/-- The UUID16 array lies at 0x200 (10_state.md R55). -/
theorem regAt_u16 {i : Nat} (h : i < 127) : regAt (0x200 + 4 * i) = some (.u16 i) := by
  rw [regAt, if_pos ⟨by omega, by simp only [Config.u16Cap]; omega⟩]
  congr 2
  omega

/-- The UUID32 array lies at 0x400 (10_state.md R56). -/
theorem regAt_u32 {i : Nat} (h : i < 63) : regAt (0x400 + 4 * i) = some (.u32 i) := by
  rw [regAt, if_neg (by simp only [Config.u16Cap]; omega), if_pos ⟨by omega, by simp only [Config.u32Cap]; omega⟩]
  congr 2
  omega

/-- Settles O51: each offset names a register, and that register's value is the table's. -/
theorem registerReadsShowTheirFields : Obligations.RegisterReadsShowTheirFields := by
  intro s hi
  refine ⟨fun p hp hm => ?_, fun i h hm => ?_, fun i h hm => ?_⟩
  · obtain ⟨hoff, h4, r, hr, hv⟩ := showsAt_namedReads s p hp
    exact hv ▸ step_readRegister hoff h4 hr (.inl hi) hm
  · exact setWidth_eq_ofNat (s.fs.u16At i) ▸
      step_readRegister (by omega) (by omega) (regAt_u16 h) (.inl hi) hm
  · exact step_readRegister (by omega) (by omega) (regAt_u32 h) (.inl hi) hm

/-! ## STATUS and the capability registers -/

/-- Bit 1 of STATUS (10_state.md R34). -/
theorem State.status_bit1 (s : State) : s.status.getLsbD 1 = s.waitTxp := by
  simp only [State.status, BitVec.getLsbD_append, BitVec.getLsbD_ofBool]
  rfl

/-- Bit 2 of STATUS. -/
theorem State.status_bit2 (s : State) : s.status.getLsbD 2 = s.errSrc := by
  simp only [State.status, BitVec.getLsbD_append, BitVec.getLsbD_ofBool]
  rfl

/-- The reserved bits of STATUS. -/
theorem State.status_reserved (s : State) {j : Nat} (h : 3 ≤ j) : s.status.getLsbD j = false := by
  simp only [State.status, BitVec.getLsbD_append, BitVec.getLsbD_zero]
  rw [if_neg (by omega), if_neg (by omega), if_neg (by omega)]

/-- Settles O52: STATUS is read exactly in every engine state, and each of its bits is known. -/
theorem statusReadIsExactAtAllTimes : Obligations.StatusReadIsExactAtAllTimes := by
  intro s hm
  obtain ⟨t, ht, rfl⟩ := step_readRegister (r := .status) (by decide) (by decide) rfl (.inr rfl) hm
  refine ⟨s.status, ht, ?_, ?_, s.status_bit2, fun j hj => s.status_reserved hj⟩
  · rw [s.status_bit0, State.busy, bne_iff_ne]
  · rw [s.status_bit1, State.waitTxp, beq_iff_eq]

/-- `CAP` of legal parameters is the sum of its fields (10_state.md R36). -/
theorem cap_eq_ofNat {c : Config} (h : c.legal) :
    Config.cap c = BitVec.ofNat 32 (c.encodeSupported.toNat + 2 ^ 8 * c.maxFieldSz + 2 ^ 16 * c.devclsLen +
      2 ^ 20 * c.itvlRangeLen + 2 ^ 24 * c.leAddrLen + 2 ^ 28 * 1) := by
  obtain ⟨hmax, ⟨-, hdev⟩, ⟨-, hitvl⟩, -, haddr⟩ := h
  have henc := Bool.toNat_lt c.encodeSupported
  apply BitVec.eq_of_toNat_eq
  simp only [Config.cap, toNat_append_eq_add, BitVec.toNat_ofNat, BitVec.toNat_ofBool]
  omega

/-- `CAP2` is the sum of its fields (10_state.md R37). -/
theorem cap2_eq_ofNat (c : Config) :
    Config.cap2 c = BitVec.ofNat 32 (c.txPwrAuto.toNat + 2 ^ 8 * 127 + 2 ^ 16 * 63) :=
  le32_ofBytes c.txPwrAuto _ _

/-- Settles O53: both are read exactly, busy or not. -/
theorem capabilityRegistersShowTheParameters : Obligations.CapabilityRegistersShowTheParameters := by
  intro s hlegal
  refine ⟨fun hm => ?_, fun hm => ?_⟩
  · exact cap_eq_ofNat hlegal ▸ step_readRegister (r := .cap) (by decide) (by decide) rfl (.inr rfl) hm
  · exact cap2_eq_ofNat s.cfg ▸ step_readRegister (r := .cap2) (by decide) (by decide) rfl (.inr rfl) hm

/-! ## CMD, writes while busy, reserved offsets -/

/-- Settles O48: CMD is the register at offset 0. -/
theorem cmdWriteStartsTheEngine : Obligations.CmdWriteStartsTheEngine := by
  intro s v hi hm
  rw [step_hostWrite (off := 0) (by decide) (not_notAdmitted_register (by decide) rfl) hm,
    State.busWrite_register (s := s.popMove) (r := .cmd) hi (by decide) rfl]
  rfl

/-- Settles O49: an admitted write answers busWrite, which a busy block ignores. -/
theorem writesWhileBusyAreIgnored : Obligations.WritesWhileBusyAreIgnored := by
  intro s off width v hb hoff ha hm
  rw [step_hostWrite hoff ha hm, State.busWrite_of_busy (s := s.popMove) hb]
  rfl

/-- The map names no register outside 0x000 to 0x024 and 0x100 to 0x140, the arrays apart (10_state.md R32). -/
theorem namedRegAt_eq_some {off : Nat} {r : Reg} (h : namedRegAt off = some r) :
    off ≤ 0x024 ∨ (0x100 ≤ off ∧ off ≤ 0x140) := by
  unfold namedRegAt at h
  split at h
  case h_28 => cases h
  all_goals omega

/-- An access to a reserved offset is admitted, within the window. -/
theorem ReservedAccess.admitted {off : Nat} {width : Width} (h : ReservedAccess off width) :
    off < 0x2000 ∧ ¬NotAdmitted off width := by
  rcases h with ⟨rfl, h4, hoff⟩ | ⟨hlo, hhi⟩
  · exact ⟨by omega, not_notAdmitted_register (by omega) h4⟩
  · refine ⟨hhi, ?_⟩
    rintro (⟨h, -⟩ | ⟨-, h, -⟩) <;> omega

/-- A reserved offset of the register space names no register. -/
theorem ReservedAccess.regAt_eq_none {off : Nat} {width : Width} (h : ReservedAccess off width)
    (hoff : off < 0x1000) : regAt off = none := by
  obtain ⟨-, h4, hres⟩ | ⟨hlo, -⟩ := h
  · rw [regAt, if_neg (by simp only [Config.u16Cap]; omega), if_neg (by simp only [Config.u32Cap]; omega)]
    refine Option.eq_none_iff_forall_ne_some.2 fun r hr => ?_
    have := namedRegAt_eq_some hr
    omega
  · omega

/-- A reserved offset lies outside SRC and DST. -/
theorem ReservedAccess.isMemory_eq_false {off : Nat} {width : Width} (h : ReservedAccess off width) :
    isMemory off = false := by
  have hout : off < 0x1000 ∨ 0x1200 ≤ off := by
    obtain ⟨-, -, hres⟩ | ⟨hlo, -⟩ := h <;> omega
  simp only [isMemory, Bool.and_eq_false_iff, decide_eq_false_iff_not]
  omega

theorem State.busWrite_reserved {off : Nat} {width : Width} (h : ReservedAccess off width) (s : State) (v : Word) :
    s.busWrite off width v = s := by
  by_cases hoff : off < 0x1000
  · simp [State.busWrite, hoff, h.regAt_eq_none hoff]
  · simp [State.busWrite, hoff, h.isMemory_eq_false]

theorem State.busValue_reserved {off : Nat} {width : Width} (h : ReservedAccess off width) (s : State) :
    s.busValue off width = 0 := by
  by_cases hoff : off < 0x1000
  · simp [State.busValue, hoff, h.regAt_eq_none hoff]
  · simp [State.busValue, hoff, h.isMemory_eq_false]

/-- Settles O56: a reserved offset is neither a register nor memory. -/
theorem reservedOffsetsReadZeroAndIgnoreWrites : Obligations.ReservedOffsetsReadZeroAndIgnoreWrites := by
  intro s off width v hi hres
  obtain ⟨hoff, ha⟩ := hres.admitted
  refine ⟨fun hm => ?_, fun hm => ?_⟩
  · rw [step_hostWrite hoff ha hm, State.busWrite_reserved hres]
    rfl
  · exact ⟨_, step_hostRead hoff ha hm, State.busValue_reserved hres s ▸ afterRead_busRead (.inl hi)⟩

end Sys2Proof.Machine
end

section
/-! SUPPORT. What the block's own commands write of SRC and DST, and what they read of SRC (20_memory.md R90, R95,
R96). -/

namespace Sys2Proof.Machine

/-! ## No command writes SRC -/

/-- Every byte of SRC reads as before. -/
def SrcSame (s t : State) : Prop := ∀ a, a < 256 → t.src a = s.src a

/-- The only writes of a command to memory lie in DST. -/
theorem srcSame_keptByCommands : KeptByCommands SrcSame where
  refl _ _ _ := rfl
  trans _ _ _ hst htu a ha := (htu a ha).trans (hst a ha)
  encK _ _ _ _ _ := rfl
  resume _ _ _ _ := rfl
  suspend _ _ _ _ _ := rfl
  restart _ _ _ := rfl
  payload s bs _ a ha := src_putPayload bs s a ha
  header _ _ s _ a ha := s.src_writeDst _ a _ ha
  consumed _ _ _ _ := rfl
  decPos _ _ _ _ := rfl
  fieldSet _ _ _ _ := rfl
  draw s a _ := by
    unfold State.partialFieldSet
    split <;> rfl
  complete _ _ _ := rfl
  raise _ _ _ _ := rfl

/-- Settles O12: each write a command is made of keeps the host's side and every byte of SRC. -/
theorem commandsLeaveSrcAndTheHostSide : Obligations.CommandsLeaveSrcAndTheHostSide := fun _ _ _ h =>
  ⟨hostSideSame_keptByCommands.of_exec h, srcSame_keptByCommands.of_exec h⟩

/-! ## The encode path moves the cursor forward, below the capacity -/

/-- Bytes are written only from the cursor of `s` up to the capacity, and the cursor moves past them: the relation
between two states of one run of the encode path that adds up over its writes (20_memory.md R96). -/
structure WritesFromCursor (s t : State) : Prop where
  maxLen : t.maxLen = s.maxLen
  cursor : s.outLen.toNat ≤ t.outLen.toNat
  frame : ∀ a, ¬(0x1100 + s.outLen.toNat ≤ a ∧ a < 0x1100 + s.maxLen.toNat) → t.readByte a = s.readByte a
  bound : t.outLen.toNat ≤ t.maxLen.toNat ∨ (t.outLen = s.outLen ∧ ∀ a, t.readByte a = s.readByte a)

namespace WritesFromCursor

/-- A write of anything else than memory, the cursor and the capacity. -/
theorem of_same {s t : State} (hmax : t.maxLen = s.maxLen) (hout : t.outLen = s.outLen)
    (hbytes : ∀ a, t.readByte a = s.readByte a) : WritesFromCursor s t :=
  ⟨hmax, by rw [hout], fun a _ => hbytes a, .inr ⟨hout, hbytes⟩⟩

theorem trans {s t u : State} (hst : WritesFromCursor s t) (htu : WritesFromCursor t u) : WritesFromCursor s u where
  maxLen := htu.maxLen.trans hst.maxLen
  cursor := hst.cursor.trans htu.cursor
  frame a ha := by
    have hcur := hst.cursor
    have hmax := hst.maxLen
    exact (htu.frame a (by rw [hmax]; omega)).trans (hst.frame a ha)
  bound := by
    rcases htu.bound with hle | ⟨hout, hbytes⟩
    · exact .inl hle
    · rw [hout, htu.maxLen]
      exact hst.bound.imp_right fun ⟨hout', hbytes'⟩ => ⟨hout', fun a => (hbytes a).trans (hbytes' a)⟩

theorem complete (s : State) : WritesFromCursor s s.complete := of_same rfl rfl fun _ => rfl

theorem raise (s : State) (e : Err) : WritesFromCursor s (s.raise e) := of_same rfl rfl fun _ => rfl

/-- A run of bytes at the cursor, which then moves past it, within the capacity. -/
theorem writeDst (s : State) (bs : List Byte) (h : s.outLen.toNat + bs.length ≤ s.maxLen.toNat) :
    WritesFromCursor s ((s.writeDst s.outLen.toNat bs).setOutLen (s.outLen.toNat + bs.length)) := by
  have := s.maxLen.isLt
  have hout : ((s.writeDst s.outLen.toNat bs).setOutLen (s.outLen.toNat + bs.length)).outLen.toNat =
      s.outLen.toNat + bs.length := toNat_outLen_putPayload bs s (by omega)
  refine ⟨rfl, by omega, fun a ha => ?_, .inl (by rw [hout]; exact h)⟩
  rw [State.setOutLen_readByte, State.readByte_writeDst, dif_neg]
  simp only [dstBase]
  omega

/-- A record at the cursor, where it fits (40_encode.md R154). -/
theorem record (t : Byte) (bs : List Byte) (s : State) (h : s.outLen.toNat + 2 + bs.length ≤ s.maxLen.toNat) :
    WritesFromCursor s (putPayload (wireRecord t bs) s) :=
  writeDst s _ (by rw [length_wireRecord]; omega)

/-- The end of a run, however it ends. -/
theorem finish {s : State} {e : Ending}
    (h : ∃ t, WritesFromCursor s t ∧ (e = .ok t ∨ (∃ err, e = .raised err t) ∨ e = .suspended t)) :
    WritesFromCursor s e.finish := by
  obtain ⟨t, ht, rfl | ⟨err, rfl⟩ | rfl⟩ := h
  · exact ht.trans (complete t)
  · exact ht.trans (raise t err)
  · exact ht

theorem endAtomic {s : State} {r : Except Err State} (h : ∀ t, r = .ok t → WritesFromCursor s t) :
    WritesFromCursor s (endAtomic s r).finish := by
  cases r with
  | ok t => exact (h t rfl).trans (complete t)
  | error e => exact raise s e

theorem gated {s : State} {body : State → Ending} (h : WritesFromCursor s (body s).finish) :
    WritesFromCursor s (gated s body).finish := by
  by_cases hs : s.cfg.encodeSupported = true
  · rwa [gated_of_supported hs]
  · rw [gated_of_unsupported (by simpa using hs)]
    exact raise s _

/-- The loop of ENCODE, whatever its end. -/
theorem loop (ks : List Kind) (s : State) : WritesFromCursor s (encFrom ks s).finish :=
  finish (encFrom_induction WritesFromCursor (fun _ _ _ => trans) (fun _ _ => of_same rfl rfl fun _ => rfl)
    (fun _ => of_same rfl rfl fun _ => rfl) (fun s bs _ h => writeDst s bs h) ks s)

theorem emitBytes {t : Byte} {bs : List Byte} {s u : State} (h : emitBytes t bs s = .ok u) :
    WritesFromCursor s u := by
  rw [emitBytes_eq] at h
  split_ifs at h with hfit
  exact Except.ok.inj h ▸ record _ _ _ hfit

theorem writeHdr {t : Byte} {n : Nat} {s u : State} (h : writeHdr t n s = .ok u) : WritesFromCursor s u := by
  unfold Machine.writeHdr at h
  split_ifs at h with hfit
  have hfit := (s.hdrFits_iff n).1 hfit
  exact Except.ok.inj h ▸ writeDst _ [BitVec.ofNat 8 (n + 1), t] (Nat.le_trans (Nat.le_add_right _ n) hfit)

theorem emitView {t : Byte} {off n : Nat} {s u : State} (h : emitView t off n s = .ok u) :
    WritesFromCursor s u := by
  rw [emitView_eq] at h
  split_ifs at h with hfit
  exact Except.ok.inj h ▸ record _ _ _ (by rwa [State.length_srcBytes])

theorem emitArr16 {t : Byte} {cnt : Nat} {s u : State} (h : emitArr16 t cnt s = .ok u) :
    WritesFromCursor s u := by
  rw [emitArr16_eq] at h
  split_ifs at h with hfit
  exact Except.ok.inj h ▸ record _ _ _ (by rwa [FieldSet.length_u16Bytes])

theorem emitArr32 {t : Byte} {cnt : Nat} {s u : State} (h : emitArr32 t cnt s = .ok u) :
    WritesFromCursor s u := by
  rw [emitArr32_eq] at h
  split_ifs at h with hfit
  exact Except.ok.inj h ▸ record _ _ _ (by rwa [FieldSet.length_u32Bytes])

/-- The resumption of a suspended ENCODE goes on from the cursor (60_exceptions.md R302). -/
theorem resumption (s : State) : WritesFromCursor s (resumeEncode s) := by
  unfold resumeEncode
  split
  · refine trans (of_same (t := s.setEngState .exec) rfl rfl fun _ => rfl) ?_
    simp only [encodeAfterAnswer]
    split
    · split
      · rename_i u hu
        exact (emitBytes hu).trans (loop _ u)
      · exact raise _ _
    · exact raise _ _
  · exact of_same rfl rfl fun _ => rfl

theorem writesBelowCapacity {s t : State} (h : WritesFromCursor s t) : WritesBelowCapacity s t s.outLen.toNat :=
  ⟨h.frame, h.bound⟩

end WritesFromCursor

/-- ENCODE starts from the cursor 0 (40_encode.md R170), or is stopped by the gate (R158). -/
theorem execEncode_writesBelowCapacity (s : State) :
    WritesBelowCapacity s (gated s fun s => encFrom allKinds (s.setOutLen 0)).finish 0 := by
  by_cases hs : s.cfg.encodeSupported = true
  · rw [gated_of_supported hs]
    have hrun := WritesFromCursor.loop allKinds (s.setOutLen 0)
    refine ⟨hrun.frame, .inl ?_⟩
    rcases hrun.bound with hle | ⟨hout, -⟩
    · exact hle
    · rw [hout]
      exact Nat.zero_le _
  · rw [gated_of_unsupported (by simpa using hs)]
    exact ⟨fun _ _ => rfl, .inr ⟨rfl, fun _ => rfl⟩⟩

/-- Settles O29: every write of the encode path is a run of bytes at the cursor within the capacity. -/
theorem encodePathStaysBelowCapacity : Obligations.EncodePathStaysBelowCapacity := by
  refine ⟨fun s t i o hi h => ?_, fun s hm hw => ?_⟩
  · rcases hi with ⟨⟨ty, n, rfl⟩ | ⟨ty, n, off, rfl⟩ | ⟨ty, cnt, rfl⟩ | ⟨ty, cnt, rfl⟩, rfl⟩ | ⟨rfl, rfl⟩ <;> cases h
    · exact (WritesFromCursor.gated (.endAtomic fun _ => .writeHdr)).writesBelowCapacity
    · exact (WritesFromCursor.gated (.endAtomic fun _ => .emitView)).writesBelowCapacity
    · exact (WritesFromCursor.gated (.endAtomic fun _ => .emitArr16)).writesBelowCapacity
    · exact (WritesFromCursor.gated (.endAtomic fun _ => .emitArr32)).writesBelowCapacity
    · exact execEncode_writesBelowCapacity s
  · exact ⟨_, (step_engine hm).trans (engineTurn_waitTxp (s := s.popMove) hw),
      (WritesFromCursor.resumption s.popMove).writesBelowCapacity⟩

end Sys2Proof.Machine
end

section
/-! SUPPORT. The decode commands in another memory that agrees with the first on their window of SRC (20_memory.md
R95). -/

namespace Sys2Proof.Machine

/-- The state with another memory. -/
def State.withMem (s : State) (m : Memory) : State := { s with mem := m }

/-- The memory `m` holds the same bytes as that of `s` in the window of `len` bytes of SRC from offset `lo` on. -/
def AgreesOn (s : State) (m : Memory) (lo len : Nat) : Prop :=
  ∀ i, i < len → (s.withMem m).src (lo + i) = s.src (lo + i)

/-- A later part of a window on which they agree. -/
theorem AgreesOn.drop {s : State} {m : Memory} {lo len : Nat} (h : AgreesOn s m lo len) (k : Nat) :
    AgreesOn s m (lo + k) (len - k) := fun i hi => by
  have := h (k + i) (by omega)
  rwa [← Nat.add_assoc] at this

theorem AgreesOn.srcBytes_eq {s : State} {m : Memory} {lo len : Nat} (h : AgreesOn s m lo len) :
    (s.withMem m).srcBytes lo len = s.srcBytes lo len :=
  List.map_congr_left fun i hi => h i (List.mem_range.1 hi)

/-! ## The two list decoders and the record decoder -/

theorem decodeUuid16_withMem {s : State} {m : Memory} {off n : Nat} (hn : n < 256) (h : AgreesOn s m off n)
    (c : Bool) : decodeUuid16 off n c (s.withMem m) = (decodeUuid16 off n c s).map (·.withMem m) := by
  rw [decodeUuid16_eq _ _ _ _ hn, decodeUuid16_eq _ _ _ _ hn, h.srcBytes_eq]
  split <;> rfl

theorem decodeUuid32_withMem {s : State} {m : Memory} {off n : Nat} (hn : n < 256) (h : AgreesOn s m off n)
    (c : Bool) : decodeUuid32 off n c (s.withMem m) = (decodeUuid32 off n c s).map (·.withMem m) := by
  rw [decodeUuid32_eq _ _ _ _ hn, decodeUuid32_eq _ _ _ _ hn, h.srcBytes_eq]
  split <;> rfl

/-- The record decoder looks at the length byte only if there is one, and past it only after the truncation check
(41_decode.md R210, R211). -/
theorem decodeOne_withMem {s : State} {m : Memory} {p r : Nat} (hpr : p + r ≤ 256) (h : AgreesOn s m p r) :
    decodeOne p r (s.withMem m) = (decodeOne p r s).map (·.withMem m) := by
  rw [decodeOne_eq, decodeOne_eq]
  by_cases h0 : r = 0
  · rw [if_pos (by omega), if_pos (by omega)]
    rfl
  have hlen : (s.withMem m).src p = s.src p := h 0 (by omega)
  rw [hlen]
  by_cases h1 : r < (s.src p).toNat + 1
  · rw [if_pos h1, if_pos h1]
    rfl
  by_cases h2 : (s.src p).toNat = 0
  · rw [if_neg h1, if_neg h1, if_pos h2, if_pos h2]
    rfl
  have hcfg : (s.withMem m).cfg = s.cfg := rfl
  have htype : (s.withMem m).src (p + 1) = s.src (p + 1) := h 1 (by omega)
  have hpayload : AgreesOn s m ((p + 2) % 256) ((s.src p).toNat - 1) := fun i hi => by
    rw [Nat.mod_eq_of_lt (by omega)]
    exact (h.drop 2) i (by omega)
  rw [if_neg h1, if_neg h1, if_neg h2, if_neg h2, hcfg, htype, hpayload.srcBytes_eq]
  split <;> rfl

/-- An accepted record lies within the bytes that remain. -/
theorem recordSize_le_of_decodeOne {p r : Nat} {s t : State} (h : decodeOne p r s = .ok t) : s.recordSize p ≤ r := by
  rw [decodeOne_eq] at h
  split_ifs at h with h1
  exact Nat.le_of_not_lt h1

theorem recordSize_withMem {s : State} {m : Memory} {p r : Nat} (h : AgreesOn s m p r) (hr : s.recordSize p ≤ r) :
    (s.withMem m).recordSize p = s.recordSize p := by
  have hlen : (s.withMem m).src p = s.src p := h 0 (Nat.lt_of_lt_of_le (Nat.succ_pos _) hr)
  rw [State.recordSize, State.recordSize, hlen]

/-! ## The commands -/

/-- An ending with its state in another memory. -/
def Ending.withMem (m : Memory) : Ending → Ending
  | .ok s => .ok (s.withMem m)
  | .raised e s => .raised e (s.withMem m)
  | .suspended s => .suspended (s.withMem m)

theorem Ending.finish_withMem (e : Ending) (m : Memory) : (e.withMem m).finish = e.finish.withMem m := by
  cases e <;> rfl

theorem endAtomic_withMem (s : State) (m : Memory) (r : Except Err State) :
    endAtomic (s.withMem m) (r.map (·.withMem m)) = (endAtomic s r).withMem m := by
  cases r <;> rfl

/-- PU16 and PU32 do no more than their list decoder and the range check of its operands (41_decode.md R202,
R203). -/
theorem inSrcRange_finish_withMem {s : State} {m : Memory} {body : State → Except Err State}
    (h : body (s.withMem m) = (body s).map (·.withMem m)) (off n : Nat) :
    (endAtomic (s.withMem m) (inSrcRange off n body (s.withMem m))).finish =
      (endAtomic s (inSrcRange off n body s)).finish.withMem m := by
  have hrange : inSrcRange off n body (s.withMem m) = (inSrcRange off n body s).map (·.withMem m) := by
    unfold inSrcRange
    split
    · exact h
    · rfl
  rw [hrange, endAtomic_withMem, Ending.finish_withMem]

theorem partialFieldSet_withMem (s : State) (m : Memory) :
    (s.withMem m).partialFieldSet = s.partialFieldSet.withMem m := by
  have hcfg : (s.withMem m).cfg = s.cfg := rfl
  unfold State.partialFieldSet
  rw [hcfg]
  cases s.cfg.partialFs <;> rfl

theorem afterDecode_withMem (e : Ending) (m : Memory) : afterDecode (e.withMem m) = (afterDecode e).withMem m := by
  cases e with
  | raised err s => exact congrArg (Ending.raised err) (partialFieldSet_withMem s m)
  | ok | suspended => rfl

/-- DEC1 reports the size of a record only where it was decoded, so it reads no byte outside its window for it. -/
theorem execDec1_withMem {s : State} {m : Memory} {p r : Nat} (h : AgreesOn s m p r) :
    decodeWindow p r ((s.withMem m).recordSize p) (decodeOne p r) (s.withMem m) =
      (decodeWindow p r (s.recordSize p) (decodeOne p r) s).withMem m := by
  unfold decodeWindow
  by_cases hpr : p + r ≤ Config.memSize
  · have hone : decodeOne p r ((s.withMem m).setConsumed 0) =
        (decodeOne p r (s.setConsumed 0)).map (·.withMem m) := decodeOne_withMem (s := s.setConsumed 0) hpr h
    simp only [if_pos hpr, hone]
    cases hd : decodeOne p r (s.setConsumed 0) with
    | error e => rfl
    | ok t =>
      rw [recordSize_withMem h (recordSize_le_of_decodeOne (s := s.setConsumed 0) hd)]
      rfl
  · simp only [if_neg hpr]
    rfl

/-- The walk stays within the bytes that remain (41_decode.md R240). -/
theorem decodeWalk_withMem {m : Memory} (fuel : Nat) {p r : Nat} {s : State} (hpr : p + r ≤ 256)
    (h : AgreesOn s m p r) : decodeWalk fuel p r (s.withMem m) = (decodeWalk fuel p r s).withMem m := by
  induction fuel generalizing p r s with
  | zero => rfl
  | succ fuel ih =>
    have hone : decodeOne p r ((s.withMem m).setDecPos p) = (decodeOne p r (s.setDecPos p)).map (·.withMem m) :=
      decodeOne_withMem (s := s.setDecPos p) hpr h
    unfold decodeWalk
    by_cases hr : r = 0
    · simp only [if_pos hr]
      rfl
    · simp only [if_neg hr, hone]
      cases hd : decodeOne p r (s.setDecPos p) with
      | error e => rfl
      | ok t =>
        have hle := recordSize_le_of_decodeOne hd
        have hsize : ((s.withMem m).setDecPos p).recordSize p = (s.setDecPos p).recordSize p :=
          recordSize_withMem (s := s.setDecPos p) h hle
        obtain ⟨fs, rfl⟩ := decodeOne_ok hd
        simp only [Except.map, hsize]
        exact ih (by omega) (h.drop _)

/-- DECODE's walk takes no byte beyond its length (41_decode.md R240, R242). -/
theorem execDecode_withMem {s : State} {m : Memory} (h : AgreesOn s m 0 s.inLen.toNat) :
    execDecode (s.withMem m) =
      .next ((afterDecode (decodeWalk s.inLen.toNat 0 s.inLen.toNat s.fsClear)).finish.withMem m) := by
  have hwalk := decodeWalk_withMem (s := s.fsClear) s.inLen.toNat (by have := s.inLen.isLt; omega) h
  show Host.Outcome.next (afterDecode (decodeWalk s.inLen.toNat 0 s.inLen.toNat (s.fsClear.withMem m))).finish = _
  rw [hwalk, afterDecode_withMem, Ending.finish_withMem]

/-- Settles O37: each decode command, run in the other memory, ends in its own state with that memory. -/
theorem decodeReadsOnlyItsWindow : Obligations.DecodeReadsOnlyItsWindow := by
  intro s m off n c
  refine ⟨fun h => ⟨_, rfl, execDecode_withMem fun i hi => ?_⟩, fun h => ⟨⟨_, rfl, ?_⟩, ⟨_, rfl, ?_⟩, ⟨_, rfl, ?_⟩⟩⟩
  · rw [Nat.zero_add]
    exact h i hi
  · exact congrArg Host.Outcome.next (execDec1_withMem h)
  · exact congrArg Host.Outcome.next (inSrcRange_finish_withMem (decodeUuid16_withMem n.isLt h c) _ _)
  · exact congrArg Host.Outcome.next (inSrcRange_finish_withMem (decodeUuid32_withMem n.isLt h c) _ _)

end Sys2Proof.Machine
end

section
/-! SUPPORT. The host's accesses: which are refused, what a read records, and the byte lanes of SRC and DST
(20_memory.md R84 to R99). -/

namespace Sys2Proof.Machine

/-! ## Refused accesses -/

theorem step_hostWrite_refused {s : State} {off : Nat} {width : Width} {v : Word} (ha : NotAdmitted off width)
    (hm : s.nextMove = .hostWrite (s.cfg.base + off) width v) :
    step s = .refused (.inadmissibleAccess off width) := by
  rw [step_environment hm nofun, environment_hostWrite]
  exact onBus_refused _ _ _ _ ha

theorem step_hostRead_refused {s : State} {off : Nat} {width : Width} (ha : NotAdmitted off width)
    (hm : s.nextMove = .hostRead (s.cfg.base + off) width) :
    step s = .refused (.inadmissibleAccess off width) := by
  rw [step_environment hm nofun, environment_hostRead]
  exact onBus_refused _ _ _ _ ha

/-- Settles O58: the bus answers a read and a write alike, by the access's offset and width only. -/
theorem inadmissibleAccessIsRefused : Obligations.InadmissibleAccessIsRefused := by
  rintro s off width v hoff (hm | hm)
  · exact ⟨fun ha => step_hostRead_refused ha hm, fun ha => ⟨_, step_hostRead (by omega) ha hm⟩⟩
  · exact ⟨fun ha => step_hostWrite_refused ha hm, fun ha => ⟨_, step_hostWrite (by omega) ha hm⟩⟩

/-! ## Reads -/

theorem exactWhileBusy_iff (off : Nat) : exactWhileBusy off = true ↔ ExactOffset off := by
  simp [exactWhileBusy, ExactOffset, or_assoc]

/-- The value a read shows is a draw while busy, but at an exact offset (20_memory.md R99). -/
theorem afterRead_busRead_draw {s : State} {off : Nat} (hb : s.engState ≠ .idle) (hx : ¬ExactOffset off)
    (width : Width) :
    AfterRead s (s.popMove.busRead (s.cfg.base + off) off width) off (drawOf s.draws width) 1 := by
  have hcond : (s.popMove.busy && !exactWhileBusy off) = true := by
    rw [State.busy_eq_true (s := s.popMove) hb, Bool.true_and, Bool.not_eq_true',
      Bool.eq_false_iff, ne_eq, exactWhileBusy_iff]
    exact hx
  rw [AfterRead, State.busRead, hcond]
  rfl

/-- Settles O50: an admitted read answers busRead, which records a draw or the map's value. -/
theorem hostReadsHaveNoSideEffect : Obligations.HostReadsHaveNoSideEffect := fun _ off width hoff ha hm =>
  ⟨_, step_hostRead hoff ha hm, fun ⟨hb, hx⟩ => afterRead_busRead_draw hb hx width,
    fun h => afterRead_busRead (h.imp_right (exactWhileBusy_iff off).2)⟩

/-! ## Read-only registers -/

/-- A read-only offset names a register that a write leaves as it is (10_state.md R34 to R37, R41, R42). -/
theorem regAt_readOnly {off : Nat} (h : off ∈ readOnlyOffsets) :
    off < 0x1000 ∧ off % 4 = 0 ∧ ∃ r, regAt off = some r ∧ ∀ (s : State) (v : Word), s.writeReg v r = s := by
  simp only [readOnlyOffsets, List.mem_cons, List.not_mem_nil, or_false] at h
  rcases h with rfl | rfl | rfl | rfl | rfl | rfl
  · exact ⟨by decide, rfl, .status, rfl, fun _ _ => rfl⟩
  · exact ⟨by decide, rfl, .result, rfl, fun _ _ => rfl⟩
  · exact ⟨by decide, rfl, .cap, rfl, fun _ _ => rfl⟩
  · exact ⟨by decide, rfl, .cap2, rfl, fun _ _ => rfl⟩
  · exact ⟨by decide, rfl, .consumed, rfl, fun _ _ => rfl⟩
  · exact ⟨by decide, rfl, .decPos, rfl, fun _ _ => rfl⟩

/-- Settles O55: the write reaches a register that ignores it. -/
theorem readOnlyRegistersIgnoreWrites : Obligations.ReadOnlyRegistersIgnoreWrites := by
  intro s off v hi hoff hm
  obtain ⟨hlt, h4, r, hr, hignored⟩ := regAt_readOnly hoff
  rw [step_hostWrite (by omega) (not_notAdmitted_register hlt h4) hm,
    State.busWrite_register (s := s.popMove) hi hlt hr, hignored]
  rfl

/-! ## The byte lanes of SRC and DST -/

/-- An 8-bit access, and an aligned 32-bit one, to SRC or DST is admitted (20_memory.md R87). -/
theorem not_notAdmitted_memory {off : Nat} {width : Width} (hlo : 0x1000 ≤ off)
    (hw : width = .w8 ∨ (width = .w32 ∧ off % 4 = 0)) : ¬NotAdmitted off width := by
  rintro (⟨h, -⟩ | ⟨-, -, h⟩)
  · omega
  · rcases hw with rfl | ⟨rfl, h4⟩
    · rcases h with h | ⟨h, -⟩ <;> cases h
    · rcases h with h | ⟨-, h⟩
      · cases h
      · exact h h4

/-- The bytes an access to SRC or DST writes: four of a word, else one. -/
def Width.lanes (width : Width) (v : Word) : List Byte :=
  match width with
  | .w32 => wordBytes v
  | .w8 | .w16 => [wordByte v 0]

theorem State.busWrite_memory {s : State} {off : Nat} (hi : s.engState = .idle) (hlo : 0x1000 ≤ off)
    (hhi : off < 0x1200) (width : Width) (v : Word) :
    s.busWrite off width v = { s with mem := s.mem.setBytes off (width.lanes v) } := by
  have hmem : isMemory off = true := by simp [isMemory, hlo, hhi]
  have hreg : ¬off < 0x1000 := by omega
  simp only [State.busWrite, State.busy_eq_false hi, Bool.false_eq_true, if_false, if_neg hreg, if_pos hmem]
  cases width <;> rfl

theorem State.busValue_memory {off : Nat} (hlo : 0x1000 ≤ off) (hhi : off < 0x1200) (s : State) :
    s.busValue off .w32 =
        le32 (s.readByte off) (s.readByte (off + 1)) (s.readByte (off + 2)) (s.readByte (off + 3)) ∧
      s.busValue off .w8 = (s.readByte off).setWidth 32 := by
  have hmem : isMemory off = true := by simp [isMemory, hlo, hhi]
  have hreg : ¬off < 0x1000 := by omega
  constructor <;> rw [State.busValue, if_neg hreg, if_pos hmem]

/-- A write to SRC or DST: each byte of the run takes its lane, every other byte is kept. -/
theorem readByte_setBytes_lanes (s : State) (off : Nat) (bs : List Byte) :
    (∀ j (h : j < bs.length), State.readByte { s with mem := s.mem.setBytes off bs } (off + j) = bs[j]) ∧
      BytesSameOutside s { s with mem := s.mem.setBytes off bs } off bs.length := by
  refine ⟨fun j h => ?_, fun a ha => ?_⟩
  · rw [State.readByte_setBytes, dif_pos ⟨by omega, by omega⟩]
    simp only [Nat.add_sub_cancel_left]
  · rw [State.readByte_setBytes, dif_neg ha]

/-- Byte `j` of a word's bytes is its lane `j`. -/
theorem getElem_wordBytes (v : Word) {j : Nat} (h : j < (wordBytes v).length) :
    (wordBytes v)[j] = v.extractLsb' (8 * j) 8 := by
  simp only [wordBytes_length] at h
  interval_cases j <;> rfl

/-- Lane `j` of a word assembled from bytes is byte `j`. -/
theorem extractLsb'_le32 (f : Nat → Byte) {j : Nat} (h : j < 4) :
    (le32 (f 0) (f 1) (f 2) (f 3)).extractLsb' (8 * j) 8 = f j := by
  obtain ⟨h0, h1, h2, h3⟩ := wordByte_le32 (f 0) (f 1) (f 2) (f 3)
  interval_cases j
  exacts [h0, h1, h2, h3]

/-- Settles O57: a write stores its lanes as one run of bytes, a read assembles its word from them. -/
theorem memoryAccessesUseLittleEndianLanes : Obligations.MemoryAccessesUseLittleEndianLanes := by
  intro s off v hi hlo hhi
  obtain ⟨hword, hbyte⟩ := State.busValue_memory hlo hhi s
  refine ⟨fun h4 hm => ?_, fun hm => ?_, fun h4 hm => ?_, fun hm => ?_⟩
  · obtain ⟨hin, hout⟩ := readByte_setBytes_lanes s.popMove off (wordBytes v)
    refine ⟨_, (step_hostWrite (by omega) (not_notAdmitted_memory hlo (.inr ⟨rfl, h4⟩)) hm).trans
      (congrArg _ (State.busWrite_memory (s := s.popMove) hi hlo hhi .w32 v)), fun j hj => ?_, hout, rfl⟩
    exact (hin j hj).trans (getElem_wordBytes v hj)
  · obtain ⟨hin, hout⟩ := readByte_setBytes_lanes s.popMove off [wordByte v 0]
    exact ⟨_, (step_hostWrite (by omega) (not_notAdmitted_memory hlo (.inl rfl)) hm).trans
      (congrArg _ (State.busWrite_memory (s := s.popMove) hi hlo hhi .w8 v)), hin 0 Nat.one_pos, hout, rfl⟩
  · refine ⟨s.busValue off .w32, (step_hostRead (by omega) (not_notAdmitted_memory hlo (.inr ⟨rfl, h4⟩)) hm).trans
      (congrArg _ (afterRead_busRead (.inl hi))), fun j hj => ?_⟩
    rw [hword]
    exact extractLsb'_le32 (fun j => s.readByte (off + j)) hj
  · exact (step_hostRead (by omega) (not_notAdmitted_memory hlo (.inl rfl)) hm).trans
      (congrArg _ (hbyte ▸ afterRead_busRead (.inl hi)))

end Sys2Proof.Machine
end

section
/-! SUPPORT. The decoder undoes the encoder: what each opcode decodes to, the round trip of every instruction, and the
words and operand bits that 30_encoding.md writes out. -/

namespace Sys2Proof.Machine

/-! ## What each opcode decodes to (30_encoding.md R111), whatever its ignored operand bits (R113) -/

theorem decodeCommand_nop {w : Word} (h : cmdOp w = 0x00) : decodeCommand w = .nop := by
  rw [decodeCommand, h]
  rfl

theorem decodeCommand_hdr {w : Word} (h : cmdOp w = 0x01) : decodeCommand w = .hdr (cmdA w) (cmdB w) := by
  rw [decodeCommand, h]
  rfl

theorem decodeCommand_flat {w : Word} (h : cmdOp w = 0x02) :
    decodeCommand w = .flat (cmdA w) (cmdB w) (cmdC w) := by
  rw [decodeCommand, h]
  rfl

theorem decodeCommand_arr16 {w : Word} (h : cmdOp w = 0x03) : decodeCommand w = .arr16 (cmdA w) (cmdB w) := by
  rw [decodeCommand, h]
  rfl

theorem decodeCommand_arr32 {w : Word} (h : cmdOp w = 0x04) : decodeCommand w = .arr32 (cmdA w) (cmdB w) := by
  rw [decodeCommand, h]
  rfl

theorem decodeCommand_encode {w : Word} (h : cmdOp w = 0x08) : decodeCommand w = .encode := by
  rw [decodeCommand, h]
  rfl

theorem decodeCommand_pu16 {w : Word} (h : cmdOp w = 0x10) :
    decodeCommand w = .pu16 (cmdA w) (cmdB w) ((cmdC w).getLsbD 0) := by
  rw [decodeCommand, h]
  rfl

theorem decodeCommand_pu32 {w : Word} (h : cmdOp w = 0x11) :
    decodeCommand w = .pu32 (cmdA w) (cmdB w) ((cmdC w).getLsbD 0) := by
  rw [decodeCommand, h]
  rfl

theorem decodeCommand_dec1 {w : Word} (h : cmdOp w = 0x12) : decodeCommand w = .dec1 (cmdA w) (cmdB w) := by
  rw [decodeCommand, h]
  rfl

theorem decodeCommand_decode {w : Word} (h : cmdOp w = 0x18) : decodeCommand w = .decode := by
  rw [decodeCommand, h]
  rfl

theorem decodeCommand_fsclr {w : Word} (h : cmdOp w = 0x20) : decodeCommand w = .fsclr := by
  rw [decodeCommand, h]
  rfl

/-- Bit 0 of operand `C` is bit 24 of the word: the completeness bit of PU16 and PU32 (30_encoding.md R112). -/
theorem getLsbD_cmdC_zero (w : Word) : (cmdC w).getLsbD 0 = w.getLsbD 24 := by
  simp only [cmdC, BitVec.getLsbD_extractLsb', Nat.zero_lt_succ, decide_true, Bool.true_and, Nat.add_zero]

/-- The completeness bit comes back from the operand byte that encodes it. -/
theorem getLsbD_completenessByte (c : Bool) : (if c then 1 else 0 : Byte).getLsbD 0 = c := by
  cases c <;> rfl

/-! ## The round trip -/

theorem decode_command (w : Word) : decode (.command w) = .ok (decodeCommand w) := rfl

theorem decode_record (len t : Byte) (payload : List Byte) :
    decode (.record (len :: t :: payload)) = .ok (decodeHeader len t) := rfl

/-- Settles O6: a command's opcode selects its arm and its operand bytes come back from their places; a record's type
byte selects its arm; a reserved opcode and an unrecognised type code are those outside the tables, by `wf`. -/
theorem decodeOfEncodeIsTheInstruction : Obligations.DecodeOfEncodeIsTheInstruction := by
  intro i hwf
  cases i with
  | nop => rw [encode, decode_command, decodeCommand_nop (cmdOp_cmdWord _ _ _ _)]
  | hdr t n =>
    rw [encode, decode_command, decodeCommand_hdr (cmdOp_cmdWord _ _ _ _), cmdA_cmdWord, cmdB_cmdWord]
  | flat t n off =>
    rw [encode, decode_command, decodeCommand_flat (cmdOp_cmdWord _ _ _ _), cmdA_cmdWord, cmdB_cmdWord, cmdC_cmdWord]
  | arr16 t cnt =>
    rw [encode, decode_command, decodeCommand_arr16 (cmdOp_cmdWord _ _ _ _), cmdA_cmdWord, cmdB_cmdWord]
  | arr32 t cnt =>
    rw [encode, decode_command, decodeCommand_arr32 (cmdOp_cmdWord _ _ _ _), cmdA_cmdWord, cmdB_cmdWord]
  | encode => rw [encode, decode_command, decodeCommand_encode (cmdOp_cmdWord _ _ _ _)]
  | pu16 off n c =>
    rw [encode, decode_command, decodeCommand_pu16 (cmdOp_cmdWord _ _ _ _), cmdA_cmdWord, cmdB_cmdWord, cmdC_cmdWord,
      getLsbD_completenessByte]
  | pu32 off n c =>
    rw [encode, decode_command, decodeCommand_pu32 (cmdOp_cmdWord _ _ _ _), cmdA_cmdWord, cmdB_cmdWord, cmdC_cmdWord,
      getLsbD_completenessByte]
  | dec1 p r =>
    rw [encode, decode_command, decodeCommand_dec1 (cmdOp_cmdWord _ _ _ _), cmdA_cmdWord, cmdB_cmdWord]
  | decode => rw [encode, decode_command, decodeCommand_decode (cmdOp_cmdWord _ _ _ _)]
  | fsclr => rw [encode, decode_command, decodeCommand_fsclr (cmdOp_cmdWord _ _ _ _)]
  | reserved op =>
    have hop : definedOpcodes.contains op = false := Bool.not_eq_true' _ ▸ hwf
    rw [encode, decode_command, decodeCommand_reserved _ (by rwa [cmdOp_cmdWord]), cmdOp_cmdWord]
  | adUnrecognised len t =>
    have ht : definedTypeCodes.contains t = false := by
      simpa using (Bool.and_eq_true_iff.1 hwf).2
    rw [encode, decode_record, decodeHeader_unrecognised len t ht]
  | _ => rfl

/-- Settles O7: the words of the specification are evaluated; in general the opcode alone selects the command, which
takes from the word no operand bits but its own. -/
theorem writtenOutWordsDecode : Obligations.WrittenOutWordsDecode := by
  refine ⟨⟨rfl, rfl, rfl, rfl, rfl, rfl, rfl, rfl, rfl⟩, fun w => ?_⟩
  simp only [decode_command, ← getLsbD_cmdC_zero, Except.ok.injEq]
  exact ⟨decodeCommand_hdr, decodeCommand_flat, decodeCommand_arr16, decodeCommand_arr32, decodeCommand_encode,
    decodeCommand_pu16, decodeCommand_pu32, decodeCommand_dec1, decodeCommand_decode⟩

end Sys2Proof.Machine
end

section
/-! SUPPORT. The host's POLL and `X cmd` (30_encoding.md R117): runs of the machine, one move after another. -/

namespace Sys2Proof.Machine

/-! ## Runs -/

/-- A run begins with its first step. -/
theorem run_of_step {s t : State} (h : step s = .next t) (k : Nat) : core.run (k + 1) s = core.run k t := by
  have hc : core.step s = .next t := h
  simp only [Host.Core.run, hc]

/-! ## The engine after a command -/

/-- The loop of ENCODE ends its step idle or waiting. -/
theorem encFrom_finish_engState_ne_exec (ks : List Kind) (s : State) : (encFrom ks s).finish.engState ≠ .exec := by
  induction ks generalizing s with
  | nil => exact nofun
  | cons k ks ih =>
    rw [encFrom]
    split
    · split
      · exact nofun
      · split
        · exact ih _
        · exact nofun
    · exact ih _

/-- A command that has not ended waits for the collaborator's answer (40_encode.md R177). -/
theorem waitTxp_of_exec {i : Instr} {s t : State} (h : exec i s = .next t) (hb : t.engState ≠ .idle) :
    t.engState = .waitTxp := by
  have hne : t.engState ≠ .exec := by
    by_cases hi : i = .encode
    · subst hi
      cases h
      unfold gated
      split
      · exact encFrom_finish_engState_ne_exec _ _
      · exact nofun
    · rw [exec_engState hi h]
      exact nofun
  cases he : t.engState with
  | idle => exact absurd he hb
  | exec => exact absurd he hne
  | waitTxp => rfl

/-- STATUS while a command is latched: `BUSY` 1, `WAIT_TXP` 0 (10_state.md R34). -/
theorem status_of_exec {s : State} (h : s.engState = .exec) :
    s.status = 1 + 4 * BitVec.ofNat 32 s.errSrc.toNat := by
  simp only [State.status, State.waitTxp, State.busy, h]
  cases s.errSrc <;> rfl

/-! ## The rounds of a POLL -/

/-- A POLL at the head of the agenda is the step's move. -/
theorem step_poll {s : State} (hm : s.nextMove = .hostPoll) : step s = .next s.popMove.pollStatus := by
  rw [step_environment hm nofun]
  rfl

theorem nextMove_of_agenda {s : State} {e : Event} {es : List Event} (h : s.agenda = e :: es) : s.nextMove = e := by
  rw [State.nextMove, h]

/-- Between two rounds of a POLL the engine has its turn where the host's own access is next (log entry 3). -/
theorem pollAgain_of_byHost {es : List Event} (h : ∀ e ∈ es.head?, e.byHost = true) :
    pollAgain es = .engine :: .hostPoll :: es := by
  cases es with
  | nil => rfl
  | cons e es => rw [pollAgain, if_pos (h e rfl)]

/-- The state after the host has read STATUS, with `es` to come. -/
def State.afterStatusRead (s : State) (es : List Event) : State :=
  { s with agenda := es, busReads := ⟨s.cfg.base + 0x004, s.status⟩ :: s.busReads }

/-- The last round of a POLL. -/
theorem run_poll_idle {s : State} {es : List Event} (ha : s.agenda = .hostPoll :: es) (hi : s.engState = .idle)
    (k : Nat) : core.run (k + 1) s = core.run k (s.afterStatusRead es) := by
  refine run_of_step ?_ k
  rw [step_poll (nextMove_of_agenda ha)]
  obtain ⟨-, h⟩ | ⟨hb, -⟩ := s.popMove.pollStatus_cases
  · rw [h, State.popMove, ha]
    rfl
  · exact absurd hi hb

/-- A round of POLL while busy, and the engine's turn after it. -/
theorem run_poll_busy {s t : State} {es : List Event} (ha : s.agenda = .hostPoll :: es)
    (hes : ∀ e ∈ es.head?, e.byHost = true) (hb : s.engState ≠ .idle)
    (ht : engineTurn (s.afterStatusRead (.hostPoll :: es)) = .next t) (k : Nat) :
    core.run (k + 2) s = core.run k t := by
  have hpoll : step s = .next (s.afterStatusRead (.engine :: .hostPoll :: es)) := by
    rw [step_poll (nextMove_of_agenda ha)]
    obtain ⟨hi, -⟩ | ⟨-, h⟩ := s.popMove.pollStatus_cases
    · exact absurd hi hb
    · rw [h, State.popMove, ha, List.tail_cons, pollAgain_of_byHost hes]
      rfl
  have hturn : step (s.afterStatusRead (.engine :: .hostPoll :: es)) = .next t := (step_engine rfl).trans ht
  rw [run_of_step hpoll, run_of_step hturn]

/-- A POLL of a block that waits for an answer on offer: a busy round, the resumption, the last round. -/
theorem run_poll_waiting {s : State} {es : List Event} (ha : s.agenda = .hostPoll :: es)
    (hes : ∀ e ∈ es.head?, e.byHost = true) (hw : s.engState = .waitTxp) (hv : s.txp.valid = true) :
    ∃ u : State, core.run 3 s = .next u ∧ u.engState = .idle ∧ u.agenda = es ∧ u.cfg = s.cfg := by
  have hwait : (s.afterStatusRead (.hostPoll :: es)).engState = .waitTxp := hw
  have hbusy : s.engState ≠ .idle := by
    rw [hw]
    exact nofun
  have hended := resumeEncode_engState (s := s.afterStatusRead (.hostPoll :: es)) hv
  obtain ⟨hcfg, -, -, -, -, hagenda, -, -⟩ := hostSideSame_keptByCommands.resumption _ hwait
  refine ⟨(resumeEncode (s.afterStatusRead (.hostPoll :: es))).afterStatusRead es, ?_, hended, rfl, hcfg⟩
  rw [run_poll_busy ha hes hbusy (engineTurn_waitTxp hwait), run_poll_idle hagenda hended]
  rfl

/-! ## POLL and X -/

/-- One round of POLL: it reads STATUS, and stays behind one move of another agent while the block is busy. -/
theorem step_poll_round {s : State} (hm : s.nextMove = .hostPoll) :
    ∃ t, step s = .next t ∧
      (s.engState = .idle → AfterRead s t 0x004 s.status 0) ∧
      (s.engState ≠ .idle → ∃ e es, t = s.afterStatusRead (e :: .hostPoll :: es) ∧
        e.byHost = false ∧ (s.agenda.tail = e :: es ∨ (e = .engine ∧ es = s.agenda.tail))) := by
  refine ⟨_, step_poll hm, ?_⟩
  obtain ⟨hi, h⟩ | ⟨hb, h⟩ := s.popMove.pollStatus_cases <;> rw [h]
  · exact ⟨fun _ => rfl, absurd hi⟩
  · obtain ⟨e, es, hagain, hhost, hnext⟩ := pollAgain_cases s.agenda.tail
    refine ⟨fun hi => absurd hi hb, fun _ => ⟨e, es, ?_, hhost, hnext⟩⟩
    rw [State.popMove_agenda, hagain]
    rfl

/-- The block with `w` latched and the POLL of `X` next. -/
def State.latched (s : State) (w : Word) (rest : List Event) : State :=
  { s with latch := w, engState := .exec, agenda := .hostPoll :: rest }

/-- `X cmd` on an idle block: the CMD write, a round of the POLL that reads `BUSY` 1, the command. -/
theorem run_xcmd {s t : State} {w : Word} {rest : List Event} (hi : s.engState = .idle)
    (ha : s.agenda = xcmd s.cfg.base w ++ rest) (hrest : ∀ e ∈ rest.head?, e.byHost = true)
    (ht : exec (decodeCommand w) ((s.latched w rest).afterStatusRead (.hostPoll :: rest)) = .next t) (k : Nat) :
    core.run (k + 3) s = core.run k t := by
  have hwrite : step s = .next (s.latched w rest) := by
    rw [cmdWriteStartsTheEngine s w hi (nextMove_of_agenda ha), ha]
    rfl
  rw [run_of_step hwrite]
  have hbusy : (s.latched w rest).engState ≠ .idle := EngState.noConfusion
  exact run_poll_busy rfl hrest hbusy
    ((engineTurn_exec (s := (s.latched w rest).afterStatusRead (.hostPoll :: rest)) rfl).trans ht) k

/-- Settles O60: the first part is one round of POLL. For `X`, the CMD write, a busy round and the command lead to `t`;
an ended command is met by the last round, a suspended ENCODE by a busy round, its resumption and the last round. -/
theorem pollRepeatsUntilTheBlockIsIdle : Obligations.PollRepeatsUntilTheBlockIsIdle := by
  refine ⟨fun s hm => step_poll_round hm, fun s t w rest hi ha hrest ht => ?_⟩
  have hread : (s.latched w rest).afterStatusRead (.hostPoll :: rest) = { s with
      latch := w, engState := .exec, agenda := .hostPoll :: rest
      busReads := ⟨s.cfg.base + 0x004, 1 + 4 * BitVec.ofNat 32 s.errSrc.toNat⟩ :: s.busReads } := by
    rw [State.afterStatusRead, status_of_exec (s := s.latched w rest) rfl]
    rfl
  rw [← hread] at ht
  have hrun := run_xcmd hi ha hrest ht
  obtain ⟨hcfg, -, -, -, htxp, hagenda, -, -⟩ := hostSideSame_keptByCommands.of_exec ht
  refine ⟨fun hidle => ?_, fun hbusy hvalid => ?_⟩
  · have hbase : t.cfg.base = s.cfg.base := congrArg Config.base hcfg
    rw [hrun 1, run_poll_idle hagenda hidle, State.afterStatusRead, hbase]
    rfl
  · have hoffered : t.txp.valid = true := (congrArg TxpPort.valid htxp).trans hvalid
    obtain ⟨u, hu, hidle, hleft, hkept⟩ := run_poll_waiting hagenda hrest (waitTxp_of_exec ht hbusy) hoffered
    exact ⟨u, (hrun 3).trans hu, hidle, hleft, hkept.trans hcfg⟩

end Sys2Proof.Machine
end

section
/-! SUPPORT. What the encode path leaves when it writes (40_encode.md): a run of bytes at the cursor and nothing else,
where its loop stops, and the commands of the family built from both. -/

namespace Sys2Proof.Machine

/-! ## Runs of bytes in DST -/

theorem dstHolds_append {t : State} {o : Nat} {bs cs : List Byte} :
    DstHolds t o (bs ++ cs) ↔ DstHolds t o bs ∧ DstHolds t (o + bs.length) cs := by
  constructor
  · refine fun h => ⟨fun i hi => ?_, fun i hi => ?_⟩
    · rw [h i (by rw [List.length_append]; omega), List.getElem_append_left hi]
    · rw [Nat.add_assoc, h (bs.length + i) (by rw [List.length_append]; omega)]
      simp
  · rintro ⟨hbs, hcs⟩ i hi
    by_cases hlt : i < bs.length
    · rw [hbs i hlt, List.getElem_append_left hlt]
    · rw [List.length_append] at hi
      have hcs := hcs (i - bs.length) (by omega)
      rw [show o + bs.length + (i - bs.length) = o + i by omega] at hcs
      rw [hcs, List.getElem_append_right (by omega)]

/-- A record on the wire is its header and, behind it, its payload (30_encoding.md R120). -/
theorem dstHolds_wireRecord {u : State} {o : Nat} {t : Byte} {bs : List Byte} :
    DstHolds u o (wireRecord t bs) ↔ DstHolds u o [BitVec.ofNat 8 (bs.length + 1), t] ∧ DstHolds u (o + 2) bs :=
  dstHolds_append (bs := [BitVec.ofNat 8 (bs.length + 1), t])

/-- A list of entries of one size holds each entry at its own place. -/
theorem DstHolds.entry {t : State} {o w : Nat} {f : Nat → List Byte} (hw : ∀ i, (f i).length = w) {cnt i : Nat}
    (h : DstHolds t o ((List.range cnt).flatMap f)) (hi : i < cnt) : DstHolds t (o + w * i) (f i) := by
  induction cnt with
  | zero => omega
  | succ n ih =>
    have hlen : ((List.range n).flatMap f).length = w * n := by simp [hw, Nat.mul_comm]
    rw [List.range_succ, List.flatMap_append, List.flatMap_singleton, dstHolds_append, hlen] at h
    obtain ⟨hfirst, hlast⟩ := h
    obtain hlt | rfl := Nat.lt_succ_iff_lt_or_eq.1 hi
    · exact ih hfirst hlt
    · exact hlast

/-! ## What a write at the cursor leaves -/

/-- From `s` to `t` the encode path wrote the bytes `bs` at cursor `o`, moved the cursor past them, and changed nothing
else of memory, of the host's side or of the decode side. How `t` ended and `ENC_K` are left open. -/
structure Emitted (s t : State) (o : Nat) (bs : List Byte) : Prop where
  cursor : t.outLen.toNat = o + bs.length
  bytes : DstHolds t o bs
  frame : BytesSameOutside s t (0x1100 + o) bs.length
  host : HostSideSame s t
  decodeSide : DecodeSideSame s t

/-- A run of bytes written at the cursor, within the capacity. -/
theorem emitted_putPayload (s : State) (bs : List Byte) (h : s.outLen.toNat + bs.length ≤ s.maxLen.toNat) :
    Emitted s (putPayload bs s) s.outLen.toNat bs where
  cursor := toNat_outLen_putPayload bs s (by have := s.maxLen.isLt; omega)
  bytes i hi := by
    rw [State.dst, readByte_putPayload, dif_pos (by omega)]
    simp [← Nat.add_assoc]
  frame a ha := (readByte_putPayload bs s a).trans (dif_neg ha)
  host := hostSideSame_keptByCommands.payload s bs h
  decodeSide := ⟨rfl, rfl, rfl, rfl⟩

namespace Emitted

variable {s t : State} {o : Nat} {bs : List Byte}

theorem setEncK (h : Emitted s t o bs) (k : Nat) : Emitted s (t.setEncK k) o bs := { h with }

theorem setEngState (h : Emitted s t o bs) (e : EngState) : Emitted s (t.setEngState e) o bs := { h with }

theorem complete (h : Emitted s t o bs) : Emitted s t.complete o bs := { h with }

theorem raise (h : Emitted s t o bs) (e : Err) : Emitted s (t.raise e) o bs := { h with }

/-- The cursor and the frame of two runs one behind the other. -/
theorem cursor_frame_append {cs : List Byte} (h : Emitted s t o (bs ++ cs)) :
    t.outLen.toNat = o + bs.length + cs.length ∧
      BytesSameOutside s t (0x1100 + o) (bs.length + cs.length) := by
  have hcursor := h.cursor
  have hframe := h.frame
  rw [List.length_append] at hcursor hframe
  exact ⟨hcursor.trans (Nat.add_assoc ..).symm, hframe⟩

end Emitted

theorem ended_complete (s : State) : Ended s.complete 0 false := ⟨rfl, rfl, rfl⟩

theorem ended_raise (s : State) (e : Err) : Ended (s.raise e) e.value e.fromCollab := ⟨rfl, rfl, rfl⟩

/-! ## The raw encoder commands -/

/-- On a block that has the encode path a command ends as its body does (40_encode.md R158). -/
theorem next_of_supported {s : State} (hsup : s.cfg.encodeSupported = true) (body : State → Ending) :
    (.next (gated s body).finish : Host.Outcome State Fault Refusal) = .next (body s).finish := by
  rw [gated_of_supported hsup]

theorem exec_hdr {s : State} (hsup : s.cfg.encodeSupported = true) (t n : Byte) :
    exec (.hdr t n) s = .next (endAtomic s (writeHdr t n.toNat s)).finish :=
  next_of_supported hsup _

theorem exec_flat {s : State} (hsup : s.cfg.encodeSupported = true) (t n off : Byte) :
    exec (.flat t n off) s = .next (endAtomic s (emitView t off.toNat n.toNat s)).finish :=
  next_of_supported hsup _

theorem exec_arr16 {s : State} (hsup : s.cfg.encodeSupported = true) (t cnt : Byte) :
    exec (.arr16 t cnt) s = .next (endAtomic s (emitArr16 t cnt.toNat s)).finish :=
  next_of_supported hsup _

theorem exec_arr32 {s : State} (hsup : s.cfg.encodeSupported = true) (t cnt : Byte) :
    exec (.arr32 t cnt) s = .next (endAtomic s (emitArr32 t cnt.toNat s)).finish :=
  next_of_supported hsup _

theorem exec_encode {s : State} (hsup : s.cfg.encodeSupported = true) :
    exec .encode s = .next (encFrom allKinds (s.setOutLen 0)).finish :=
  next_of_supported hsup _

/-- `write_hdr`: all it can do (40_encode.md R152). -/
theorem writeHdr_eq (t : Byte) (n : Nat) (s : State) :
    writeHdr t n s =
      if s.outLen.toNat + 2 + n ≤ s.maxLen.toNat then .ok (putPayload [BitVec.ofNat 8 (n + 1), t] s)
      else .error .msgSize := by
  unfold writeHdr
  simp only [s.hdrFits_iff]
  rfl

/-- Settles O16: the gate comes before anything else. -/
theorem disabledEncodePathReportsNotSupported : Obligations.DisabledEncodePathReportsNotSupported := by
  intro s i hoff hi
  have stopped (body : State → Ending) : (gated s body).finish = s.raise .notSup :=
    congrArg Ending.finish (gated_of_unsupported hoff body)
  obtain ⟨t, n, rfl⟩ | ⟨t, n, off, rfl⟩ | ⟨t, cnt, rfl⟩ | ⟨t, cnt, rfl⟩ | rfl := hi <;>
    exact congrArg _ (stopped _)

/-- The length byte of a header, as the commands name it by their operand. -/
theorem ofNat_toNat_succ (n : Byte) : BitVec.ofNat 8 (n.toNat + 1) = n + 1 := by
  simp [BitVec.ofNat_add]

/-- Settles O17: a header that fits is a run of two bytes at the cursor. -/
theorem hdrWritesTheHeader : Obligations.HdrWritesTheHeader := by
  intro s t n hsup hfit
  have hrun := (emitted_putPayload s [BitVec.ofNat 8 (n.toNat + 1), t]
    (Nat.le_trans (Nat.le_add_right _ n.toNat) hfit)).complete
  rw [ofNat_toNat_succ] at hrun
  refine ⟨_, ?_, ended_complete _, hrun.bytes, hrun.cursor, hrun.frame, hrun.host, hrun.decodeSide, rfl⟩
  rw [exec_hdr hsup, writeHdr_eq, if_pos hfit, ofNat_toNat_succ]
  rfl

/-- A command that writes one whole record and completes: its header, its payload, and nothing else. -/
theorem record_completes (t : Byte) (bs : List Byte) (s : State)
    (hfit : s.outLen.toNat + 2 + bs.length ≤ s.maxLen.toNat) :
    let u := (putPayload (wireRecord t bs) s).complete
    Emitted s u s.outLen.toNat (wireRecord t bs) ∧
      DstHolds u s.outLen.toNat [BitVec.ofNat 8 (bs.length + 1), t] ∧ DstHolds u (s.outLen.toNat + 2) bs ∧
      u.outLen.toNat = s.outLen.toNat + 2 + bs.length ∧
      BytesSameOutside s u (0x1100 + s.outLen.toNat) (2 + bs.length) := by
  have hrun := (emitted_putPayload s (wireRecord t bs) (by rw [length_wireRecord]; omega)).complete
  obtain ⟨hheader, hpayload⟩ := dstHolds_wireRecord.1 hrun.bytes
  exact ⟨hrun, hheader, hpayload, hrun.cursor_frame_append (bs := [BitVec.ofNat 8 (bs.length + 1), t])⟩

/-- Settles O18: the record's payload is the view's bytes of SRC. -/
theorem flatCopiesSrcBytes : Obligations.FlatCopiesSrcBytes := by
  intro s t n off hsup hfit hrange
  obtain ⟨hrun, hheader, hpayload, hcursor, hframe⟩ :=
    record_completes t (s.srcBytes off.toNat n.toNat) s (by rwa [State.length_srcBytes])
  rw [State.length_srcBytes] at hheader hcursor hframe
  rw [ofNat_toNat_succ] at hheader
  refine ⟨_, ?_, ended_complete _, hheader, fun i hi => ?_, hcursor, hframe, hrun.host, hrun.decodeSide, rfl⟩
  · rw [exec_flat hsup, emitView_eq, if_pos hfit, if_pos hrange]
    rfl
  · rw [hpayload i (by rwa [State.length_srcBytes]), State.getElem_srcBytes]

/-- Settles O19: the record's payload is a list of two-byte entries. -/
theorem arr16WritesEntriesLittleEndian : Obligations.Arr16WritesEntriesLittleEndian := by
  intro s t cnt hsup hfit
  obtain ⟨hrun, hheader, hpayload, hcursor, hframe⟩ :=
    record_completes t (s.fs.u16Bytes cnt.toNat) s (by rwa [FieldSet.length_u16Bytes])
  rw [FieldSet.length_u16Bytes] at hheader hcursor hframe
  refine ⟨_, ?_, ended_complete _, hheader, fun i hi => ?_, hcursor, hframe, hrun.host, hrun.decodeSide, rfl⟩
  · rw [exec_arr16 hsup, emitArr16_eq, if_pos hfit]
    rfl
  · have hentry := hpayload.entry (fun i => halfBytes_length (s.fs.u16At i)) hi
    refine ⟨hentry 0 Nat.zero_lt_two, ?_⟩
    rw [show s.outLen.toNat + 3 + 2 * i = s.outLen.toNat + 2 + 2 * i + 1 by omega]
    exact hentry 1 Nat.one_lt_two

/-- Settles O20: the record's payload is a list of four-byte entries. -/
theorem arr32WritesEntriesLittleEndian : Obligations.Arr32WritesEntriesLittleEndian := by
  intro s t cnt hsup hfit
  obtain ⟨hrun, hheader, hpayload, hcursor, hframe⟩ :=
    record_completes t (s.fs.u32Bytes cnt.toNat) s (by rwa [FieldSet.length_u32Bytes])
  rw [FieldSet.length_u32Bytes] at hheader hcursor hframe
  refine ⟨_, ?_, ended_complete _, hheader, fun i j hi hj => ?_, hcursor, hframe, hrun.host, hrun.decodeSide, rfl⟩
  · rw [exec_arr32 hsup, emitArr32_eq, if_pos hfit]
    rfl
  · have hentry := hpayload.entry (fun i => wordBytes_length (s.fs.u32At i)) hi
    exact (hentry j hj).trans (getElem_wordBytes _ hj)

/-- Settles O21: capacity is looked at first, the view's range second, and a body that raises has written nothing. -/
theorem rawEncoderErrorsWriteNothing : Obligations.RawEncoderErrorsWriteNothing := by
  intro s t n off hsup
  refine ⟨fun hfull => ⟨?_, ?_⟩, fun hfull => ?_, fun hfull => ?_, fun hfit hrange => ?_⟩
  · rw [exec_hdr hsup, writeHdr_eq, if_neg (Nat.not_le.2 hfull)]
    rfl
  · rw [exec_flat hsup, emitView_eq, if_neg (Nat.not_le.2 hfull)]
    rfl
  · rw [exec_arr16 hsup, emitArr16_eq, if_neg (Nat.not_le.2 hfull)]
    rfl
  · rw [exec_arr32 hsup, emitArr32_eq, if_neg (Nat.not_le.2 hfull)]
    rfl
  · rw [exec_flat hsup, emitView_eq, if_pos hfit, if_neg (Nat.not_le.2 hrange)]
    rfl

/-! ## Where the loop of ENCODE stops -/

/-- Only the tx power, and only with the sentinel, begins with the query (40_encode.md R176). -/
theorem State.queries_eq_false {s : State} {k : Kind} (h : k = .txp → s.fs.txp ≠ s.cfg.txPwrAuto) :
    s.queries k = false := by
  rw [Bool.eq_false_iff]
  intro hq
  obtain ⟨hk, hauto⟩ : k = .txp ∧ s.fs.txp = s.cfg.txPwrAuto := by simpa [State.queries] using hq
  exact h hk hauto

/-- The size of a kind's payload depends on the field set and the parameters only, also where its view leaves SRC. -/
theorem length_payloadOf_congr {s t : State} (hfs : t.fs = s.fs) (hcfg : t.cfg = s.cfg) (k : Kind) :
    (payloadOf t k).length = (payloadOf s k).length := by
  cases k <;> simp only [payloadOf, hfs, hcfg, State.length_srcBytes, List.length_cons]

/-- How a kind's field fails with the cursor at `o`: it does not fit, or it fits and its view leaves SRC
(40_encode.md R192, R193). -/
def FieldFails (s : State) (o : Nat) (k : Kind) (code : Word) : Prop :=
  (s.maxLen.toNat < o + 2 + (payloadOf s k).length ∧ code = 0x04) ∨
    (o + 2 + (payloadOf s k).length ≤ s.maxLen.toNat ∧ viewInRange s k = false ∧ code = 0x80)

theorem encField_eq_error {s : State} {k : Kind} {code : Word} (h : FieldFails s s.outLen.toNat k code) :
    ∃ e, encField k s = .error e ∧ e.value = code ∧ e.fromCollab = false := by
  rw [encField_eq]
  obtain ⟨hfull, rfl⟩ | ⟨hfit, hrange, rfl⟩ := h
  · exact ⟨.msgSize, if_neg (Nat.not_le.2 hfull), rfl, rfl⟩
  · exact ⟨.range, by rw [if_pos hfit, hrange]; rfl, rfl, rfl⟩

/-- The loop over kinds that all fit and one that fails: the records before it are written, and it ends there
(40_encode.md R190). -/
theorem encFrom_aborts {before : List Kind} (after : List Kind) {k : Kind} {s : State} {code : Word}
    (hq : ∀ k' ∈ before, s.fs.has k' = true → s.queries k' = false)
    (hv : ∀ k' ∈ before, s.fs.has k' = true → viewInRange s k' = true)
    (hfit : s.outLen.toNat + (recordsOf s before).length ≤ s.maxLen.toNat)
    (hk : s.fs.has k = true) (hqk : s.queries k = false)
    (hfails : FieldFails s (s.outLen.toNat + (recordsOf s before).length) k code) :
    ∃ e, encFrom (before ++ k :: after) s = .raised e ((putPayload (recordsOf s before) s).setEncK k.num) ∧
      e.value = code ∧ e.fromCollab = false := by
  have hcursor := (emitted_putPayload s _ hfit).cursor
  have hsize := length_payloadOf_congr (s := s) (t := putPayload (recordsOf s before) s) rfl rfl k
  obtain ⟨e, he, hcode, hown⟩ :=
    encField_eq_error (s := putPayload (recordsOf s before) s) (k := k) (code := code)
      (by rwa [FieldFails, hcursor, hsize])
  exact ⟨e, (encFrom_append before _ s hq hv hfit).trans (encFrom_failed after hk hqk he), hcode, hown⟩

/-! ## ENCODE -/

section FromCursorZero

variable {s : State} {ks : List Kind} (hfit : (recordsOf s ks).length ≤ s.maxLen.toNat)

include hfit

/-- The records of `s` fit from cursor 0: the cursor is no part of what is encoded. -/
theorem recordsOf_fit_setOutLen_zero : (s.setOutLen 0).outLen.toNat + (recordsOf (s.setOutLen 0) ks).length ≤
    (s.setOutLen 0).maxLen.toNat := (Nat.zero_add _).trans_le hfit

/-- ENCODE starts at cursor 0, whatever the cursor was (40_encode.md R170). -/
theorem emitted_recordsOf_setOutLen_zero :
    Emitted s (putPayload (recordsOf s ks) (s.setOutLen 0)) 0 (recordsOf s ks) :=
  { emitted_putPayload (s.setOutLen 0) _ (recordsOf_fit_setOutLen_zero hfit) with }

end FromCursorZero

/-- Settles O22: no kind queries, so the loop runs to its end from cursor 0. -/
theorem encodeWritesThePresentFields : Obligations.EncodeWritesThePresentFields := by
  intro s hsup hauto hv hfit
  have hloop := encFrom_all allKinds (s.setOutLen 0)
    (fun k _ hk => State.queries_eq_false (by rintro rfl htxp; exact hauto ⟨hk, htxp⟩)) (fun k _ => hv k)
    (recordsOf_fit_setOutLen_zero hfit)
  have hrun := ((emitted_recordsOf_setOutLen_zero hfit).setEncK 18).complete
  have hstep := exec_encode hsup
  rw [hloop] at hstep
  exact ⟨_, hstep, ended_complete _, hrun.cursor.trans (Nat.zero_add _), hrun.bytes, hrun.frame, rfl, hrun.host,
    hrun.decodeSide⟩

/-- Settles O23: an empty field set has no records. -/
theorem encodeOfEmptyFieldSetWritesNothing : Obligations.EncodeOfEmptyFieldSetWritesNothing := by
  intro s hsup hempty
  have habsent (k : Kind) : s.fs.has k = false := by simp [FieldSet.has, hempty]
  have hnone : recordsOf (s.setOutLen 0) allKinds = [] := by simp [recordsOf, habsent]
  have hloop := encFrom_all allKinds (s.setOutLen 0) (fun k _ hk => absurd hk (by simp [habsent]))
    (fun k _ hk => absurd hk (by simp [habsent])) (by simp [hnone])
  rw [exec_encode hsup, hloop, hnone, putPayload_nil]
  rfl

/-- Settles O24: the kinds before the failing one are written from cursor 0, and none of them queries. -/
theorem encodeAbortsAtTheFirstFailingField : Obligations.EncodeAbortsAtTheFirstFailingField := by
  intro s before after k hsup hkinds hauto hv hfit hk code hfails
  have hfails0 : FieldFails s (0 + (recordsOf s before).length) k code := by rwa [Nat.zero_add]
  obtain ⟨e, hloop, rfl, hown⟩ := encFrom_aborts (s := s.setOutLen 0) after
    (fun k' hk' hhas => State.queries_eq_false (by rintro rfl htxp; exact hauto ⟨hhas, htxp, .inr hk'⟩)) hv
    (recordsOf_fit_setOutLen_zero hfit) hk
    (State.queries_eq_false (by rintro rfl htxp; exact hauto ⟨hk, htxp, .inl rfl⟩)) hfails0
  have hrun := ((emitted_recordsOf_setOutLen_zero hfit).setEncK k.num).raise e
  have hstep := exec_encode hsup
  rw [hkinds, hloop] at hstep
  exact ⟨_, hstep, hown ▸ ended_raise _ e, hrun.cursor.trans (Nat.zero_add _), hrun.bytes, hrun.frame, rfl, hrun.host,
    hrun.decodeSide⟩

/-- Settles O25: the kinds before the tx power never query, and the sentinel stops the loop at kind 5. -/
theorem encodeSuspendsAtTheQuery : Obligations.EncodeSuspendsAtTheQuery := by
  intro s hsup hhas hauto hv hfit
  have hbefore := encFrom_append kindsBeforeTxp (.txp :: kindsAfterTxp) (s.setOutLen 0)
    (fun k hk _ => State.queries_eq_false (by rintro rfl; exact absurd hk (by decide))) hv
    (recordsOf_fit_setOutLen_zero hfit)
  have hquery := encFrom_query kindsAfterTxp (k := .txp)
    (s := putPayload (recordsOf s kindsBeforeTxp) (s.setOutLen 0)) hhas (by simpa [State.queries] using hauto)
  have hrun := ((emitted_recordsOf_setOutLen_zero hfit).setEncK 5).setEngState .waitTxp
  have hstep := (exec_encode hsup).trans (congrArg (Host.Outcome.next ∘ Ending.finish) (hbefore.trans hquery))
  exact ⟨_, hstep, rfl, rfl, rfl, rfl, rfl, hrun.cursor.trans (Nat.zero_add _), hrun.bytes, hrun.frame, hrun.host,
    hrun.decodeSide⟩

/-! ## The resumption step -/

/-- The engine's turn while an answer is awaited (60_exceptions.md R302). -/
theorem step_waitTxp {s : State} (hm : s.nextMove = .engine) (hw : s.engState = .waitTxp) :
    step s = .next (resumeEncode s.popMove) :=
  (step_engine hm).trans (engineTurn_waitTxp (s := s.popMove) hw)

theorem resumeEncode_of_no_answer {s : State} (hvalid : s.txp.valid = false) : resumeEncode s = s := by
  rw [resumeEncode, hvalid, if_neg Bool.false_ne_true]

theorem resumeEncode_of_failure {s : State} (hvalid : s.txp.valid = true) (hok : s.txp.ok = false) :
    resumeEncode s = (s.setEngState .exec).raise (.collab s.txp.err) := by
  simp [resumeEncode, hvalid, encodeAfterAnswer, hok]

theorem resumeEncode_of_no_room {s : State} (hvalid : s.txp.valid = true) (hok : s.txp.ok = true)
    (hfull : s.maxLen.toNat < s.outLen.toNat + 3) : resumeEncode s = (s.setEngState .exec).raise .msgSize := by
  simp [resumeEncode, hvalid, encodeAfterAnswer, hok, emitBytes_eq, Nat.not_le.2 hfull]

/-- The state in which the answer's record has just been written (40_encode.md R176). -/
def State.answerWritten (s : State) : State := putPayload [0x02, 0x0A, s.txp.val] (s.setEngState .exec)

theorem resumeEncode_of_success {s : State} (hvalid : s.txp.valid = true) (hok : s.txp.ok = true)
    (hfit : s.outLen.toNat + 3 ≤ s.maxLen.toNat) :
    resumeEncode s = (encFrom kindsAfterTxp s.answerWritten).finish := by
  simp [resumeEncode, hvalid, encodeAfterAnswer, hok, emitBytes_eq, hfit, State.answerWritten, wireRecord]

/-- Settles O27: the three answers of the resumption that write nothing, and the move of the port. -/
theorem queryFailureIsPropagatedVerbatim : Obligations.QueryFailureIsPropagatedVerbatim := by
  refine ⟨fun s hm hw => ⟨fun hvalid hok => ?_, fun hvalid hok hfull => ?_, fun hvalid => ?_⟩, fun s port hm => ?_⟩
  · rw [step_waitTxp hm hw, resumeEncode_of_failure (s := s.popMove) hvalid hok]
    rfl
  · rw [step_waitTxp hm hw, resumeEncode_of_no_room (s := s.popMove) hvalid hok hfull]
    rfl
  · rw [step_waitTxp hm hw, resumeEncode_of_no_answer (s := s.popMove) hvalid]
    rfl
  · exact step_environment hm nofun

/-- The kinds after the tx power make no query. -/
theorem queries_of_mem_kindsAfterTxp {s : State} {k : Kind} (hk : k ∈ kindsAfterTxp) : s.queries k = false :=
  State.queries_eq_false (by rintro rfl; exact absurd hk (by decide))

/-- The answer's record changes nothing the later records are made of. -/
theorem recordsOf_answerWritten {s : State} {ks : List Kind}
    (hv : ∀ k ∈ ks, s.fs.has k = true → viewInRange s k = true) :
    recordsOf s.answerWritten ks = recordsOf s ks :=
  recordsOf_congr (s := s) (t := s.answerWritten) rfl rfl (fun a ha => src_putPayload _ (s.setEngState .exec) a ha) hv

theorem toNat_outLen_answerWritten {s : State} (hfit : s.outLen.toNat + 3 ≤ s.maxLen.toNat) :
    s.answerWritten.outLen.toNat = s.outLen.toNat + 3 :=
  (emitted_putPayload (s.setEngState .exec) [0x02, 0x0A, s.txp.val] hfit).cursor

/-- The answer's record and what is written behind it are one run of bytes from the cursor on. -/
theorem emitted_answerWritten {s : State} {bs : List Byte}
    (hfit : s.outLen.toNat + 3 + bs.length ≤ s.maxLen.toNat) :
    Emitted s (putPayload bs s.answerWritten) s.outLen.toNat ([0x02, 0x0A, s.txp.val] ++ bs) := by
  have hmax := s.maxLen.isLt
  have hone : putPayload bs s.answerWritten = putPayload ([0x02, 0x0A, s.txp.val] ++ bs) (s.setEngState .exec) :=
    putPayload_append _ _ (s.setEngState .exec) (show s.outLen.toNat + 3 < 256 by omega)
  have hfit' : (s.setEngState .exec).outLen.toNat + ([0x02, 0x0A, s.txp.val] ++ bs).length ≤
      (s.setEngState .exec).maxLen.toNat := by
    rw [List.length_append, ← Nat.add_assoc]
    exact hfit
  rw [hone]
  exact { emitted_putPayload (s.setEngState .exec) _ hfit' with }

/-- Settles O26: the answer's record, then the loop over kinds 6 to 17 to its end. -/
theorem answerResumesTheEncode : Obligations.AnswerResumesTheEncode := by
  intro s hm hw hvalid hok hv hfit
  have hfit3 : s.popMove.outLen.toNat + 3 ≤ s.popMove.maxLen.toNat := Nat.le_trans (Nat.le_add_right _ _) hfit
  have hrecords : recordsOf s.popMove.answerWritten kindsAfterTxp = recordsOf s kindsAfterTxp :=
    recordsOf_answerWritten (s := s.popMove) hv
  have hloop := encFrom_all kindsAfterTxp s.popMove.answerWritten
    (fun k hk _ => queries_of_mem_kindsAfterTxp hk) hv
    (by rw [hrecords, toNat_outLen_answerWritten hfit3]; exact hfit)
  rw [hrecords] at hloop
  have hstep := step_waitTxp hm hw
  rw [resumeEncode_of_success (s := s.popMove) hvalid hok hfit3, hloop] at hstep
  have hrun := ((emitted_answerWritten (s := s.popMove) hfit).setEncK 18).complete
  obtain ⟨hcursor, hframe⟩ := hrun.cursor_frame_append
  exact ⟨_, hstep, ended_complete _, rfl, hcursor, hrun.bytes, hframe, rfl, hrun.decodeSide, hrun.host⟩

/-- Settles O28: the answer's record, then the loop over kinds 6 to 17 up to the failing one. -/
theorem resumedEncodeAbortsAtTheFirstFailingField : Obligations.ResumedEncodeAbortsAtTheFirstFailingField := by
  intro s before after k hm hw hvalid hok hkinds hv hfit hk code hfails
  have hfit3 : s.popMove.outLen.toNat + 3 ≤ s.popMove.maxLen.toNat := Nat.le_trans (Nat.le_add_right _ _) hfit
  have hrecords : recordsOf s.popMove.answerWritten before = recordsOf s before :=
    recordsOf_answerWritten (s := s.popMove) hv
  have hcursor3 := toNat_outLen_answerWritten hfit3
  have hmem (k' : Kind) (h : k' ∈ before ∨ k' = k) : k' ∈ kindsAfterTxp := by
    rw [hkinds, List.mem_append, List.mem_cons]
    exact h.imp_right .inl
  have hsize := length_payloadOf_congr (s := s) (t := s.popMove.answerWritten) rfl rfl k
  obtain ⟨e, hloop, rfl, hown⟩ := encFrom_aborts (s := s.popMove.answerWritten) (code := code) after
    (fun k' hk' _ => queries_of_mem_kindsAfterTxp (hmem k' (.inl hk'))) hv
    (by rw [hrecords, hcursor3]; exact hfit) hk (queries_of_mem_kindsAfterTxp (hmem k (.inr rfl)))
    (by rw [FieldFails, hrecords, hcursor3, hsize]; exact hfails)
  rw [hrecords] at hloop
  have hstep := step_waitTxp hm hw
  rw [resumeEncode_of_success (s := s.popMove) hvalid hok hfit3, hkinds, hloop] at hstep
  have hrun := ((emitted_answerWritten (s := s.popMove) hfit).setEncK k.num).raise e
  obtain ⟨hcursor, hframe⟩ := hrun.cursor_frame_append
  exact ⟨_, hstep, hown ▸ ended_raise _ e, rfl, hcursor, hrun.bytes, hframe, rfl, hrun.decodeSide, hrun.host⟩

end Sys2Proof.Machine
end

section
/-! SUPPORT. The record decoder inside DEC1's window, and each record of the table run as an instruction there
(41_decode.md R210 to R232, log entry 7). -/

namespace Sys2Proof.Machine

/-! ## The record decoder, by what it meets (41_decode.md R210) -/

/-- With no byte left the length byte plays no part, so the record decoder is its later steps on the length and type
bytes that stand in SRC. -/
theorem decodeOne_eq_decodeLengthed (p r : Nat) (s : State) :
    decodeOne p r s = decodeLengthed (s.src p) (dispatch (s.src (p + 1))) p r s := by
  rw [decodeOne_eq, decodeLengthed_eq (dispatch_is _)]

section

variable {len t : Byte} {p r : Nat} {s : State}

theorem decodeLengthed_truncated (h : r < len.toNat + 1) : decodeLengthed len (dispatch t) p r s = .error .msgSize := by
  rw [decodeLengthed_eq (dispatch_is t), if_pos h]

theorem decodeLengthed_empty (h : len.toNat + 1 ≤ r) (h0 : len.toNat = 0) :
    decodeLengthed len (dispatch t) p r s = .error .badData := by
  rw [decodeLengthed_eq (dispatch_is t), if_neg (Nat.not_lt.2 h), if_pos h0]

theorem decodeLengthed_refused (h : len.toNat + 1 ≤ r) (h0 : len.toNat ≠ 0)
    (hbad : acceptable s.cfg t (len.toNat - 1) = false) : decodeLengthed len (dispatch t) p r s = .error .badData := by
  rw [decodeLengthed_eq (dispatch_is t), if_neg (Nat.not_lt.2 h), if_neg h0, hbad, if_neg Bool.false_ne_true]

theorem decodeLengthed_accepted (h : len.toNat + 1 ≤ r) (h0 : len.toNat ≠ 0)
    (hok : acceptable s.cfg t (len.toNat - 1) = true) :
    decodeLengthed len (dispatch t) p r s =
      .ok (s.setFs (storeRecord s.cfg s.fs ((p + 2) % 256) t (s.srcBytes ((p + 2) % 256) (len.toNat - 1)))) := by
  rw [decodeLengthed_eq (dispatch_is t), if_neg (Nat.not_lt.2 h), if_neg h0, if_pos hok]

end

theorem acceptable_eq_true {c : Config} {t : Byte} {n : Nat} :
    acceptable c t n = true ↔ n ≤ c.maxFieldSz ∧ lengthOk c t n = true := by
  simp [acceptable]

theorem acceptable_eq_false {c : Config} {t : Byte} {n : Nat} (h : c.maxFieldSz < n ∨ lengthOk c t n = false) :
    acceptable c t n = false := by
  rw [Bool.eq_false_iff, Ne, acceptable_eq_true]
  rintro ⟨hcap, hlen⟩
  obtain h | h := h
  · omega
  · exact Bool.false_ne_true (h.symm.trans hlen)

/-! ## DEC1's window (41_decode.md R232) -/

section

variable {p r size : Nat} {dec : State → Except Err State} {s : State}

theorem decodeWindow_outside (h : 256 < p + r) : decodeWindow p r size dec s = recordRaised s 0x80 :=
  if_neg (Nat.not_le.2 h)

theorem decodeWindow_error {e : Err} (h : p + r ≤ 256) (he : dec (s.setConsumed 0) = .error e)
    (hown : e.fromCollab = false) : decodeWindow p r size dec s = recordRaised s e.value := by
  have hin : p + r ≤ Config.memSize := h
  simp only [decodeWindow, if_pos hin, he, State.raise, hown]
  rfl

theorem decodeWindow_ok {fs : FieldSet} (h : p + r ≤ 256)
    (hok : dec (s.setConsumed 0) = .ok ((s.setConsumed 0).setFs fs)) :
    decodeWindow p r size dec s =
      { s with fs := fs, consumed := BitVec.ofNat 8 size, result := 0, errSrc := false, engState := .idle } := by
  have hin : p + r ≤ Config.memSize := h
  simp only [decodeWindow, if_pos hin, hok]
  rfl

end

/-- DEC1 is the window around the record whose length and type bytes stand at its position. -/
theorem exec_dec1 (p r : Byte) (s : State) :
    exec (.dec1 p r) s = .next (decodeWindow p.toNat r.toNat ((s.src p.toNat).toNat + 1)
      (decodeLengthed (s.src p.toNat) (dispatch (s.src (p.toNat + 1))) p.toNat r.toNat) s) := by
  have hone := decodeOne_eq_decodeLengthed p.toNat r.toNat (s.setConsumed 0)
  rw [State.setConsumed_src, State.setConsumed_src] at hone
  show Host.Outcome.next (decodeWindow _ _ _ _ _) = _
  simp only [decodeWindow, hone, State.recordSize]

/-! ## Records as instructions (log entry 7) -/

/-- A code outside the table has no length rule, and its record is skipped (30_encoding.md R126, 41_decode.md R231). -/
theorem skipped_of_unrecognised {t : Byte} (h : definedTypeCodes.contains t = false) :
    dispatch t = ruleSkip ∧ (∀ c n, lengthOk c t n = true) ∧ ∀ c fs off bs, storeRecord c fs off t bs = fs := by
  simp only [definedTypeCodes, List.contains_eq_mem, List.mem_cons, List.not_mem_nil, or_false,
    decide_eq_false_iff_not, not_or] at h
  refine ⟨?_, fun c n => ?_, fun c fs off bs => ?_⟩
  · unfold dispatch
    split <;> simp_all
  · simp only [lengthOk, h, or_self, if_false]
  · simp only [storeRecord, h, or_self, if_false]

/-- A record as an instruction is the latched window around the rule of its type code. -/
theorem exec_decodeHeader (len t : Byte) (s : State) :
    exec (decodeHeader len t) s = .next (runRecord len (dispatch t) s) := by
  cases h : definedTypeCodes.contains t with
  | true =>
    simp only [definedTypeCodes, List.contains_eq_mem, List.mem_cons, List.not_mem_nil, or_false,
      decide_eq_true_eq] at h
    rcases h with rfl | rfl | rfl | rfl | rfl | rfl | rfl | rfl | rfl | rfl | rfl | rfl | rfl | rfl | rfl |
      rfl | rfl | rfl | rfl | rfl | rfl | rfl <;> rfl
  | false =>
    rw [decodeHeader_unrecognised len t h, (skipped_of_unrecognised h).1]
    rfl

theorem operands_of_decodeCommand_dec1 {w : Word} {p r : Byte} (h : decodeCommand w = .dec1 p r) :
    cmdA w = p ∧ cmdB w = r := by
  unfold decodeCommand at h
  split at h <;> simp_all

/-- Settles O9: the latched operands name the window of both, and DEC1 finds in SRC the length and type bytes that
the record is given as its own. -/
theorem engineStepOfDec1RunsTheRecord : Obligations.EngineStepOfDec1RunsTheRecord := by
  intro s p r i hm he hcmd hrec
  have hdec1 : decodeCommand s.latch = .dec1 p r := Except.ok.inj hcmd
  obtain ⟨rfl, rfl⟩ := operands_of_decodeCommand_dec1 hdec1
  obtain rfl := Except.ok.inj hrec
  have hstep : step s = exec (.dec1 (cmdA s.latch) (cmdB s.latch)) s.popMove := by
    rw [step_engine hm, engineTurn_exec (s := s.popMove) he, State.popMove_latch, hdec1]
  exact hstep.trans ((exec_dec1 _ _ _).trans (exec_decodeHeader _ _ s.popMove).symm)

/-- Settles O46: the window is looked at first, then the record decoder's checks in their order. -/
theorem recordChecksComeInOrder : Obligations.RecordChecksComeInOrder := by
  intro s len t
  rw [exec_decodeHeader]
  split_ifs with hout htrunc hempty hcap hlen
  · exact congrArg _ (decodeWindow_outside hout)
  · exact congrArg _ (decodeWindow_error (Nat.not_lt.1 hout) (decodeLengthed_truncated htrunc) rfl)
  · exact congrArg _
      (decodeWindow_error (Nat.not_lt.1 hout) (decodeLengthed_empty (Nat.not_lt.1 htrunc) hempty) rfl)
  · exact congrArg _ (decodeWindow_error (Nat.not_lt.1 hout)
      (decodeLengthed_refused (Nat.not_lt.1 htrunc) hempty (acceptable_eq_false (.inl hcap))) rfl)
  · exact congrArg _ (decodeWindow_error (Nat.not_lt.1 hout)
      (decodeLengthed_refused (Nat.not_lt.1 htrunc) hempty (acceptable_eq_false (.inr hlen))) rfl)
  · exact congrArg _ (decodeWindow_ok (Nat.not_lt.1 hout)
      (decodeLengthed_accepted (Nat.not_lt.1 htrunc) hempty
        (acceptable_eq_true.2 ⟨Nat.not_lt.1 hcap, by simpa using hlen⟩)))

/-! ## Records whose window holds them, within the cap: the length rule decides -/

section

variable {s : State} {len t : Byte} {i : Instr} (hw : InWindow s len)
include hw

theorem record_rejected (hi : decodeHeader len t = i) (hlen : lengthOk s.cfg t (len.toNat - 1) = false) :
    exec i s = .next (recordRaised s 0x0A) := by
  obtain ⟨hin, hwhole, hne, hcap⟩ := hw
  rw [← hi, recordChecksComeInOrder s len t, if_neg (Nat.not_lt.2 hin), if_neg (Nat.not_lt.2 hwhole), if_neg hne,
    if_neg (Nat.not_lt.2 hcap), if_pos hlen]

theorem record_stored (hi : decodeHeader len t = i) {fs : FieldSet} (hlen : lengthOk s.cfg t (len.toNat - 1) = true)
    (hfs : storeRecord s.cfg s.fs (payloadOff s) t (s.srcBytes (payloadOff s) (len.toNat - 1)) = fs) :
    exec i s = .next (recordDone s len fs) := by
  obtain ⟨hin, hwhole, hne, hcap⟩ := hw
  rw [← hi, recordChecksComeInOrder s len t, if_neg (Nat.not_lt.2 hin), if_neg (Nat.not_lt.2 hwhole), if_neg hne,
    if_neg (Nat.not_lt.2 hcap), if_neg (by rw [hlen]; exact Bool.noConfusion), hfs]

/-- What a record does where its length rule amounts to `P`. -/
theorem record_decided (hi : decodeHeader len t = i) {P : Prop} [Decidable P] {fs : FieldSet}
    (hlen : lengthOk s.cfg t (len.toNat - 1) = true ↔ P)
    (hfs : P → storeRecord s.cfg s.fs (payloadOff s) t (s.srcBytes (payloadOff s) (len.toNat - 1)) = fs) :
    exec i s = if P then .next (recordDone s len fs) else .next (recordRaised s 0x0A) := by
  split_ifs with h
  · exact record_stored hw hi (hlen.2 h) (hfs h)
  · exact record_rejected hw hi (Bool.eq_false_iff.2 fun hok => h (hlen.1 hok))

theorem record_decided_not (hi : decodeHeader len t = i) {P : Prop} [Decidable P] {fs : FieldSet}
    (hlen : lengthOk s.cfg t (len.toNat - 1) = true ↔ ¬P)
    (hfs : storeRecord s.cfg s.fs (payloadOff s) t (s.srcBytes (payloadOff s) (len.toNat - 1)) = fs) :
    exec i s = if P then .next (recordRaised s 0x0A) else .next (recordDone s len fs) :=
  (record_decided hw hi hlen fun _ => hfs).trans (ite_not ..)

end

/-- Settles O38: the payload is the one byte stored. -/
theorem oneByteRecordsStoreTheirByte : Obligations.OneByteRecordsStoreTheirByte := by
  intro s len hw
  refine ⟨⟨rfl, rfl, rfl⟩, fun hne => ?_, fun h1 => ?_⟩
  · have hlen : (len.toNat - 1 == 1) = false := beq_false_of_ne hne
    exact ⟨record_rejected hw (t := 0x01) rfl hlen, record_rejected hw (t := 0x0A) rfl hlen,
      record_rejected hw (t := 0x1C) rfl hlen⟩
  · have hlen : (len.toNat - 1 == 1) = true := beq_iff_eq.2 h1
    have hbyte : payloadByte (s.srcBytes (payloadOff s) (len.toNat - 1)) 0 = s.src (payloadOff s) :=
      payloadByte_srcBytes s _ _ 0 (by omega)
    rw [← hbyte]
    exact ⟨record_stored hw (t := 0x01) rfl hlen rfl, record_stored hw (t := 0x0A) rfl hlen rfl,
      record_stored hw (t := 0x1C) rfl hlen rfl⟩

/-- Settles O39: the second byte of the payload is the high one. -/
theorem twoByteRecordsStoreLittleEndian : Obligations.TwoByteRecordsStoreLittleEndian := by
  intro s len hw
  refine ⟨⟨rfl, rfl⟩, fun hne => ?_, fun h2 => ?_⟩
  · have hlen : (len.toNat - 1 == 2) = false := beq_false_of_ne hne
    exact ⟨record_rejected hw (t := 0x19) rfl hlen, record_rejected hw (t := 0x1A) rfl hlen⟩
  · have hlen : (len.toNat - 1 == 2) = true := beq_iff_eq.2 h2
    have hlow : payloadByte (s.srcBytes (payloadOff s) (len.toNat - 1)) 0 = s.src (payloadOff s) :=
      payloadByte_srcBytes s _ _ 0 (by omega)
    have hhigh : payloadByte (s.srcBytes (payloadOff s) (len.toNat - 1)) 1 = s.src (payloadOff s + 1) :=
      payloadByte_srcBytes s _ _ 1 (by omega)
    rw [← hlow, ← hhigh]
    exact ⟨record_stored hw (t := 0x19) rfl hlen rfl, record_stored hw (t := 0x1A) rfl hlen rfl⟩

/-- Settles O40: the length is the parameter's, so the payload is as many bytes as the register takes. -/
theorem blobRecordsCopyTheirBytes : Obligations.BlobRecordsCopyTheirBytes := by
  intro s len hw
  refine ⟨⟨rfl, rfl, rfl⟩, ?_, ?_, ?_⟩
  · exact record_decided hw (t := 0x0D) rfl beq_iff_eq fun h => by rw [h]; rfl
  · exact record_decided hw (t := 0x12) rfl beq_iff_eq fun h => by rw [h]; rfl
  · exact record_decided hw (t := 0x1B) rfl beq_iff_eq fun h => by rw [h]; rfl

/-- Settles O41: no length rule, so the cap of the window alone decides. -/
theorem freeLengthRecordsStoreAView : Obligations.FreeLengthRecordsStoreAView := by
  intro s len hw
  exact ⟨⟨rfl, rfl, rfl, rfl⟩, record_stored hw (t := 0x08) rfl rfl (by simp [storeRecord]),
    record_stored hw (t := 0x09) rfl rfl (by simp [storeRecord]),
    record_stored hw (t := 0x24) rfl rfl (by simp [storeRecord]),
    record_stored hw (t := 0xFF) rfl rfl (by simp [storeRecord])⟩

/-- Settles O42: a payload of at least the minimum is stored as a view, a shorter one is rejected. -/
theorem serviceDataRecordsStoreAView : Obligations.ServiceDataRecordsStoreAView := by
  intro s len hw
  refine ⟨⟨rfl, rfl, rfl⟩, ?_, ?_, ?_⟩
  · exact record_decided_not hw (t := 0x16) rfl (decide_eq_true_iff.trans Nat.not_lt.symm) (by simp [storeRecord])
  · exact record_decided_not hw (t := 0x20) rfl (decide_eq_true_iff.trans Nat.not_lt.symm) (by simp [storeRecord])
  · exact record_decided_not hw (t := 0x21) rfl (decide_eq_true_iff.trans Nat.not_lt.symm) (by simp [storeRecord])

/-- Settles O43: a whole number of entries is stored as a view counted in them. -/
theorem countedRecordsStoreAView : Obligations.CountedRecordsStoreAView := by
  intro s len hw
  refine ⟨⟨rfl, rfl, rfl⟩, fun c => ?_, ?_⟩
  · cases c
    · exact record_decided_not hw (t := 0x06) rfl (by simp [lengthOk]) (by simp [storeRecord])
    · exact record_decided_not hw (t := 0x07) rfl (by simp [lengthOk]) (by simp [storeRecord])
  · exact record_decided_not hw (t := 0x17) rfl (by simp [lengthOk]) (by simp [storeRecord])

/-- Settles O44: a whole number of entries is converted into the array. -/
theorem listRecordsConvertTheirEntries : Obligations.ListRecordsConvertTheirEntries := by
  intro s len hw
  refine ⟨⟨rfl, rfl, rfl, rfl⟩, fun c => ?_, fun c => ?_⟩ <;> cases c
  · exact record_decided_not hw (t := 0x02) rfl (by simp [lengthOk]) (by simp [storeRecord])
  · exact record_decided_not hw (t := 0x03) rfl (by simp [lengthOk]) (by simp [storeRecord])
  · exact record_decided_not hw (t := 0x04) rfl (by simp [lengthOk]) (by simp [storeRecord])
  · exact record_decided_not hw (t := 0x05) rfl (by simp [lengthOk]) (by simp [storeRecord])

/-- Settles O45: a code outside the table has no length rule and stores nothing. -/
theorem unrecognisedRecordIsSkipped : Obligations.UnrecognisedRecordIsSkipped := by
  intro s len t ht hin hwhole hne
  have hi := decodeHeader_unrecognised len t ht
  obtain ⟨-, hlen, hstore⟩ := skipped_of_unrecognised ht
  refine ⟨hi, ?_⟩
  rw [← hi, recordChecksComeInOrder s len t, if_neg (Nat.not_lt.2 hin), if_neg (Nat.not_lt.2 hwhole), if_neg hne,
    hlen, hstore, if_neg (show ¬true = false from nofun)]

end Sys2Proof.Machine
end

section
/-! SUPPORT. The decode commands (41_decode.md R200 to R203, R232, R240 to R245): the list decoders, DEC1, and the walk
of DECODE over a sequence of records. -/

namespace Sys2Proof.Machine

/-! ## Bits and entries of a field set after a store -/

theorem toNat_ofNat_byte {n : Nat} (h : n < 256) : (BitVec.ofNat 8 n : Byte).toNat = n :=
  (BitVec.toNat_ofNat n 8).trans (Nat.mod_eq_of_lt h)

theorem FieldSet.has_withPresent (fs : FieldSet) (j k : Kind) :
    (fs.withPresent k.num).has j = (decide (j = k) || fs.has j) := by
  rw [← FieldSet.mark_eq, FieldSet.has_mark]

theorem FieldSet.getLsbD_withComplete (fs : FieldSet) {j : Nat} (hj : j < 4) (b : Bool) (i : Nat) :
    (fs.withComplete j b).complete.getLsbD i = if i = j then b else fs.complete.getLsbD i :=
  getLsbD_setBit fs.complete j i b hj

/-- The field set after a UUID16 list with payload `bs` and completeness bit `c` (41_decode.md R200). -/
def FieldSet.withUuid16 (fs : FieldSet) (c : Bool) (bs : List Byte) : FieldSet :=
  ({ fs with u16 := entries16 fs.u16 bs, u16Count := BitVec.ofNat 8 (bs.length / 2) }.withPresent
    Kind.uuid16.num).withComplete 0 c

theorem decodeUuid16_accepted {off n : Nat} (hn : n < 256) (h2 : n % 2 = 0) (c : Bool) (s : State) :
    decodeUuid16 off n c s = .ok (s.setFs (s.fs.withUuid16 c (s.srcBytes off n))) := by
  rw [decodeUuid16_eq off n c s hn, if_pos h2, FieldSet.withUuid16, State.length_srcBytes]
  rfl

section

variable (fs : FieldSet) (c : Bool) {bs : List Byte}

theorem FieldSet.has_withUuid16 (k : Kind) : (fs.withUuid16 c bs).has k = (decide (k = .uuid16) || fs.has k) :=
  FieldSet.has_withPresent _ k .uuid16

theorem FieldSet.getLsbD_withUuid16 (i : Nat) :
    (fs.withUuid16 c bs).complete.getLsbD i = if i = 0 then c else fs.complete.getLsbD i :=
  FieldSet.getLsbD_withComplete _ (by decide) c i

theorem FieldSet.u16Count_withUuid16 (hbs : bs.length < 256) :
    (fs.withUuid16 c bs).u16Count.toNat = bs.length / 2 :=
  toNat_ofNat_byte (by omega)

/-- Each entry that the payload reaches has its own two bytes, the others what they held. -/
theorem FieldSet.u16At_withUuid16 (hbs : bs.length < 256) (i : Nat) :
    (fs.withUuid16 c bs).u16At i =
      if 2 * i + 1 < bs.length then
        payloadByte bs (2 * i + 1) ++ payloadByte bs (2 * i)
      else fs.u16At i := by
  show ((entries16 fs.u16 bs)[i]?).getD 0 = _
  by_cases hi : i < 127
  · rw [Vector.getElem?_eq_getElem hi, FieldSet.u16At, Vector.getElem?_eq_getElem hi]
    simp [entries16]
  · rw [Vector.getElem?_eq_none (by omega), FieldSet.u16At, Vector.getElem?_eq_none (by omega), if_neg (by omega)]

end

/-- The field set after a UUID32 list with payload `bs` and completeness bit `c` (41_decode.md R201). -/
def FieldSet.withUuid32 (fs : FieldSet) (c : Bool) (bs : List Byte) : FieldSet :=
  ({ fs with u32 := entries32 fs.u32 bs, u32Count := BitVec.ofNat 8 (bs.length / 4) }.withPresent
    Kind.uuid32.num).withComplete 1 c

theorem decodeUuid32_accepted {off n : Nat} (hn : n < 256) (h4 : n % 4 = 0) (c : Bool) (s : State) :
    decodeUuid32 off n c s = .ok (s.setFs (s.fs.withUuid32 c (s.srcBytes off n))) := by
  rw [decodeUuid32_eq off n c s hn, if_pos h4, FieldSet.withUuid32, State.length_srcBytes]
  rfl

section

variable (fs : FieldSet) (c : Bool) {bs : List Byte}

theorem FieldSet.has_withUuid32 (k : Kind) : (fs.withUuid32 c bs).has k = (decide (k = .uuid32) || fs.has k) :=
  FieldSet.has_withPresent _ k .uuid32

theorem FieldSet.getLsbD_withUuid32 (i : Nat) :
    (fs.withUuid32 c bs).complete.getLsbD i = if i = 1 then c else fs.complete.getLsbD i :=
  FieldSet.getLsbD_withComplete _ (by decide) c i

theorem FieldSet.u32Count_withUuid32 (hbs : bs.length < 256) :
    (fs.withUuid32 c bs).u32Count.toNat = bs.length / 4 :=
  toNat_ofNat_byte (by omega)

/-- Each entry that the payload reaches has its own four bytes, the others what they held. -/
theorem FieldSet.u32At_withUuid32 (hbs : bs.length < 256) (i : Nat) :
    (fs.withUuid32 c bs).u32At i =
      if 4 * i + 3 < bs.length then
        payloadByte bs (4 * i + 3) ++ payloadByte bs (4 * i + 2) ++ payloadByte bs (4 * i + 1) ++
          payloadByte bs (4 * i)
      else fs.u32At i := by
  show ((entries32 fs.u32 bs)[i]?).getD 0 = _
  by_cases hi : i < 63
  · rw [Vector.getElem?_eq_getElem hi, FieldSet.u32At, Vector.getElem?_eq_getElem hi]
    simp [entries32]
  · rw [Vector.getElem?_eq_none (by omega), FieldSet.u32At, Vector.getElem?_eq_none (by omega), if_neg (by omega)]

end

/-! ## PU16 and PU32 -/

/-- The range check of PU16 and PU32, passed (41_decode.md R202, R203). -/
theorem inSrcRange_inside {off n : Nat} (h : off + n ≤ 256) (body : State → Except Err State) (s : State) :
    inSrcRange off n body s = body s := if_pos h

theorem inSrcRange_outside {off n : Nat} (h : 256 < off + n) (body : State → Except Err State) (s : State) :
    inSrcRange off n body s = .error .range := if_neg (Nat.not_le.2 h)

theorem exec_pu16 (off n : Byte) (c : Bool) (s : State) :
    exec (.pu16 off n c) s =
      .next (endAtomic s (inSrcRange off.toNat n.toNat (decodeUuid16 off.toNat n.toNat c) s)).finish := rfl

theorem exec_pu32 (off n : Byte) (c : Bool) (s : State) :
    exec (.pu32 off n c) s =
      .next (endAtomic s (inSrcRange off.toNat n.toNat (decodeUuid32 off.toNat n.toNat c) s)).finish := rfl

/-- Settles O30: the elements are the entries of the payload that stands in the window. -/
theorem pu16ConvertsTheList : Obligations.Pu16ConvertsTheList := by
  intro s off n c hin h2
  have hlen := s.length_srcBytes off.toNat n.toNat
  have hbs : (s.srcBytes off.toNat n.toNat).length < 256 := hlen.trans_lt n.isLt
  have hexec := exec_pu16 off n c s
  rw [inSrcRange_inside hin, decodeUuid16_accepted n.isLt h2] at hexec
  refine ⟨_, hexec, ended_complete _, fun i hi => ?_, fun i hi => ?_, ?_, ?_, ?_, fun k hk => ?_, fun j hj => ?_, rfl,
    hostSideSame_keptByCommands.of_exec hexec, rfl, rfl, rfl, rfl, rfl, fun _ => rfl⟩
  · refine (s.fs.u16At_withUuid16 c hbs i).trans ?_
    rw [if_pos (by omega), payloadByte_srcBytes _ _ _ _ (by omega), payloadByte_srcBytes _ _ _ _ (by omega)]
    rfl
  · exact (s.fs.u16At_withUuid16 c hbs i).trans (if_neg (by omega))
  · exact (s.fs.u16Count_withUuid16 c hbs).trans (by rw [hlen])
  · exact s.fs.has_withUuid16 c .uuid16
  · exact s.fs.getLsbD_withUuid16 c 0
  · exact (s.fs.has_withUuid16 c k).trans (by rw [decide_eq_false hk, Bool.false_or])
  · exact (s.fs.getLsbD_withUuid16 c j).trans (if_neg hj)

/-- Settles O31: the elements are the entries of the payload that stands in the window. -/
theorem pu32ConvertsTheList : Obligations.Pu32ConvertsTheList := by
  intro s off n c hin h4
  have hlen := s.length_srcBytes off.toNat n.toNat
  have hbs : (s.srcBytes off.toNat n.toNat).length < 256 := hlen.trans_lt n.isLt
  have hexec := exec_pu32 off n c s
  rw [inSrcRange_inside hin, decodeUuid32_accepted n.isLt h4] at hexec
  refine ⟨_, hexec, ended_complete _, fun i hi => ?_, fun i hi => ?_, ?_, ?_, ?_, fun k hk => ?_, fun j hj => ?_, rfl,
    hostSideSame_keptByCommands.of_exec hexec, rfl, rfl, rfl, rfl, rfl, fun _ => rfl⟩
  · refine (s.fs.u32At_withUuid32 c hbs i).trans ?_
    rw [if_pos (by omega), payloadByte_srcBytes _ _ _ _ (by omega), payloadByte_srcBytes _ _ _ _ (by omega),
      payloadByte_srcBytes _ _ _ _ (by omega), payloadByte_srcBytes _ _ _ _ (by omega)]
    rfl
  · exact (s.fs.u32At_withUuid32 c hbs i).trans (if_neg (by omega))
  · exact (s.fs.u32Count_withUuid32 c hbs).trans (by rw [hlen])
  · exact s.fs.has_withUuid32 c .uuid32
  · exact s.fs.getLsbD_withUuid32 c 1
  · exact (s.fs.has_withUuid32 c k).trans (by rw [decide_eq_false hk, Bool.false_or])
  · exact (s.fs.getLsbD_withUuid32 c j).trans (if_neg hj)

/-- Settles O32: the range check comes first, the multiple second, and both before any write. -/
theorem listDecoderErrorsWriteNothing : Obligations.ListDecoderErrorsWriteNothing := by
  intro s off n c
  refine ⟨fun hout => ⟨?_, ?_⟩, fun hin h2 => ?_, fun hin h4 => ?_⟩
  · rw [exec_pu16, inSrcRange_outside hout]
    rfl
  · rw [exec_pu32, inSrcRange_outside hout]
    rfl
  · rw [exec_pu16, inSrcRange_inside hin, decodeUuid16_eq _ _ _ _ n.isLt, if_neg h2]
    rfl
  · rw [exec_pu32, inSrcRange_inside hin, decodeUuid32_eq _ _ _ _ n.isLt, if_neg h4]
    rfl

/-! ## One record in SRC -/

theorem srcHolds_append {s : State} {p : Nat} {bs cs : List Byte} (h : SrcHolds s p (bs ++ cs)) :
    SrcHolds s p bs ∧ SrcHolds s (p + bs.length) cs := by
  refine ⟨fun i hi => ?_, fun i hi => ?_⟩
  · rw [h i (by rw [List.length_append]; omega), List.getElem_append_left hi]
  · rw [Nat.add_assoc, h (bs.length + i) (by rw [List.length_append]; omega)]
    simp

theorem SrcHolds.eq_srcBytes {s : State} {p : Nat} {bs : List Byte} (h : SrcHolds s p bs) :
    s.srcBytes p bs.length = bs :=
  List.ext_getElem (s.length_srcBytes p _) fun i h1 h2 => (s.getElem_srcBytes p _ i h1).trans (h i h2)

theorem srcBytes_succ (s : State) (p n : Nat) : s.srcBytes p (n + 1) = s.src p :: s.srcBytes (p + 1) n := by
  simp [State.srcBytes, List.range_succ_eq_map, Nat.add_assoc, Nat.add_comm 1]

/-- A stored view keeps the low byte of its offset, so the wrap behind SRC[254] does not show (41_decode.md R210). -/
theorem storeRecord_mod (c : Config) (fs : FieldSet) (off : Nat) (t : Byte) (bs : List Byte) :
    storeRecord c fs (off % 256) t bs = storeRecord c fs off t bs := by
  have hview (n : Nat) : viewAt (off % 256) n = viewAt off n := by
    rw [viewAt, viewAt, BitVec.eq_of_toNat_eq (x := BitVec.ofNat 8 (off % 256)) (y := BitVec.ofNat 8 off) (by simp)]
  simp only [storeRecord, hview]

section

variable {s : State} {p r : Nat} {t : Byte} {bs : List Byte} (hpr : p + r ≤ 256) (hwhole : bs.length + 2 ≤ r)
  (hsrc : SrcHolds s p (wireRecord t bs))
include hpr hwhole hsrc

/-- A whole record in SRC: its length byte, its type byte and its payload where the decoder looks for them. -/
theorem srcHolds_wireRecord :
    (s.src p).toNat = bs.length + 1 ∧ s.src (p + 1) = t ∧ s.srcBytes ((p + 2) % 256) bs.length = bs := by
  obtain ⟨hheader, hpayload⟩ := srcHolds_append (bs := [BitVec.ofNat 8 (bs.length + 1), t]) hsrc
  have hlen := hheader 0 Nat.zero_lt_two
  refine ⟨?_, hheader 1 Nat.one_lt_two, ?_⟩
  · rw [Nat.add_zero] at hlen
    rw [hlen]
    exact toNat_ofNat_byte (by omega)
  · obtain rfl | hne := eq_or_ne bs []
    · rfl
    · have := List.length_pos_iff.2 hne
      rw [Nat.mod_eq_of_lt (by omega)]
      exact hpayload.eq_srcBytes

theorem recordSize_wireRecord : s.recordSize p = bs.length + 2 := by
  rw [State.recordSize, (srcHolds_wireRecord hpr hwhole hsrc).1]

/-- The record decoder on a whole record that it accepts (41_decode.md R210). -/
theorem decodeOne_wireRecord (hok : acceptable s.cfg t bs.length = true) :
    decodeOne p r s = .ok (s.setFs (storeRecord s.cfg s.fs (p + 2) t bs)) := by
  obtain ⟨hlen, htype, hbytes⟩ := srcHolds_wireRecord hpr hwhole hsrc
  rw [decodeOne_eq_decodeLengthed, htype, decodeLengthed_accepted (by omega) (by omega), hlen, Nat.add_sub_cancel,
    hbytes, storeRecord_mod]
  rwa [hlen]

end

/-- The record decoder on bytes that begin no acceptable record (60_exceptions.md R282, R283, R289). -/
theorem decodeOne_rejection {s : State} {p r : Nat} {code : Word}
    (h : rejection s.cfg (s.srcBytes p r) = some code) :
    ∃ e, decodeOne p r s = .error e ∧ e.value = code ∧ e.fromCollab = false := by
  rw [decodeOne_eq_decodeLengthed]
  cases r with
  | zero => exact ⟨.msgSize, decodeLengthed_truncated (Nat.succ_pos _), Option.some.inj h, rfl⟩
  | succ n =>
    rw [srcBytes_succ, rejection, State.length_srcBytes] at h
    split_ifs at h with htrunc hempty hok
    · exact ⟨.msgSize, decodeLengthed_truncated (by omega), Option.some.inj h, rfl⟩
    · exact ⟨.badData, decodeLengthed_empty (by omega) hempty, Option.some.inj h, rfl⟩
    · rw [payloadByte_srcBytes _ _ _ _ (by omega), Nat.add_zero] at hok
      exact ⟨.badData, decodeLengthed_refused (by omega) hempty (Bool.eq_false_iff.2 hok), Option.some.inj h, rfl⟩

/-! ## DEC1 -/

/-- DEC1 is the window around the record decoder (41_decode.md R232). -/
theorem exec_dec1_window (p r : Byte) (s : State) :
    exec (.dec1 p r) s =
      .next (decodeWindow p.toNat r.toNat (s.recordSize p.toNat) (decodeOne p.toNat r.toNat) s) := rfl

/-- Settles O33: the record decoder accepts the whole record that stands at the window's start. -/
theorem dec1StoresTheRecord : Obligations.Dec1StoresTheRecord := by
  intro s p r t bs hpr hwhole hsrc hok
  have hone := decodeOne_wireRecord (s := s.setConsumed 0) hpr hwhole hsrc hok
  rw [exec_dec1_window, decodeWindow_ok hpr hone, recordSize_wireRecord hpr hwhole hsrc]
  rfl

/-- Settles O34: the window is looked at before the record, and what the record decoder rejects leaves no trace. -/
theorem dec1ErrorsLeaveTheFieldSet : Obligations.Dec1ErrorsLeaveTheFieldSet := by
  intro s p r
  refine ⟨fun hout => congrArg _ (decodeWindow_outside hout), fun hpr code hrej => ?_⟩
  obtain ⟨e, hone, rfl, hown⟩ := decodeOne_rejection (s := s.setConsumed 0) hrej
  exact congrArg _ (decodeWindow_error hpr hone hown)

/-! ## The walk of DECODE (41_decode.md R240) -/

/-- A walk sets `DEC_POS` before it looks at it. -/
theorem decodeWalk_setDecPos (fuel p r q : Nat) (s : State) :
    decodeWalk fuel p r (s.setDecPos q) = decodeWalk fuel p r s := by
  cases fuel <;> rfl

theorem decodeWalk_done (fuel p : Nat) (s : State) : decodeWalk fuel p 0 s = .ok (s.setDecPos p) := by
  cases fuel <;> rfl

theorem decodeWalk_error {fuel p r : Nat} {s : State} {e : Err} (hr : r ≠ 0) (hf : fuel ≠ 0)
    (he : decodeOne p r (s.setDecPos p) = .error e) : decodeWalk fuel p r s = .raised e (s.setDecPos p) := by
  obtain ⟨fuel, rfl⟩ := Nat.exists_eq_succ_of_ne_zero hf
  simp only [decodeWalk, if_neg hr, he]

theorem decodeWalk_step {fuel p r : Nat} {s : State} {fs : FieldSet} (hr : r ≠ 0)
    (hok : decodeOne p r (s.setDecPos p) = .ok ((s.setDecPos p).setFs fs)) :
    decodeWalk (fuel + 1) p r s = decodeWalk fuel (p + s.recordSize p) (r - s.recordSize p) (s.setFs fs) := by
  rw [decodeWalk, if_neg hr, hok]
  exact decodeWalk_setDecPos fuel _ _ p (s.setFs fs)

theorem wireOf_cons (t : Byte) (bs : List Byte) (rs : List (Byte × List Byte)) :
    wireOf ((t, bs) :: rs) = wireRecord t bs ++ wireOf rs := rfl

/-- The walk over a sequence of acceptable records that lies within the bytes that remain: each is stored in order, and
fuel for the remaining bytes is left, since a record takes at least two (41_decode.md R241). -/
theorem decodeWalk_records (rs : List (Byte × List Byte)) {fuel p r : Nat} {s : State}
    (hok : ∀ x ∈ rs, acceptable s.cfg x.1 x.2.length = true) (hsrc : SrcHolds s p (wireOf rs))
    (hpr : p + r ≤ 256) (hr : (wireOf rs).length ≤ r) (hf : r ≤ fuel) :
    ∃ fuel', r - (wireOf rs).length ≤ fuel' ∧
      decodeWalk fuel p r s = decodeWalk fuel' (p + (wireOf rs).length) (r - (wireOf rs).length)
        (s.setFs (storeRecords s.cfg s.fs p rs)) := by
  induction rs generalizing fuel p r s with
  | nil => exact ⟨fuel, Nat.le_trans (Nat.sub_le ..) hf, rfl⟩
  | cons x rs ih =>
    obtain ⟨t, bs⟩ := x
    rw [wireOf_cons] at hsrc hr
    rw [List.length_append, length_wireRecord] at hr
    obtain ⟨hrecord, hrest⟩ := srcHolds_append hsrc
    obtain ⟨fuel, rfl⟩ := Nat.exists_eq_succ_of_ne_zero (show fuel ≠ 0 by omega)
    have hone := decodeOne_wireRecord (s := s.setDecPos p) (r := r) hpr (by omega) hrecord (hok (t, bs) (by simp))
    rw [State.setDecPos_cfg, State.setDecPos_fs] at hone
    have hsize := recordSize_wireRecord (r := r) hpr (by omega) hrecord
    rw [length_wireRecord] at hrest
    obtain ⟨fuel', hf', hwalk⟩ := ih (s := s.setFs (storeRecord s.cfg s.fs (p + 2) t bs)) (fuel := fuel)
      (p := p + (bs.length + 2)) (r := r - (bs.length + 2)) (fun y hy => hok y (List.mem_cons_of_mem _ hy)) hrest
      (by omega) (by omega) (by omega)
    rw [decodeWalk_step (by omega) hone, hsize, hwalk, wireOf_cons, List.length_append, length_wireRecord,
      Nat.add_assoc p (bs.length + 2), ← Nat.sub_sub, storeRecords,
      show p + 2 + bs.length = p + (bs.length + 2) by omega]
    exact ⟨fuel', hf', rfl⟩

/-! ## DECODE -/

theorem exec_decode (s : State) :
    exec .decode s = .next (afterDecode (decodeWalk s.inLen.toNat 0 s.inLen.toNat s.fsClear)).finish := rfl

/-- Settles O35: the walk stores every record and ends with no byte left. -/
theorem decodeStoresEveryRecord : Obligations.DecodeStoresEveryRecord := by
  intro s rs hok hlen hsrc
  obtain ⟨fuel, -, hwalk⟩ := decodeWalk_records rs (s := s.fsClear) hok hsrc
    (show 0 + s.inLen.toNat ≤ 256 by have := s.inLen.isLt; omega) (Nat.le_of_eq hlen) (le_refl _)
  rw [hlen, Nat.sub_self, decodeWalk_done, Nat.zero_add] at hwalk
  rw [exec_decode, hwalk]
  simp [afterDecode, State.setDecPos, State.setFs, State.fsClear, State.complete]

/-- A failed DECODE may move the field set and the count of draws; with `prefixKept` it keeps both (41_decode.md
R242). -/
theorem partialFieldSet_eq (s : State) :
    ∃ fs d, s.partialFieldSet = { s with fs := fs, draws := d } ∧
      (s.cfg.partialFs = .prefixKept → fs = s.fs ∧ d = s.draws) := by
  unfold State.partialFieldSet
  cases s.cfg.partialFs with
  | havoc => exact ⟨_, _, rfl, nofun⟩
  | prefixKept => exact ⟨s.fs, s.draws, rfl, fun _ => ⟨rfl, rfl⟩⟩

/-- Settles O36: the walk stores the records before the bad one and raises at its offset, with bytes left. -/
theorem decodeStopsAtTheFirstBadRecord : Obligations.DecodeStopsAtTheFirstBadRecord := by
  intro s rs rest code hok hne hlen hsrc hrej
  obtain ⟨hrecords, hrest⟩ := srcHolds_append hsrc
  have hpos := List.length_pos_iff.2 hne
  have hin := s.inLen.isLt
  rw [List.length_append] at hlen
  obtain ⟨fuel, hf, hwalk⟩ := decodeWalk_records rs (s := s.fsClear) hok hrecords
    (show 0 + s.inLen.toNat ≤ 256 by omega) (by omega) (le_refl _)
  have hleft : s.inLen.toNat - (wireOf rs).length = rest.length := by omega
  rw [Nat.zero_add, hleft, State.fsClear_cfg, State.fsClear_fs] at hwalk
  rw [hleft] at hf
  rw [← SrcHolds.eq_srcBytes hrest, Nat.zero_add] at hrej
  obtain ⟨e, hone, rfl, hown⟩ := decodeOne_rejection
    (s := (s.fsClear.setFs (storeRecords s.cfg FieldSet.zero 0 rs)).setDecPos (wireOf rs).length) hrej
  have hstop := hwalk.trans (decodeWalk_error (by omega) (by omega) hone)
  obtain ⟨fs, d, hpartial, hkept⟩ := partialFieldSet_eq
    ((s.fsClear.setFs (storeRecords s.cfg FieldSet.zero 0 rs)).setDecPos (wireOf rs).length)
  have hexec := exec_decode s
  rw [hstop, afterDecode, hpartial] at hexec
  exact ⟨_, hexec, hown ▸ ended_raise _ e, toNat_ofNat_byte (by omega), hkept,
    hostSideSame_keptByCommands.of_exec hexec, rfl, rfl, rfl, fun _ => rfl⟩

end Sys2Proof.Machine
end

section
/-! SUPPORT. The round trip of 41_decode.md R244: what a completed ENCODE wrote is a sequence of acceptable records, one
for each present kind; a record stores the registers of its own kind alone; and what it stores shows the encoded payload
again. -/

namespace Sys2Proof.Machine

/-! ## What a completed ENCODE tells of the field set -/

/-- Every error of the block's own has a code other than 0 (60_exceptions.md R281). -/
theorem not_ended_raise (s : State) (e : Err) : ¬Ended (s.raise e) 0 false := by
  rintro ⟨hcode, hown, -⟩
  rw [State.raise_result] at hcode
  cases e with
  | collab => cases hown
  | msgSize | notSup | badData | range | illegal => exact absurd hcode (by decide)

/-- The loop completes only if every present kind's view is in range and all the records fit. -/
theorem fit_of_encFrom_completes {ks : List Kind} {s : State} (hcur : s.outLen.toNat ≤ s.maxLen.toNat)
    (h : Ended (encFrom ks s).finish 0 false) :
    (∀ k ∈ ks, s.fs.has k = true → viewInRange s k = true) ∧
      s.outLen.toNat + (recordsOf s ks).length ≤ s.maxLen.toNat := by
  induction ks generalizing s with
  | nil => exact ⟨nofun, hcur⟩
  | cons k ks ih =>
    cases hk : s.fs.has k with
    | false =>
      rw [encFrom_absent ks hk] at h
      rw [recordsOf_cons_absent hk, List.forall_mem_cons]
      obtain ⟨hv, hfit⟩ := ih hcur h
      exact ⟨⟨fun hhas => absurd (hk.symm.trans hhas) Bool.false_ne_true, hv⟩, hfit⟩
    | true =>
      cases hq : s.queries k with
      | true =>
        rw [encFrom_query ks hk hq] at h
        cases h.2.2
      | false =>
        cases hfield : encField k s with
        | error e =>
          rw [encFrom_failed ks hk hq hfield] at h
          exact absurd h (not_ended_raise _ e)
        | ok u =>
          rw [encField_eq] at hfield
          split_ifs at hfield with hfit hv
          have hmax := s.maxLen.isLt
          have hcursor := toNat_outLen_putPayload (wireRecord (k.code s.fs) (payloadOf s k)) s
            (by rw [length_wireRecord]; omega)
          rw [length_wireRecord] at hcursor
          rw [encFrom_written ks hk hq hfit hv] at h
          obtain ⟨hvs, hfits⟩ := ih (by rw [hcursor, putPayload_maxLen]; omega) h
          have hrest : recordsOf (putPayload (wireRecord (k.code s.fs) (payloadOf s k)) s) ks = recordsOf s ks :=
            recordsOf_congr (s := s) (t := putPayload _ s) rfl rfl (fun a ha => src_putPayload _ s a ha) hvs
          rw [hcursor, hrest, putPayload_maxLen] at hfits
          rw [recordsOf_cons_has hk, List.length_append, length_wireRecord, List.forall_mem_cons]
          exact ⟨⟨fun _ => hv, hvs⟩, by omega⟩

/-- What a completed ENCODE left in DST (40_encode.md R170). -/
theorem dst_of_completed_encode {s t : State} (h : exec .encode s = .next t) (hend : Ended t 0 false)
    (hsup : s.cfg.encodeSupported = true) (hauto : ¬(s.fs.has .txp = true ∧ s.fs.txp = s.cfg.txPwrAuto)) :
    t.outLen.toNat = (recordsOf s allKinds).length ∧ DstHolds t 0 (recordsOf s allKinds) := by
  have hrun := exec_encode hsup
  rw [h] at hrun
  obtain rfl : t = _ := Host.Outcome.next.inj hrun
  obtain ⟨hv, hfit⟩ := fit_of_encFrom_completes (Nat.zero_le _) hend
  have hrecords : recordsOf (s.setOutLen 0) allKinds = recordsOf s allKinds :=
    recordsOf_congr (s := s) rfl rfl (fun _ _ => rfl) hv
  rw [hrecords] at hfit
  obtain ⟨t', ht', -, hcursor, hbytes, -⟩ := encodeWritesThePresentFields s hsup hauto
    (fun k => hv k (by cases k <;> decide)) ((Nat.zero_add _).symm.trans_le hfit)
  obtain rfl := Host.Outcome.next.inj (h.symm.trans ht')
  exact ⟨hcursor, hbytes⟩

/-! ## The records of the present kinds -/

/-- The record of a kind, as its type code and its payload. -/
def fieldRecord (s : State) (k : Kind) : Byte × List Byte := (k.code s.fs, payloadOf s k)

theorem recordsOf_eq_wireOf (s : State) (ks : List Kind) :
    recordsOf s ks = wireOf ((ks.filter s.fs.has).map (fieldRecord s)) := by
  rw [wireOf, List.flatMap_map]
  rfl

/-- The encoder's payloads keep the length rules of their types (30_encoding.md R125), but for the three minima and the
cap, which are the caller's to keep (41_decode.md R244). -/
theorem acceptable_fieldRecord {s : State} {k : Kind} (hcap : (payloadOf s k).length ≤ s.cfg.maxFieldSz)
    (h16 : k = .sd16 → 2 ≤ s.fs.sd16.n.toNat) (h32 : k = .sd32 → 4 ≤ s.fs.sd32.n.toNat)
    (h128 : k = .sd128 → 16 ≤ s.fs.sd128.n.toNat) :
    acceptable s.cfg (fieldRecord s k).1 (fieldRecord s k).2.length = true := by
  refine acceptable_eq_true.2 ⟨hcap, ?_⟩
  cases k with
  | uuid16 | uuid32 | uuid128 | name =>
    simp only [fieldRecord, Kind.code]
    split <;> simp [payloadOf, lengthOk]
  | sd16 => simpa [fieldRecord, Kind.code, payloadOf, lengthOk] using h16 rfl
  | sd32 => simpa [fieldRecord, Kind.code, payloadOf, lengthOk] using h32 rfl
  | sd128 => simpa [fieldRecord, Kind.code, payloadOf, lengthOk] using h128 rfl
  | _ => simp [fieldRecord, Kind.code, payloadOf, lengthOk]

/-! ## The registers of one kind -/

/-- A field set that holds the value registers of kind `k` of `fs` and is 0 elsewhere (10_state.md R43). -/
def FieldSet.valueOf (fs : FieldSet) : Kind → FieldSet
  | .flags => { FieldSet.zero with flags := fs.flags }
  | .uuid16 => { FieldSet.zero with u16Count := fs.u16Count, u16 := fs.u16 }
  | .uuid32 => { FieldSet.zero with u32Count := fs.u32Count, u32 := fs.u32 }
  | .uuid128 => { FieldSet.zero with u128 := fs.u128 }
  | .name => { FieldSet.zero with name := fs.name }
  | .txp => { FieldSet.zero with txp := fs.txp }
  | .devcls => { FieldSet.zero with devcls := fs.devcls }
  | .itvlRange => { FieldSet.zero with itvl := fs.itvl }
  | .sd16 => { FieldSet.zero with sd16 := fs.sd16 }
  | .pta => { FieldSet.zero with pta := fs.pta }
  | .appear => { FieldSet.zero with appear := fs.appear }
  | .advItvl => { FieldSet.zero with advItvl := fs.advItvl }
  | .leaddr => { FieldSet.zero with leaddr0 := fs.leaddr0, leaddr1 := fs.leaddr1 }
  | .lerole => { FieldSet.zero with lerole := fs.lerole }
  | .sd32 => { FieldSet.zero with sd32 := fs.sd32 }
  | .sd128 => { FieldSet.zero with sd128 := fs.sd128 }
  | .uri => { FieldSet.zero with uri := fs.uri }
  | .mfg => { FieldSet.zero with mfg := fs.mfg }

/-- Kind `k` has the same registers in both field sets: presence, completeness (which its type code shows) and value. -/
structure SameKind (fs fs' : FieldSet) (k : Kind) : Prop where
  has : fs'.has k = fs.has k
  code : k.code fs' = k.code fs
  value : fs'.valueOf k = fs.valueOf k

theorem SameKind.refl (fs : FieldSet) (k : Kind) : SameKind fs fs k := ⟨rfl, rfl, rfl⟩

theorem SameKind.trans {fs fs' fs'' : FieldSet} {k : Kind} (h : SameKind fs fs' k) (h' : SameKind fs' fs'' k) :
    SameKind fs fs'' k := ⟨h'.has.trans h.has, h'.code.trans h.code, h'.value.trans h.value⟩

/-- A kind's payload is made of its own value registers. -/
theorem payloadOf_valueOf (s : State) (k : Kind) : payloadOf (s.setFs (s.fs.valueOf k)) k = payloadOf s k := by
  cases k <;> rfl

/-- The type code of a pair shows the completeness bit (30_encoding.md R128). -/
theorem completeness_eq_false_of_code {b : Bool} {yes no : Byte} (hne : yes ≠ no)
    (h : (if b then yes else no) = no) : b = false := by
  cases b
  · rfl
  · exact absurd h hne

/-- A kind with the registers of the zeroed field set is absent and has registers 0. -/
theorem SameKind.zeroField {fs : FieldSet} {k : Kind} (h : SameKind FieldSet.zero fs k) : ZeroField fs k := by
  obtain ⟨hhas, hcode, hvalue⟩ := h
  refine ⟨by rw [hhas]; cases k <;> rfl, ?_⟩
  cases k with
  | flags => exact congrArg FieldSet.flags hvalue
  | uuid16 =>
    have harray : fs.u16 = Vector.replicate 127 0 := congrArg FieldSet.u16 hvalue
    refine ⟨congrArg FieldSet.u16Count hvalue, fun i => ?_, completeness_eq_false_of_code (by decide) hcode⟩
    rw [FieldSet.u16At, harray, Vector.getElem?_replicate]
    split <;> rfl
  | uuid32 =>
    have harray : fs.u32 = Vector.replicate 63 0 := congrArg FieldSet.u32 hvalue
    refine ⟨congrArg FieldSet.u32Count hvalue, fun i => ?_, completeness_eq_false_of_code (by decide) hcode⟩
    rw [FieldSet.u32At, harray, Vector.getElem?_replicate]
    split <;> rfl
  | uuid128 => exact ⟨congrArg FieldSet.u128 hvalue, completeness_eq_false_of_code (by decide) hcode⟩
  | name => exact ⟨congrArg FieldSet.name hvalue, completeness_eq_false_of_code (by decide) hcode⟩
  | txp => exact congrArg FieldSet.txp hvalue
  | devcls => exact congrArg FieldSet.devcls hvalue
  | itvlRange => exact congrArg FieldSet.itvl hvalue
  | sd16 => exact congrArg FieldSet.sd16 hvalue
  | pta => exact congrArg FieldSet.pta hvalue
  | appear => exact congrArg FieldSet.appear hvalue
  | advItvl => exact congrArg FieldSet.advItvl hvalue
  | leaddr => exact ⟨congrArg FieldSet.leaddr0 hvalue, congrArg FieldSet.leaddr1 hvalue⟩
  | lerole => exact congrArg FieldSet.lerole hvalue
  | sd32 => exact congrArg FieldSet.sd32 hvalue
  | sd128 => exact congrArg FieldSet.sd128 hvalue
  | uri => exact congrArg FieldSet.uri hvalue
  | mfg => exact congrArg FieldSet.mfg hvalue

/-! ## What a record of a kind stores -/

/-- The value registers that a record of kind `k` with payload `bs` at SRC offset `off` stores. -/
def storeValue (c : Config) (fs : FieldSet) (off : Nat) (bs : List Byte) : Kind → FieldSet
  | .flags => { fs with flags := payloadByte bs 0 }
  | .uuid16 => { fs with u16 := entries16 fs.u16 bs, u16Count := BitVec.ofNat 8 (bs.length / 2) }
  | .uuid32 => { fs with u32 := entries32 fs.u32 bs, u32Count := BitVec.ofNat 8 (bs.length / 4) }
  | .uuid128 => { fs with u128 := viewAt off (bs.length / 16) }
  | .name => { fs with name := viewAt off bs.length }
  | .txp => { fs with txp := payloadByte bs 0 }
  | .devcls => { fs with devcls := blobOver fs.devcls c.devclsLen bs }
  | .itvlRange => { fs with itvl := blobOver fs.itvl c.itvlRangeLen bs }
  | .sd16 => { fs with sd16 := viewAt off bs.length }
  | .pta => { fs with pta := viewAt off (bs.length / 6) }
  | .appear => { fs with appear := payloadByte bs 1 ++ payloadByte bs 0 }
  | .advItvl => { fs with advItvl := payloadByte bs 1 ++ payloadByte bs 0 }
  | .leaddr =>
    { fs with
      leaddr0 := blobOver fs.leaddr0 c.leAddrLen bs
      leaddr1 := blobOver fs.leaddr1 (c.leAddrLen - 4) (bs.drop 4) }
  | .lerole => { fs with lerole := payloadByte bs 0 }
  | .sd32 => { fs with sd32 := viewAt off bs.length }
  | .sd128 => { fs with sd128 := viewAt off bs.length }
  | .uri => { fs with uri := viewAt off bs.length }
  | .mfg => { fs with mfg := viewAt off bs.length }

/-- The completeness bit of a kind that has a pair of type codes (10_state.md R45, 30_encoding.md R128). -/
def Kind.completeBit : Kind → Option Nat
  | .uuid16 => some 0
  | .uuid32 => some 1
  | .uuid128 => some 2
  | .name => some 3
  | .flags | .txp | .devcls | .itvlRange | .sd16 | .pta | .appear | .advItvl | .leaddr | .lerole | .sd32 | .sd128 | .uri
  | .mfg => none

theorem Kind.num_of_completeBit {k : Kind} {i : Nat} (h : k.completeBit = some i) : i < 4 ∧ k.num = i + 1 := by
  cases k <;> cases h <;> decide

/-- A kind's type code depends on its own completeness bit only. -/
theorem Kind.code_congr {fs fs' : FieldSet} {k : Kind}
    (h : ∀ i, k.completeBit = some i → fs'.complete.getLsbD i = fs.complete.getLsbD i) : k.code fs' = k.code fs := by
  cases k with
  | uuid16 => rw [Kind.code, Kind.code, h 0 rfl]
  | uuid32 => rw [Kind.code, Kind.code, h 1 rfl]
  | uuid128 => rw [Kind.code, Kind.code, h 2 rfl]
  | name => rw [Kind.code, Kind.code, h 3 rfl]
  | _ => rfl

/-- `fs` with the completeness bit of kind `k`, where it has one, as `f` has it. -/
def FieldSet.withCompletenessOf (fs f : FieldSet) (k : Kind) : FieldSet :=
  match k.completeBit with
  | some i => fs.withComplete i (f.complete.getLsbD i)
  | none => fs

theorem FieldSet.getLsbD_withCompletenessOf (fs f : FieldSet) (k : Kind) (i : Nat) :
    (fs.withCompletenessOf f k).complete.getLsbD i =
      if k.completeBit = some i then f.complete.getLsbD i else fs.complete.getLsbD i := by
  unfold FieldSet.withCompletenessOf
  cases h : k.completeBit with
  | none => rfl
  | some j =>
    rw [FieldSet.getLsbD_withComplete fs (Kind.num_of_completeBit h).1]
    by_cases hij : i = j
    · rw [if_pos hij, if_pos (congrArg some hij.symm), hij]
    · rw [if_neg hij, if_neg fun he => hij (Option.some.inj he).symm]

theorem FieldSet.has_withCompletenessOf (fs f : FieldSet) (j k : Kind) :
    (fs.withCompletenessOf f k).has j = fs.has j := by
  cases k <;> rfl

theorem FieldSet.valueOf_withCompletenessOf (fs f : FieldSet) (j k : Kind) :
    (fs.withCompletenessOf f k).valueOf j = fs.valueOf j := by
  unfold FieldSet.withCompletenessOf
  split <;> cases j <;> rfl

theorem FieldSet.valueOf_withPresent (fs : FieldSet) (n : Nat) (j : Kind) :
    (fs.withPresent n).valueOf j = fs.valueOf j := by
  cases j <;> rfl

/-- The value registers of the kinds are apart. -/
theorem valueOf_storeValue_of_ne (c : Config) (fs : FieldSet) (off : Nat) (bs : List Byte) {j k : Kind} (h : j ≠ k) :
    (storeValue c fs off bs k).valueOf j = fs.valueOf j := by
  cases k <;> cases j <;> try rfl
  all_goals exact absurd rfl h

/-- A value is neither presence nor completeness. -/
theorem storeValue_present_complete (c : Config) (fs : FieldSet) (off : Nat) (bs : List Byte) (k : Kind) :
    (storeValue c fs off bs k).present = fs.present ∧ (storeValue c fs off bs k).complete = fs.complete := by
  cases k <;> exact ⟨rfl, rfl⟩

/-- A record under the type code that `f` gives its kind stores that kind's value, presence and completeness. -/
theorem storeRecord_code (c : Config) (fs f : FieldSet) (off : Nat) (bs : List Byte) (k : Kind) :
    storeRecord c fs off (k.code f) bs = ((storeValue c fs off bs k).withPresent k.num).withCompletenessOf f k := by
  cases k with
  | uuid16 | uuid32 | uuid128 | name =>
    simp only [Kind.code, FieldSet.withCompletenessOf, Kind.completeBit]
    split <;> simp_all [storeRecord, storeValue, Kind.num]
  | _ => rfl

section

variable (c : Config) (fs f : FieldSet) (off : Nat) (bs : List Byte) {j k : Kind}

theorem has_storeRecord_code : (storeRecord c fs off (k.code f) bs).has j = (decide (j = k) || fs.has j) := by
  rw [storeRecord_code, FieldSet.has_withCompletenessOf, FieldSet.has_withPresent, FieldSet.has, FieldSet.has,
    (storeValue_present_complete c fs off bs k).1]

theorem code_storeRecord_code : k.code (storeRecord c fs off (k.code f) bs) = k.code f :=
  Kind.code_congr fun i hi => by rw [storeRecord_code, FieldSet.getLsbD_withCompletenessOf, if_pos hi]

theorem valueOf_storeRecord_code :
    (storeRecord c fs off (k.code f) bs).valueOf j = (storeValue c fs off bs k).valueOf j := by
  rw [storeRecord_code, FieldSet.valueOf_withCompletenessOf, FieldSet.valueOf_withPresent]

/-- A record stores the registers of its own kind alone (41_decode.md R212). -/
theorem sameKind_storeRecord_of_ne (h : j ≠ k) : SameKind fs (storeRecord c fs off (k.code f) bs) j where
  has := by rw [has_storeRecord_code, decide_eq_false h, Bool.false_or]
  code := Kind.code_congr fun i hi => by
    have hne : k.completeBit ≠ some i := fun hk =>
      h (Kind.num_inj.1 ((Kind.num_of_completeBit hi).2.trans (Kind.num_of_completeBit hk).2.symm))
    rw [storeRecord_code, FieldSet.getLsbD_withCompletenessOf, if_neg hne]
    exact congrArg (BitVec.getLsbD · i) (storeValue_present_complete c fs off bs k).2
  value := by rw [valueOf_storeRecord_code, valueOf_storeValue_of_ne c fs off bs h]

end

/-! ## What is stored shows the payload again -/

/-- A list of entries of one size holds each entry's bytes at its own place. -/
theorem payloadByte_flatMap {w : Nat} {f : Nat → List Byte} (hw : ∀ i, (f i).length = w) {cnt i j : Nat}
    (hi : i < cnt) (hj : j < w) : payloadByte ((List.range cnt).flatMap f) (w * i + j) = payloadByte (f i) j := by
  induction cnt with
  | zero => omega
  | succ n ih =>
    have hlen : ((List.range n).flatMap f).length = w * n := by simp [hw, Nat.mul_comm]
    rw [payloadByte, List.range_succ, List.flatMap_append, List.flatMap_singleton]
    obtain hlt | rfl := Nat.lt_succ_iff_lt_or_eq.1 hi
    · have hin : w * i + j < ((List.range n).flatMap f).length := by
        have := Nat.mul_le_mul_left w (Nat.succ_le_of_lt hlt)
        rw [Nat.mul_succ] at this
        omega
      rw [List.getD_append _ _ _ _ hin]
      exact ih hlt
    · rw [List.getD_append_right _ _ _ _ (by omega), hlen, Nat.add_sub_cancel_left]
      rfl

theorem map_payloadByte_range (bs : List Byte) : (List.range bs.length).map (payloadByte bs) = bs :=
  List.ext_getElem (by simp) fun i h1 h2 => by simp [payloadByte, h2]

theorem half_of_bytes (v : Half) : v.extractLsb' 8 8 ++ v.extractLsb' 0 8 = v := by
  apply BitVec.eq_of_toNat_eq
  have := v.isLt
  rw [← le16, toNat_le16]
  simp only [BitVec.extractLsb'_toNat, Nat.shiftRight_eq_div_pow]
  omega

theorem wordByte_blobOver (v : Word) (len : Nat) (bs : List Byte) {j : Nat} (hj : j < 4) :
    wordByte (blobOver v len bs) j = if j < len then payloadByte bs j else wordByte v j := by
  match j, hj with
  | 0, _ => exact (wordByte_le32 ..).1
  | 1, _ => exact (wordByte_le32 ..).2.1
  | 2, _ => exact (wordByte_le32 ..).2.2.1
  | 3, _ => exact (wordByte_le32 ..).2.2.2

theorem toNat_viewAt_off {off n : Nat} (h : off < 256) : (viewAt off n).off.toNat = off := toNat_ofNat_byte h

theorem toNat_viewAt_n {off n : Nat} (h : n < 256) : (viewAt off n).n.toNat = n := toNat_ofNat_byte h

/-- The bytes of a view on a payload that stands in SRC. -/
theorem srcBytes_viewAt {u : State} {off n : Nat} {bs : List Byte} (hsrc : SrcHolds u off bs)
    (hin : off + bs.length ≤ 256) : u.srcBytes (viewAt off n).off.toNat bs.length = bs := by
  obtain rfl | hne := eq_or_ne bs []
  · rfl
  · have := List.length_pos_iff.2 hne
    rw [toNat_viewAt_off (by omega)]
    exact hsrc.eq_srcBytes

/-- The same for a view counted in entries of `elem` bytes. -/
theorem srcBytes_viewAt_entries {u : State} {off elem cnt : Nat} {bs : List Byte} (hsrc : SrcHolds u off bs)
    (hin : off + bs.length ≤ 256) (hlen : bs.length = elem * cnt) (helem : 0 < elem) (hcnt : cnt < 256) :
    u.srcBytes (viewAt off (bs.length / elem)).off.toNat (elem * (viewAt off (bs.length / elem)).n.toNat) = bs := by
  have hdiv : bs.length / elem = cnt := by rw [hlen, Nat.mul_div_cancel_left _ helem]
  rw [hdiv, toNat_viewAt_n hcnt, ← hlen]
  exact srcBytes_viewAt hsrc hin

/-- The encoder reads back from the array the list that the decoder converted into it. -/
theorem u16Bytes_of_entries {fs fs' f : FieldSet} {cnt : Nat} (hcnt : 2 * cnt < 256)
    (h : fs'.u16 = entries16 fs.u16 (f.u16Bytes cnt)) : fs'.u16Bytes cnt = f.u16Bytes cnt := by
  have hbytes (i j : Nat) (hi : i < cnt) (hj : j < 2) :
      payloadByte (f.u16Bytes cnt) (2 * i + j) = payloadByte (halfBytes (f.u16At i)) j :=
    payloadByte_flatMap (fun i => halfBytes_length (f.u16At i)) hi hj
  refine List.flatMap_congr fun i hi => congrArg halfBytes ?_
  have hi := List.mem_range.1 hi
  have hentry := fs.u16At_withUuid16 false (bs := f.u16Bytes cnt) (by rwa [FieldSet.length_u16Bytes]) i
  rw [FieldSet.length_u16Bytes, if_pos (by omega), hbytes i 1 hi (by decide), ← Nat.add_zero (2 * i),
    hbytes i 0 hi (by decide)] at hentry
  rw [FieldSet.u16At, h]
  exact hentry.trans (half_of_bytes _)

theorem u32Bytes_of_entries {fs fs' f : FieldSet} {cnt : Nat} (hcnt : 4 * cnt < 256)
    (h : fs'.u32 = entries32 fs.u32 (f.u32Bytes cnt)) : fs'.u32Bytes cnt = f.u32Bytes cnt := by
  have hbytes (i j : Nat) (hi : i < cnt) (hj : j < 4) :
      payloadByte (f.u32Bytes cnt) (4 * i + j) = payloadByte (wordBytes (f.u32At i)) j :=
    payloadByte_flatMap (fun i => wordBytes_length (f.u32At i)) hi hj
  refine List.flatMap_congr fun i hi => congrArg wordBytes ?_
  have hi := List.mem_range.1 hi
  have hentry := fs.u32At_withUuid32 false (bs := f.u32Bytes cnt) (by rwa [FieldSet.length_u32Bytes]) i
  rw [FieldSet.length_u32Bytes, if_pos (by omega), hbytes i 3 hi (by decide), hbytes i 2 hi (by decide),
    hbytes i 1 hi (by decide), ← Nat.add_zero (4 * i), hbytes i 0 hi (by decide)] at hentry
  rw [FieldSet.u32At, h]
  exact hentry.trans (le32_wordByte _)

/-- A register shows the bytes copied into it (10_state.md R51, R52, R54). -/
theorem map_wordByte_blobOver (v : Word) {len : Nat} {bs : List Byte} (hlen : bs.length = len) (h : len ≤ 4) :
    (List.range len).map (wordByte (blobOver v len bs)) = bs := by
  subst hlen
  refine (List.map_congr_left fun j hj => ?_).trans (map_payloadByte_range bs)
  have hj := List.mem_range.1 hj
  rw [wordByte_blobOver v _ bs (by omega), if_pos hj]

/-- The two registers of the LE device address show the bytes copied into them (10_state.md R53, R54). -/
theorem leaddrBytes_blobOver {fs : FieldSet} {v0 v1 : Word} {len : Nat} {bs : List Byte} (hlen : bs.length = len)
    (h : len ≤ 8) (h0 : fs.leaddr0 = blobOver v0 len bs) (h1 : fs.leaddr1 = blobOver v1 (len - 4) (bs.drop 4)) :
    fs.leaddrBytes len = bs := by
  subst hlen
  refine (List.map_congr_left fun j hj => ?_).trans (map_payloadByte_range bs)
  have hj := List.mem_range.1 hj
  unfold FieldSet.leaddrByte
  split_ifs with hlow
  · rw [h0, wordByte_blobOver _ _ _ hlow, if_pos hj]
  · rw [h1, wordByte_blobOver _ _ _ (by omega), if_pos (by omega), payloadByte, payloadByte, List.getD, List.getD,
      List.getElem?_drop, Nat.add_sub_cancel' (by omega)]

/-- The value stored from an encoded payload shows that payload again. -/
theorem payloadOf_storeValue {s u : State} (fs : FieldSet) {off : Nat} {k : Kind} (hcfg : u.cfg = s.cfg)
    (hlegal : s.cfg.legal) (hcap : (payloadOf s k).length ≤ s.cfg.maxFieldSz) (hsrc : SrcHolds u off (payloadOf s k))
    (hin : off + (payloadOf s k).length ≤ 256) :
    payloadOf (u.setFs (storeValue s.cfg fs off (payloadOf s k) k)) k = payloadOf s k := by
  obtain ⟨hmax, ⟨-, hdevcls⟩, ⟨-, hitvl⟩, ⟨-, hleaddr⟩⟩ := hlegal
  have hsize : (payloadOf s k).length < 256 := by omega
  have hview : (u.setFs (storeValue s.cfg fs off (payloadOf s k) k)).srcBytes
      (viewAt off (payloadOf s k).length).off.toNat (viewAt off (payloadOf s k).length).n.toNat = payloadOf s k := by
    rw [toNat_viewAt_n hsize]
    exact srcBytes_viewAt hsrc hin
  cases k with
  | flags | txp | lerole => rfl
  | appear | advItvl => exact congrArg halfBytes (half_of_bytes _)
  | name | sd16 | sd32 | sd128 | uri | mfg => exact hview
  | uuid128 => exact srcBytes_viewAt_entries hsrc hin (State.length_srcBytes ..) (by decide) s.fs.u128.n.isLt
  | pta => exact srcBytes_viewAt_entries hsrc hin (State.length_srcBytes ..) (by decide) s.fs.pta.n.isLt
  | devcls =>
    show FieldSet.devclsBytes _ u.cfg.devclsLen = _
    rw [hcfg]
    exact map_wordByte_blobOver _ (FieldSet.length_devclsBytes ..) hdevcls
  | itvlRange =>
    show FieldSet.itvlBytes _ u.cfg.itvlRangeLen = _
    rw [hcfg]
    exact map_wordByte_blobOver _ (FieldSet.length_itvlBytes ..) hitvl
  | leaddr =>
    show FieldSet.leaddrBytes _ u.cfg.leAddrLen = _
    rw [hcfg]
    exact leaddrBytes_blobOver (FieldSet.length_leaddrBytes ..) hleaddr rfl rfl
  | uuid16 =>
    have hlen : (payloadOf s .uuid16).length = 2 * s.fs.u16Count.toNat := FieldSet.length_u16Bytes ..
    have hcount : (BitVec.ofNat 8 ((payloadOf s .uuid16).length / 2)).toNat = s.fs.u16Count.toNat := by
      rw [toNat_ofNat_byte (by omega)]
      omega
    show FieldSet.u16Bytes _ (BitVec.ofNat 8 ((payloadOf s .uuid16).length / 2)).toNat = _
    rw [hcount]
    exact u16Bytes_of_entries (fs := fs) (by omega) rfl
  | uuid32 =>
    have hlen : (payloadOf s .uuid32).length = 4 * s.fs.u32Count.toNat := FieldSet.length_u32Bytes ..
    have hcount : (BitVec.ofNat 8 ((payloadOf s .uuid32).length / 4)).toNat = s.fs.u32Count.toNat := by
      rw [toNat_ofNat_byte (by omega)]
      omega
    show FieldSet.u32Bytes _ (BitVec.ofNat 8 ((payloadOf s .uuid32).length / 4)).toNat = _
    rw [hcount]
    exact u32Bytes_of_entries (fs := fs) (by omega) rfl

/-- A kind whose registers are those that its own encoded record stored is the kind that was encoded. -/
theorem sameField_of_stored {s v : State} {fs : FieldSet} {off : Nat} {k : Kind}
    (h : SameKind (storeRecord v.cfg fs off (k.code s.fs) (payloadOf s k)) v.fs k) (hcfg : v.cfg = s.cfg)
    (hlegal : s.cfg.legal) (hcap : (payloadOf s k).length ≤ s.cfg.maxFieldSz) (hsrc : SrcHolds v off (payloadOf s k))
    (hin : off + (payloadOf s k).length ≤ 256) : SameField s v k := by
  obtain ⟨hhas, hcode, hvalue⟩ := h
  rw [has_storeRecord_code, decide_eq_true rfl, Bool.true_or] at hhas
  rw [code_storeRecord_code] at hcode
  rw [valueOf_storeRecord_code, hcfg] at hvalue
  refine ⟨hhas, hcode, ?_⟩
  calc payloadOf v k
      = payloadOf (v.setFs (v.fs.valueOf k)) k := (payloadOf_valueOf v k).symm
    _ = payloadOf (v.setFs (storeValue s.cfg fs off (payloadOf s k) k)) k := by
        rw [hvalue]
        exact payloadOf_valueOf (v.setFs (storeValue s.cfg fs off (payloadOf s k) k)) k
    _ = payloadOf s k := payloadOf_storeValue fs hcfg hlegal hcap hsrc hin

/-! ## The records of several kinds -/

/-- Records of distinct kinds: each kind keeps what its own record stored, whatever the others store, and a kind without
a record keeps what it had. -/
theorem storeRecords_fieldRecords {s u : State} (c : Config) (ks : List Kind) (hks : ks.Nodup) (fs : FieldSet) (p : Nat)
    (hsrc : SrcHolds u p (wireOf (ks.map (fieldRecord s)))) :
    (∀ j, j ∉ ks → SameKind fs (storeRecords c fs p (ks.map (fieldRecord s))) j) ∧
      ∀ k ∈ ks, ∃ fs' off,
        SameKind (storeRecord c fs' off (k.code s.fs) (payloadOf s k))
          (storeRecords c fs p (ks.map (fieldRecord s))) k ∧
        SrcHolds u off (payloadOf s k) ∧
        off + (payloadOf s k).length ≤ p + (wireOf (ks.map (fieldRecord s))).length := by
  induction ks generalizing fs p with
  | nil => exact ⟨fun j _ => .refl fs j, nofun⟩
  | cons k ks ih =>
    obtain ⟨hk, hks⟩ := List.nodup_cons.1 hks
    rw [List.map_cons, fieldRecord, wireOf_cons] at hsrc ⊢
    obtain ⟨hrecord, hrest⟩ := srcHolds_append hsrc
    obtain ⟨-, hpayload⟩ := srcHolds_append (bs := [BitVec.ofNat 8 ((payloadOf s k).length + 1), k.code s.fs]) hrecord
    rw [length_wireRecord, Nat.add_comm _ 2, ← Nat.add_assoc] at hrest
    obtain ⟨hothers, hown⟩ := ih hks (storeRecord c fs (p + 2) (k.code s.fs) (payloadOf s k))
      (p + 2 + (payloadOf s k).length) hrest
    rw [storeRecords, List.length_append, length_wireRecord, List.forall_mem_cons]
    refine ⟨fun j hj => ?_, ⟨fs, p + 2, hothers k hk, hpayload, by omega⟩, fun k' hk' => ?_⟩
    · have hstored := sameKind_storeRecord_of_ne c fs s.fs (p + 2) (payloadOf s k) (List.ne_of_not_mem_cons hj)
      exact hstored.trans (hothers j (List.not_mem_of_not_mem_cons hj))
    · obtain ⟨fs', off, hsame, hsrc', hin⟩ := hown k' hk'
      exact ⟨fs', off, hsame, hsrc', by omega⟩

theorem mem_presentKinds {fs : FieldSet} {k : Kind} : k ∈ allKinds.filter fs.has ↔ fs.has k = true := by
  rw [List.mem_filter]
  exact and_iff_right (by cases k <;> decide)

/-- Settles O47: ENCODE left one acceptable record for each present kind, DECODE stores them in order from a zeroed
field set, and what each of them stored is still there at the end. -/
theorem decodeOfEncodedFieldSetGivesItBack : Obligations.DecodeOfEncodedFieldSetGivesItBack := by
  intro s t u hlegal henc hend hsup hauto hcap h16 h32 h128 hcfg hinLen hcopy
  obtain ⟨hcursor, hdst⟩ := dst_of_completed_encode henc hend hsup hauto
  have hlen : (recordsOf s allKinds).length = u.inLen.toNat := by rw [hinLen, hcursor]
  have hsrc : SrcHolds u 0 (recordsOf s allKinds) := fun i hi => by
    rw [← hdst i hi, Nat.zero_add]
    exact hcopy i (by rwa [hcursor])
  rw [recordsOf_eq_wireOf] at hlen hsrc
  have hok : ∀ r ∈ (allKinds.filter s.fs.has).map (fieldRecord s), acceptable u.cfg r.1 r.2.length = true := by
    rw [hcfg, List.forall_mem_map]
    intro k hk
    have hk := mem_presentKinds.1 hk
    exact acceptable_fieldRecord (hcap k hk) (fun h => h16 (h ▸ hk)) (fun h => h32 (h ▸ hk)) (fun h => h128 (h ▸ hk))
  refine ⟨_, decodeStoresEveryRecord u _ hok hlen hsrc, ⟨rfl, rfl, rfl⟩, fun k => ?_⟩
  obtain ⟨habsent, hpresent⟩ := storeRecords_fieldRecords u.cfg (allKinds.filter s.fs.has)
    (List.Nodup.filter _ (by decide)) FieldSet.zero 0 hsrc
  refine ⟨fun hk => ?_, fun hk => ?_⟩
  · obtain ⟨fs, off, hsame, hsrc', hin⟩ := hpresent k (mem_presentKinds.2 hk)
    have := u.inLen.isLt
    exact sameField_of_stored hsame hcfg hlegal (hcap k hk) hsrc' (by omega)
  · exact (habsent k fun hmem => absurd (hk.symm.trans (mem_presentKinds.1 hmem)) Bool.false_ne_true).zeroField

end Sys2Proof.Machine
end

section
/-! SUPPORT. The control commands and the engine's own step (42_control.md): which command a step runs, how it ends, and
what NOP, FSCLR and a reserved opcode leave alone. -/

namespace Sys2Proof.Machine

/-! ## The engine's step (42_control.md R263) -/

/-- Settles O8: the engine's turn is taken on the state with the move off the agenda, where the latched word is the
same. -/
theorem engineStepRunsTheLatchedCommand : Obligations.EngineStepRunsTheLatchedCommand := by
  intro s i hm he hcmd
  have hi : decodeCommand s.latch = i := Except.ok.inj hcmd
  calc step s = engineTurn s.popMove := step_engine hm
    _ = exec (decodeCommand s.latch) s.popMove := engineTurn_exec (s := s.popMove) he
    _ = exec i s.popMove := by rw [hi]

/-! ## How a command ends (60_exceptions.md R290) -/

/-- `RESULT` and `STATUS.ERR_SRC` read as before: no command has ended in between (60_exceptions.md R290). -/
def SameResult (s t : State) : Prop := t.result = s.result ∧ t.errSrc = s.errSrc

theorem SameResult.trans {s t u : State} (hst : SameResult s t) (htu : SameResult t u) : SameResult s u := by
  obtain ⟨hresult, herrSrc⟩ := hst
  obtain ⟨hresult', herrSrc'⟩ := htu
  exact ⟨hresult'.trans hresult, herrSrc'.trans herrSrc⟩

/-- The loop of ENCODE reports nothing before it ends: a suspension leaves `RESULT` and `ERR_SRC` as they were
(40_encode.md R177). -/
theorem sameResult_of_encFrom_suspended {ks : List Kind} {s t : State} (h : encFrom ks s = .suspended t) :
    SameResult s t := by
  obtain ⟨u, hu, hok | ⟨e, hraised⟩ | hsusp⟩ := encFrom_induction SameResult
    (htrans := fun _ _ _ => SameResult.trans) (hk := fun _ _ => ⟨rfl, rfl⟩) (hw := fun _ => ⟨rfl, rfl⟩)
    (hp := fun _ _ _ _ => ⟨rfl, rfl⟩) ks s
  · cases h.symm.trans hok
  · cases h.symm.trans hraised
  · cases h.symm.trans hsusp
    exact hu

/-- An ENCODE that waits has reported nothing yet. -/
theorem sameResult_of_execEncode_waiting {s t : State} (h : exec .encode s = .next t) (hw : t.engState = .waitTxp) :
    SameResult s t := by
  cases hsup : s.cfg.encodeSupported with
  | true =>
    rw [exec_encode hsup] at h
    cases h
    exact sameResult_of_encFrom_suspended (s := s.setOutLen 0) (Ending.eq_suspended_of_waitTxp hw)
  | false =>
    rw [disabledEncodePathReportsNotSupported s .encode hsup (by simp)] at h
    cases h
    cases hw

/-- Settles O11: an instruction that is not idle in its next state waits for the collaborator; every instruction but
ENCODE is idle there, and an ENCODE that waits has reported nothing. -/
theorem everyCommandEndsOrWaits : Obligations.EveryCommandEndsOrWaits := by
  intro i s
  obtain ⟨t, ht, -⟩ := hostSideSame_keptByCommands.command i s
  refine ⟨t, ht, ?_⟩
  by_cases hidle : t.engState = .idle
  · exact .inl hidle
  · have hwait : t.engState = .waitTxp := waitTxp_of_exec ht hidle
    obtain rfl : i = .encode := by_contra fun hi => hidle (exec_engState hi ht)
    exact .inr ⟨rfl, hwait, sameResult_of_execEncode_waiting ht hwait⟩

/-! ## NOP, FSCLR and the reserved opcodes -/

theorem exec_nop (s : State) : exec .nop s = .next s.complete := rfl

theorem exec_fsclr (s : State) : exec .fsclr s = .next s.fsClear.complete := rfl

theorem exec_reserved (op : Byte) (s : State) : exec (.reserved op) s = .next (s.raise .illegal) := rfl

theorem decodeSideSame_complete (s : State) : DecodeSideSame s s.complete := ⟨rfl, rfl, rfl, rfl⟩

theorem decodeSideSame_raise (s : State) (e : Err) : DecodeSideSame s (s.raise e) := ⟨rfl, rfl, rfl, rfl⟩

/-- Every kind is absent and its registers are 0 in the zeroed field set (42_control.md R261). -/
theorem zeroField_zero (k : Kind) : ZeroField FieldSet.zero k := (SameKind.refl FieldSet.zero k).zeroField

/-- Settles O13: NOP is the completion rule and nothing else. -/
theorem nopResetsTheResultOnly : Obligations.NopResetsTheResultOnly :=
  ⟨fun _ => decodeCommand_nop, fun s =>
    ⟨s.complete, exec_nop s, ended_complete s, hostSideSame_keptByCommands.complete s, decodeSideSame_complete s,
      s.complete_outLen, s.complete_encK, s.complete_readByte⟩⟩

/-- Settles O14: FSCLR stores the zeroed field set, then completes. -/
theorem fsclrZeroesTheFieldSet : Obligations.FsclrZeroesTheFieldSet := by
  refine ⟨fun _ => decodeCommand_fsclr, fun s => ?_⟩
  have hexec := exec_fsclr s
  have hbytes (a : Nat) : s.fsClear.complete.readByte a = s.readByte a :=
    (s.fsClear.complete_readByte a).trans (s.fsClear_readByte a)
  exact ⟨s.fsClear.complete, hexec, ended_complete _, rfl, rfl, zeroField_zero,
    hostSideSame_keptByCommands.of_exec hexec, rfl, rfl, rfl, rfl, rfl, hbytes⟩

/-- Settles O15: the decoder keeps of a reserved word only its opcode, and the command raises E_ILLEGAL from the state
it found. -/
theorem reservedOpcodeRaisesIllegal : Obligations.ReservedOpcodeRaisesIllegal := fun s w hop =>
  ⟨decodeCommand_reserved w hop, s.raise .illegal, exec_reserved (cmdOp w) s, ended_raise s .illegal,
    hostSideSame_keptByCommands.raise s .illegal, decodeSideSame_raise s .illegal, s.raise_outLen .illegal,
    s.raise_encK .illegal, s.raise_readByte .illegal⟩

end Sys2Proof.Machine
end

section
/-! SUPPORT. Reset, at power-on and by the reset input, and the idle engine's turn (70_reset_and_hazards.md R320 to
R322): what the registers read, what the memory shows, and that the invariant holds there. -/

namespace Sys2Proof.Machine

/-! ## The state after reset (10_state.md R66, 70_reset_and_hazards.md R322) -/

theorem FieldSet.zero_u16At (i : Nat) : FieldSet.zero.u16At i = 0 := by
  obtain ⟨-, -, hentries, -⟩ := zeroField_zero .uuid16
  exact hentries i

theorem FieldSet.zero_u32At (i : Nat) : FieldSet.zero.u32At i = 0 := by
  obtain ⟨-, -, hentries, -⟩ := zeroField_zero .uuid32
  exact hentries i

theorem le32_zero : le32 0 0 0 0 = 0 := by decide

/-- STATUS while no command runs and the last one ended without an error of the collaborator (10_state.md R34). -/
theorem status_of_idle {s : State} (h : s.engState = .idle) (herr : s.errSrc = false) : s.status = 0 := by
  simp only [State.status, State.waitTxp, State.busy, h, herr]
  decide

/-- `CAP` and `CAP2` show the parameters, which reset leaves; every other register reads 0. -/
theorem State.resetOf_readReg (c : Config) {r : Reg} (hcap : r ≠ .cap) (hcap2 : r ≠ .cap2) :
    (State.resetOf c).readReg r = 0 := by
  cases r with
  | cap => exact absurd rfl hcap
  | cap2 => exact absurd rfl hcap2
  | u16 i => exact congrArg (BitVec.setWidth 32) (FieldSet.zero_u16At i)
  | u32 i => exact FieldSet.zero_u32At i
  | status => exact status_of_idle rfl rfl
  | fsWord => exact (by decide : (0#16 ++ 0#16) = 0#32)
  | fsScalar | fsCount | fsU128 | fsName | fsSd16 | fsPta | fsSd32 | fsSd128 | fsUri | fsMfg => exact le32_zero
  | _ => rfl

theorem atResetValues_resetOf (c : Config) : AtResetValues (State.resetOf c) :=
  ⟨rfl, rfl, rfl, rfl, fun _ => State.resetOf_readReg c, fun _ => rfl⟩

/-- Settles O1: `State.reset` is the state after reset under the default parameters. -/
theorem resetLeavesTheResetValues : Obligations.ResetLeavesTheResetValues :=
  ⟨fun c => ⟨atResetValues_resetOf c, rfl⟩, atResetValues_resetOf Config.default⟩

/-- Settles O3: the state after reset and what the reset input makes of it differ in the epoch alone, of which the
invariant says nothing. -/
theorem resetSatisfiesTheInvariant : Obligations.ResetSatisfiesTheInvariant := fun c =>
  inv_hardReset (State.resetOf c)

/-! ## The reset input (70_reset_and_hazards.md R320, R321) -/

/-- The environment's part of the state, which the reset input keeps, is not in the register file. -/
theorem State.hardReset_readReg (s : State) (r : Reg) : s.hardReset.readReg r = (State.resetOf s.cfg).readReg r := by
  cases r <;> rfl

/-- Every byte of SRC and DST is unspecified anew (10_state.md R58, R59, log entry 4). -/
theorem State.hardReset_readByte (s : State) (a : Nat) : s.hardReset.readByte a = Config.memDraw (s.epoch + 1) a := rfl

theorem atResetValues_hardReset (s : State) : AtResetValues s.hardReset := by
  obtain ⟨hidle, hlatch, hencK, hreq, hregs, hmem⟩ := atResetValues_resetOf s.cfg
  refine ⟨hidle, hlatch, hencK, hreq, fun r hcap hcap2 => ?_, hmem⟩
  exact (s.hardReset_readReg r).trans (hregs r hcap hcap2)

theorem step_reset {s : State} (hm : s.nextMove = .reset) : step s = .next s.popMove.hardReset :=
  step_environment hm nofun

/-- Settles O2: the step is `hardReset` whatever the engine was doing. -/
theorem resetInputAbandonsTheCommand : Obligations.ResetInputAbandonsTheCommand := by
  intro s hm
  have hbytes (a : Nat) := s.popMove.hardReset_readByte a
  exact ⟨s.popMove.hardReset, step_reset hm, atResetValues_hardReset s.popMove, rfl, rfl,
    fun a _ => ⟨hbytes (srcBase + a), hbytes (dstBase + a)⟩, rfl, rfl, rfl, rfl⟩

/-! ## The idle engine (70_reset_and_hazards.md R320) -/

/-- Settles O10: the step is the engine's turn, and an idle engine leaves the state it is given. -/
theorem idleEngineDoesNothing : Obligations.IdleEngineDoesNothing := fun s hm hidle =>
  calc step s = engineTurn s.popMove := step_engine hm
    _ = .next s.popMove := engineTurn_idle (s := s.popMove) hidle

end Sys2Proof.Machine
end
